-- ==== Sys2Proof/Word.lean ====
section
/-! DEFINITION. The widths that the spec gives to bytes, registers, PIDs and timestamps (R6, R7). -/

namespace Sys2Proof

/-- One byte of the stream (R9). -/
abbrev Byte := BitVec 8

/-- One host register, or the 32-bit header word of a frame (R7, R81). -/
abbrev Word := BitVec 32

/-- A PID, PID_W = 13 bits (R6). -/
abbrev Pid := BitVec 13

/-- A presentation timestamp, PTS_W = 33 bits, in 90 kHz ticks (R6). -/
abbrev Pts := BitVec 33

end Sys2Proof
end

