-- ==== Sys2Proof/Config.lean ====
section
/-! DEFINITION. The parameters of TSFE (R6, R7): fixed numbers, none of them left open by the spec (part 1 of
spec/93_implementation_defined.md), so no free value stands here. -/

namespace Sys2Proof.Config

/-- FRAME_LEN (R6). -/
abbrev frameLen : Nat := 188

/-- SYNC, the first byte of every legal frame (R6). -/
abbrev sync : Byte := 0x47#8

/-- STUFF, the table ID that marks the end of the sections of a payload (R6). -/
abbrev stuff : Byte := 0xFF#8

/-- CRC_POLY (R6). -/
abbrev crcPoly : Word := 0x04C11DB7#32

/-- CRC_SEED (R6). -/
abbrev crcSeed : Word := 0xFFFFFFFF#32

/-- SEC_HDR_MIN, the table ID and the two length bytes (R6). -/
abbrev secHdrMin : Nat := 3

/-- PES_PREFIX_LEN (R6). -/
abbrev pesPrefixLen : Nat := 9

/-- The smallest buffer that holds the PTS field at offsets 9 to 13 (R88, R235). -/
abbrev ptsEnd : Nat := 14

/-- NPID, one channel for each PID value (R7). -/
abbrev npid : Nat := 8192

/-- SEC_BUF_CAP, the longest a section buffer ever is inside a step (R7, R206). -/
abbrev secBufCap : Nat := 4281

/-- PES_BUF_CAP, the longest a PES buffer ever is inside a step (R7, R236). -/
abbrev pesBufCap : Nat := 447

end Sys2Proof.Config
end

