-- ==== Sys2Proof/Syntax.lean ====
section
/-! DEFINITION. What TSFE executes: one constructor for each of the 29 rows of spec/opcode_table.json (R92), with every
bit of the row's encoding that the row does not fix as an operand, the bits the spec calls ignored among them (DESIGN
CHOICE, log entry 7; safe). -/

namespace Sys2Proof

/-- The header bits that are operands of a frame class: all but sync, pusi and afc (R83). -/
structure TsOperands where
  tei  : Bool
  prio : Bool
  pid  : Pid
  tsc  : BitVec 2
  cc   : BitVec 4
  deriving DecidableEq, Repr

/-- The nine-byte PES header prefix, its undecoded bits kept (R87). -/
structure PesPrefix where
  startCode      : BitVec 24
  streamId       : Byte
  packetLength   : BitVec 16
  ignoredSixHigh : BitVec 5
  dataAlignment  : Bool
  ignoredSixLow  : BitVec 2
  ptsDtsFlags    : BitVec 2
  ignoredSeven   : BitVec 6
  headerDataLen  : Byte
  deriving DecidableEq, Repr

/-- The operations of TSFE (R92). -/
inductive Instr where
  /-- IN.BYTE (R141) -/
  | inByte (b : Byte)
  /-- IN.EOS (R146) -/
  | inEos (ignored : BitVec 8)
  /-- TS.N: no adaptation field, no payload (R176) -/
  | tsN (o : TsOperands)
  /-- TS.N.S (R177) -/
  | tsNS (o : TsOperands)
  /-- TS.P: payload only (R170) -/
  | tsP (o : TsOperands)
  /-- TS.P.S (R171) -/
  | tsPS (o : TsOperands)
  /-- TS.A: adaptation field only (R174) -/
  | tsA (o : TsOperands)
  /-- TS.A.S (R175) -/
  | tsAS (o : TsOperands)
  /-- TS.AP: adaptation field, then payload (R172) -/
  | tsAP (o : TsOperands)
  /-- TS.AP.S (R173) -/
  | tsAPS (o : TsOperands)
  /-- TS.BAD: a first byte other than 0x47 (R178) -/
  | tsBad (sync : Byte) (ignored : BitVec 24)
  /-- SEC.UNIT: the head of a section in a SEC channel buffer (R198) -/
  | secUnit (tableId : Byte) (ignored : BitVec 4) (sectionLength : BitVec 12)
  /-- SEC.STUFF: the stuffing marker at the front of a SEC channel buffer (R199) -/
  | secStuff
  /-- PES.HDR.PTS: a PES header with a timestamp (R231) -/
  | pesHdrPts (h : PesPrefix)
  /-- PES.HDR.NOPTS: a PES header without one (R231) -/
  | pesHdrNopts (h : PesPrefix)
  /-- WR.CTRL (R262) -/
  | wrCtrl (data : Word)
  /-- RD.STATUS (R263) -/
  | rdStatus (data : Word)
  /-- RD.FRAME_CNT (R264) -/
  | rdFrameCnt (data : Word)
  /-- RD.FAULT_INFO (R265) -/
  | rdFaultInfo (data : Word)
  /-- RD.FAULT_PID (R266) -/
  | rdFaultPid (data : Word)
  /-- WR.CH_SEL (R267) -/
  | wrChSel (data : Word)
  /-- RD.CH_SEL (R270) -/
  | rdChSel (data : Word)
  /-- WR.CH_MODE (R268) -/
  | wrChMode (data : Word)
  /-- RD.CH_MODE (R271) -/
  | rdChMode (data : Word)
  /-- WR.CH_CMD (R269) -/
  | wrChCmd (data : Word)
  /-- RD.CH_STATE (R272) -/
  | rdChState (data : Word)
  /-- WR.CRC_INIT (R124) -/
  | wrCrcInit (data : Word)
  /-- WR.CRC_DATA (R125) -/
  | wrCrcData (data : Word)
  /-- RD.CRC_VALUE (R126) -/
  | rdCrcValue (data : Word)
  deriving DecidableEq, Repr

/-- Why a word is no operation of the table. -/
inductive Reject where
  /-- A read of an address that holds no readable register (R32, R45). -/
  | noReadableRegister (addr : Byte)
  /-- A write to an address that holds no writable register (R32, R45). -/
  | noWritableRegister (addr : Byte)
  /-- A number of bits that is the width of no format (R80). -/
  | noSuchFormat (nbits : Nat)
  /-- A bit set above the width of the format (R90, R91). -/
  | bitsAboveFormat (nbits : Nat)
  deriving DecidableEq, Repr

/-- How many bits spec/opcode_table.json gives the row of an operation. -/
def Instr.width : Instr → Nat
  | .inByte _ => 9
  | .inEos _ => 9
  | .tsN _ => 32
  | .tsNS _ => 32
  | .tsP _ => 32
  | .tsPS _ => 32
  | .tsA _ => 32
  | .tsAS _ => 32
  | .tsAP _ => 32
  | .tsAPS _ => 32
  | .tsBad _ _ => 32
  | .secUnit _ _ _ => 24
  | .secStuff => 8
  | .pesHdrPts _ => 72
  | .pesHdrNopts _ => 72
  | .wrCtrl _ => 41
  | .rdStatus _ => 41
  | .rdFrameCnt _ => 41
  | .rdFaultInfo _ => 41
  | .rdFaultPid _ => 41
  | .wrChSel _ => 41
  | .rdChSel _ => 41
  | .wrChMode _ => 41
  | .rdChMode _ => 41
  | .wrChCmd _ => 41
  | .rdChState _ => 41
  | .wrCrcInit _ => 41
  | .wrCrcData _ => 41
  | .rdCrcValue _ => 41

end Sys2Proof
end

