-- ==== Sys2Proof/Machine/State.lean ====
section
/-! DEFINITION. The state of one TSFE instance (R20), its three ports as plain data, and the state after reset (R54). -/

namespace Sys2Proof.Machine

/-- `run`: RUN, DONE or FAULT (R21). -/
inductive Run where
  | run
  | done
  | fault
  deriving DecidableEq, Repr

/-- The causes of a fault, codes 1 to 4 (R22, R331 to R334). -/
inductive Cause where
  /-- code 1: a complete frame whose byte 0 is not 0x47 (R331) -/
  | framingError
  /-- code 2: an adaptation field that does not fit in the frame (R332) -/
  | adaptationOverrun
  /-- code 3: a unit start on a SEC channel without a pointer target (R333) -/
  | pointerOverrun
  /-- code 4: a timestamp flagged in a header buffer shorter than 14 bytes (R334) -/
  | ptsOverrun
  deriving DecidableEq, Repr

/-- `mode[p]`, the routing mode of a PID (R28). -/
inductive Mode where
  | off
  | sec
  | pes
  deriving DecidableEq, Repr

/-- `ch[p].st`; `started` is the source's Accumulating on a SEC channel and Started on a PES channel (R30). -/
inductive ChSt where
  | notStarted
  | started
  | headerParsed
  deriving DecidableEq, Repr

/-- `ch[p]`, the channel record of a PID (R30). -/
structure Chan where
  st  : ChSt
  buf : List Byte
  deriving DecidableEq, Repr

/-- (NotStarted, empty): a channel after any reset of it (R54, R268, R269). -/
def Chan.idle : Chan := ⟨.notStarted, []⟩

/-- The fields of a `PKT` event (R48). -/
structure Packet where
  frame     : Word
  tei       : Bool
  pusi      : Bool
  prio      : Bool
  pid       : Pid
  tsc       : BitVec 2
  afc       : BitVec 2
  cc        : BitVec 4
  afPresent : Bool
  afLen     : Byte
  af        : List Byte
  payload   : List Byte
  raw       : List Byte
  deriving DecidableEq, Repr

/-- The fields of a `PES_HDR` event (R50). -/
structure PesHeader where
  pid           : Pid
  startCode     : BitVec 24
  streamId      : Byte
  packetLength  : BitVec 16
  dataAlignment : Bool
  ptsDtsFlags   : BitVec 2
  headerDataLen : Byte
  ptsValid      : Bool
  pts           : Pts
  deriving DecidableEq, Repr

/-- What TSFE appends to EV (R47 to R53). -/
inductive Event where
  /-- `PKT` (R48) -/
  | pkt (p : Packet)
  /-- `SECTION` (R49) -/
  | sectionDone (pid : Pid) (data : List Byte)
  /-- `PES_HDR` (R50) -/
  | pesHdr (h : PesHeader)
  /-- `PES_DATA` (R51) -/
  | pesData (pid : Pid) (data : List Byte)
  /-- `END` (R52) -/
  | endOfStream (residual : Byte)
  /-- `FAULT` (R53) -/
  | fault (code : Cause) (frame : Word) (pid : Pid)
  deriving DecidableEq, Repr

/-- One step that the environment presents: an IN symbol, a CMD command, or the reset input (R11, R90, R91, R360). -/
inductive PortStep where
  | input (w : BitVec 9)
  | command (w : BitVec 41)
  | resetPin
  deriving DecidableEq, Repr

/-- Bytes by address, addresses strictly rising, no entry equal to `Memory.unlisted`. -/
abbrev Memory := List Host.Cell

/-- What a byte that nothing has written reads as: 0, the spec's own example for FB after reset (R54;
DESIGN CHOICE, log entry 1). Unsafe if a claim rested on it; R25 makes it unobservable. -/
def Memory.unlisted : Byte := 0#8

/-- The tuple of R20 and, below it, the ports: the steps still to come in their total order, and what has been put
out on EV and returned on CMD (DESIGN CHOICE, log entry 2; safe). `mode` and `ch` are indexed by the PID as a number and list only the entries that
differ from their reset value. -/
structure State where
  /-- `run` (R21) -/
  run        : Run
  /-- `fault_code`, 0 as `none` (R22) -/
  faultCode  : Option Cause
  /-- `fault_frame` (R22) -/
  faultFrame : Word
  /-- `fault_pid` (R22) -/
  faultPid   : Pid
  /-- `frame_cnt` (R23) -/
  frameCnt   : Word
  /-- `byte_cnt`, 0 to 187 (R23) -/
  byteCnt    : Fin 188
  /-- `FB`, the frame buffer, addresses 0 to 187 (R25) -/
  fb         : Memory
  /-- `crc` (R26) -/
  crc        : Word
  /-- `ch_sel` (R29) -/
  chSel      : Pid
  /-- `mode[p]`, unlisted PIDs OFF (R28) -/
  mode       : List (Nat × Mode)
  /-- `ch[p]`, unlisted PIDs (NotStarted, empty) (R30) -/
  ch         : List (Nat × Chan)
  /-- the steps the environment still presents, first one first (R11, R71) -/
  pending    : List PortStep
  /-- EV, oldest event first (R47) -/
  ev         : List Event
  /-- the values that `RD` commands have returned, oldest first (R91, R261) -/
  resp       : List Word
  deriving DecidableEq, Repr

/-- The state after reset (R54), with nothing presented, emitted or returned yet. -/
def State.reset : State where
  run        := .run
  faultCode  := none
  faultFrame := 0#32
  faultPid   := 0#13
  frameCnt   := 0#32
  byteCnt    := 0
  fb         := []
  crc        := Config.crcSeed
  chSel      := 0#13
  mode       := []
  ch         := []
  pending    := []
  ev         := []
  resp       := []

/-- Why the machine would stop. No constructor: the four causes of R331 to R334 are trap entries that R338 describes,
so they are next states with `run` = FAULT and not stops, and every step is total (R380; DEDUCED, log entry 3). Safe:
there is nothing that a stop could hide. -/
inductive Fault
  deriving DecidableEq, Repr

/-- Why an instruction would have no meaning. -/
inductive Refusal where
  /-- Raised by an arm of `exec` for an instruction that has no meaning yet; no arm does so. Safe: the machine stops. -/
  | notModelled (mnemonic : String)
  deriving DecidableEq, Repr

end Sys2Proof.Machine
end

