-- ==== Sys2Proof/Machine/Ops.lean ====
section
/-! DEFINITION. The named operations over the byte spaces, the per-PID tables, the ports, and the entry of a fault
with the reset that is its only way out (R60 to R74, R338, R340, R360). -/

namespace Sys2Proof.Machine

/-! ## Sparse tables in canonical form

A table lists, keys strictly rising, only the keys whose value is not the default `d`. -/

/-- The value at key `k`. -/
def Table.read {α : Type} (d : α) (t : List (Nat × α)) (k : Nat) : α :=
  match t with
  | [] => d
  | e :: rest => if e.1 = k then e.2 else Table.read d rest k

/-- `t` with `v` at key `k`; writing the default removes the entry. -/
def Table.write {α : Type} [DecidableEq α] (d : α) (t : List (Nat × α)) (k : Nat) (v : α) : List (Nat × α) :=
  match t with
  | [] => if v = d then [] else [(k, v)]
  | e :: rest =>
    if k < e.1 then (if v = d then e :: rest else (k, v) :: e :: rest)
    else if k = e.1 then (if v = d then rest else (k, v) :: rest)
    else e :: Table.write d rest k v

/-- The canonical form: keys strictly rising, no entry equal to the default. -/
def Table.wf {α : Type} [DecidableEq α] (d : α) (t : List (Nat × α)) : Bool :=
  match t with
  | [] => true
  | e :: rest => decide (e.2 ≠ d) && rest.all (fun x => decide (e.1 < x.1)) && Table.wf d rest

/-! ## The frame buffer as a byte space -/

/-- `FB[a]` (R10). -/
def Memory.read (m : Memory) (a : Nat) : Byte := Table.read Memory.unlisted m a

/-- `FB[a] <- b` (R10). -/
def Memory.write (m : Memory) (a : Nat) (b : Byte) : Memory := Table.write Memory.unlisted m a b

/-- The canonical form of a memory. -/
def Memory.wf (m : Memory) : Bool := Table.wf Memory.unlisted m

/-- `FB[a .. a + n)` (R9). -/
def Memory.readBytes (m : Memory) (a n : Nat) : List Byte := (List.range' a n).map m.read

/-- A memory that holds the byte sequence `bs` from address `a` on and nothing else. -/
def Memory.ofBytes (a : Nat) (bs : List Byte) : Memory :=
  match bs with
  | [] => []
  | b :: rest => if b = Memory.unlisted then Memory.ofBytes (a + 1) rest else (a, b) :: Memory.ofBytes (a + 1) rest

/-! ## The per-PID channel file (R28, R30) -/

/-- `mode[p]` (R28). -/
def State.modeOf (s : State) (p : Pid) : Mode := Table.read .off s.mode p.toNat

/-- `ch[p]` (R30). -/
def State.chan (s : State) (p : Pid) : Chan := Table.read Chan.idle s.ch p.toNat

/-- `mode[p] <- m`. -/
def State.setMode (s : State) (p : Pid) (m : Mode) : State :=
  { s with mode := Table.write .off s.mode p.toNat m }

/-- `ch[p] <- c`. -/
def State.setChan (s : State) (p : Pid) (c : Chan) : State :=
  { s with ch := Table.write Chan.idle s.ch p.toNat c }

/-! ## The ports -/

/-- `emit`: append events to EV in order (R47). -/
def State.emit (s : State) (es : List Event) : State := { s with ev := s.ev ++ es }

/-- The value an `RD` command returns on the CMD port (R91, R261). -/
def State.respond (s : State) (v : Word) : State := { s with resp := s.resp ++ [v] }

/-- An access that is no operation: a read returns 0, a write has no effect, neither faults (R32, R45). -/
def State.accessNothing (s : State) (r : Reject) : State :=
  match r with
  | .noReadableRegister _ => s.respond 0#32
  | .noWritableRegister _ => s
  | .noSuchFormat _ => s
  | .bitsAboveFormat _ => s

/-! ## The stream position (R23) -/

/-- `FB[byte_cnt] <- b`, then `byte_cnt` advances by one and returns to 0 after 187 (R25, R141). -/
def State.storeByte (s : State) (b : Byte) : State :=
  { s with fb := s.fb.write s.byteCnt.val b, byteCnt := s.byteCnt + 1 }

/-- `frame_cnt <- (frame_cnt + 1) mod 2^32` (R167). -/
def State.countFrame (s : State) : State := { s with frameCnt := s.frameCnt + 1#32 }

/-! ## Trap entry and reset -/

/-- Trap entry, `raise Fault(code, pid)`: the fault record, run = FAULT, the `FAULT` event; nothing else changes
(R338). Control goes nowhere: IN symbols are discarded from now on (R144). -/
def State.raiseFault (s : State) (code : Cause) (pid : Pid) : State :=
  { s with
    faultCode  := some code
    faultFrame := s.frameCnt
    faultPid   := pid
    run        := .fault
    ev         := s.ev ++ [.fault code s.frameCnt pid] }

/-- Reset(), by the reset input or by `CTRL.SRST`: every element takes its reset value (R54, R360); it is the only
exit from FAULT and from DONE (R340, R262). Events already emitted and values already returned stay; the steps the
environment still presents are not TSFE's to drop. -/
def State.resetAll (s : State) : State :=
  { State.reset with pending := s.pending, ev := s.ev, resp := s.resp }

/-- A channel reset: `ch[p].st <- 0 ; ch[p].buf <- []`, without an event (R268, R269). -/
def State.resetChan (s : State) (p : Pid) : State := s.setChan p Chan.idle

/-! ## How an operation reaches the state -/

/-- What an operation on a channel record yields: a cause, or the new record and its events in order. -/
abbrev ChanResult := Except Cause (Chan × List Event)

/-- A stream operation executes in RUN only; in DONE and FAULT it is discarded (R144; for the frame classes and what is
nested in them DEDUCED, log entry 8; safe). -/
def State.whenRunning (s : State) (next : State) : Host.Outcome State Fault Refusal :=
  if s.run = .run then .next next else .next s

/-- The end of a channel operation: on a cause the fault is entered and `ch[p]` keeps its value from before it (R338,
D30); otherwise the record is written and its events follow on EV. -/
def State.commitChan (s : State) (p : Pid) (r : ChanResult) : State :=
  match r with
  | .error code => s.raiseFault code p
  | .ok (c, es) => (s.setChan p c).emit es

end Sys2Proof.Machine
end

