-- ==== Sys2Proof/Machine/Crc.lean ====
section
/-! DEFINITION. The CRC unit (R120 to R129): WR.CRC_INIT, WR.CRC_DATA, RD.CRC_VALUE. It works in every run state and no
stream operation touches it. -/

namespace Sys2Proof.Machine

/-- `if c[31] = 1 then ((c x 2) mod 2^32) xor 0x04C11DB7 else (c x 2) mod 2^32` (R121). -/
def crcShift (c : Word) : Word :=
  if c.getLsbD 31 then (c <<< 1) ^^^ Config.crcPoly else c <<< 1

/-- `n` turns of `crcShift`. -/
def crcShifts : Nat → Word → Word
  | 0, c => c
  | n + 1, c => crcShifts n (crcShift c)

/-- The constant `CRCTAB[i]`: i x 2^24 after eight shift-and-reduce steps (R27, R121). -/
def crcTab (i : Byte) : Word := crcShifts 8 (i ++ 0#24)

/-- `fold(c, b) = CRCTAB[c[31:24] xor b] xor ((c x 2^8) mod 2^32)` (R122). -/
def crcFold (c : Word) (b : Byte) : Word := crcTab (c.extractLsb' 24 8 ^^^ b) ^^^ (c <<< 8)

/-- `crc32(s)` (R123). -/
def crc32 (s : List Byte) : Word := s.foldl crcFold Config.crcSeed

/-- WR.CRC_INIT: `crc <- 0xFFFFFFFF`, the datum ignored (R124). -/
def execWrCrcInit (_data : Word) (s : State) : Host.Outcome State Fault Refusal :=
  .next { s with crc := Config.crcSeed }

/-- WR.CRC_DATA: `crc <- fold(crc, data[7:0])` (R125). -/
def execWrCrcData (data : Word) (s : State) : Host.Outcome State Fault Refusal :=
  .next { s with crc := crcFold s.crc (data.extractLsb' 0 8) }

/-- RD.CRC_VALUE: returns crc (R126). -/
def execRdCrcValue (_data : Word) (s : State) : Host.Outcome State Fault Refusal :=
  .next (s.respond s.crc)

end Sys2Proof.Machine
end

