-- ==== Sys2Proof/Machine/Flags.lean ====
section
/-! DEFINITION. The status flags, which are the run state and the fault record, and the numbers that the host registers
show for them and for a channel (R21, R22, R28, R30, R31, R34, R39, R41). TSFE has no condition codes (R31). -/

namespace Sys2Proof.Machine

/-- `run` as its two bits (R21). -/
def Run.bits : Run → BitVec 2
  | .run => 0#2
  | .done => 1#2
  | .fault => 2#2

/-- The number of a fault cause (R22). -/
def Cause.bits : Cause → BitVec 4
  | .framingError => 1#4
  | .adaptationOverrun => 2#4
  | .pointerOverrun => 3#4
  | .ptsOverrun => 4#4

/-- `fault_code` as its four bits, 0 for no fault (R22). -/
def faultBits : Option Cause → BitVec 4
  | none => 0#4
  | some c => c.bits

/-- `mode[p]` as its two bits (R28). -/
def Mode.bits : Mode → BitVec 2
  | .off => 0#2
  | .sec => 1#2
  | .pes => 2#2

/-- The mode that a `CH_MODE` write stores: 3 is reserved and stored as 0 (R39, R268). -/
def Mode.ofBits (b : BitVec 2) : Mode :=
  if b = 1#2 then .sec else if b = 2#2 then .pes else .off

/-- `ch[p].st` as its two bits (R30). -/
def ChSt.bits : ChSt → BitVec 2
  | .notStarted => 0#2
  | .started => 1#2
  | .headerParsed => 2#2

/-- `STATUS` = `{16'b0, byte_cnt[7:0], fault_code[3:0], 2'b0, run[1:0]}` (R34, R263). -/
def State.statusWord (s : State) : Word :=
  0#16 ++ BitVec.ofNat 8 s.byteCnt.val ++ faultBits s.faultCode ++ 0#2 ++ s.run.bits

/-- `CH_STATE` of a channel = `{3'b0, len(buf)[12:0], 14'b0, st[1:0]}` (R41, R272). -/
def Chan.stateWord (c : Chan) : Word :=
  0#3 ++ BitVec.ofNat 13 c.buf.length ++ 0#14 ++ c.st.bits

end Sys2Proof.Machine
end

