-- ==== Sys2Proof/Machine/HostCommands.lean ====
section
/-! DEFINITION. The host commands (R260 to R272), each one atomic step in every run state; the three CRC commands are in
Crc.lean. -/

namespace Sys2Proof.Machine

/-- WR.CTRL: SRST = data[0] resets the instance (R262). -/
def execWrCtrl (data : Word) (s : State) : Host.Outcome State Fault Refusal :=
  .next (if data.getLsbD 0 then s.resetAll else s)

/-- RD.STATUS (R263). -/
def execRdStatus (_data : Word) (s : State) : Host.Outcome State Fault Refusal :=
  .next (s.respond s.statusWord)

/-- RD.FRAME_CNT (R264). -/
def execRdFrameCnt (_data : Word) (s : State) : Host.Outcome State Fault Refusal :=
  .next (s.respond s.frameCnt)

/-- RD.FAULT_INFO (R265). -/
def execRdFaultInfo (_data : Word) (s : State) : Host.Outcome State Fault Refusal :=
  .next (s.respond s.faultFrame)

/-- RD.FAULT_PID (R266). -/
def execRdFaultPid (_data : Word) (s : State) : Host.Outcome State Fault Refusal :=
  .next (s.respond (s.faultPid.setWidth 32))

/-- WR.CH_SEL: `ch_sel <- data[12:0]` (R267). -/
def execWrChSel (data : Word) (s : State) : Host.Outcome State Fault Refusal :=
  .next { s with chSel := data.extractLsb' 0 13 }

/-- RD.CH_SEL (R270). -/
def execRdChSel (_data : Word) (s : State) : Host.Outcome State Fault Refusal :=
  .next (s.respond (s.chSel.setWidth 32))

/-- WR.CH_MODE: mode[ch_sel] from data[1:0], 3 as 0, and ch[ch_sel] reset on every write (R268). -/
def execWrChMode (data : Word) (s : State) : Host.Outcome State Fault Refusal :=
  .next ((s.setMode s.chSel (Mode.ofBits (data.extractLsb' 0 2))).resetChan s.chSel)

/-- RD.CH_MODE (R271). -/
def execRdChMode (_data : Word) (s : State) : Host.Outcome State Fault Refusal :=
  .next (s.respond ((s.modeOf s.chSel).bits.setWidth 32))

/-- WR.CH_CMD: CH_RST = data[0] resets ch[ch_sel] and keeps its mode (R269). -/
def execWrChCmd (data : Word) (s : State) : Host.Outcome State Fault Refusal :=
  .next (if data.getLsbD 0 then s.resetChan s.chSel else s)

/-- RD.CH_STATE (R272). -/
def execRdChState (_data : Word) (s : State) : Host.Outcome State Fault Refusal :=
  .next (s.respond (s.chan s.chSel).stateWord)

end Sys2Proof.Machine
end

