-- ==== Sys2Proof/Decode.lean ====
section
/-! DEFINITION. The decoder of each format (R80 to R92), total on every word and rejecting by name, and after it the
encoder, written from the same tables of spec/30_encoding.md. -/

namespace Sys2Proof

/-! ## Decoding -/

/-- Format IN, a 9-bit stream symbol `{eos, data[7:0]}` (R90). -/
def decodeSymbol (w : BitVec 9) : Instr :=
  if w.getLsbD 8 then .inEos (w.extractLsb' 0 8) else .inByte (w.extractLsb' 0 8)

/-- The operand fields of the header word H (R81, whose bit positions the spec takes from general knowledge: PRESUMED,
log entry 9; unsafe). -/
def tsOperandsOf (h : Word) : TsOperands where
  tei  := h.getLsbD 23
  prio := h.getLsbD 21
  pid  := h.extractLsb' 8 13
  tsc  := h.extractLsb' 6 2
  cc   := h.extractLsb' 0 4

/-- Format TS, the header word `H = {FB[0], FB[1], FB[2], FB[3]}`: sync, pusi and afc select the class (R81, R83). -/
def decodeFrame (h : Word) : Instr :=
  if h.extractLsb' 24 8 = Config.sync then
    match h.getLsbD 5, h.getLsbD 4, h.getLsbD 22 with
    | false, false, false => .tsN (tsOperandsOf h)
    | false, false, true  => .tsNS (tsOperandsOf h)
    | false, true,  false => .tsP (tsOperandsOf h)
    | false, true,  true  => .tsPS (tsOperandsOf h)
    | true,  false, false => .tsA (tsOperandsOf h)
    | true,  false, true  => .tsAS (tsOperandsOf h)
    | true,  true,  false => .tsAP (tsOperandsOf h)
    | true,  true,  true  => .tsAPS (tsOperandsOf h)
  else .tsBad (h.extractLsb' 24 8) (h.extractLsb' 0 24)

/-- Format SEC, `W3 = {buf[0], buf[1], buf[2]}` at the front of a SEC channel buffer (R86). -/
def decodeSection (w : BitVec 24) : Instr :=
  if w.extractLsb' 16 8 = Config.stuff then .secStuff
  else .secUnit (w.extractLsb' 16 8) (w.extractLsb' 12 4) (w.extractLsb' 0 12)

/-- The fields of the PES prefix `P9 = {buf[0], ..., buf[8]}` (R87). -/
def pesPrefixOf (w : BitVec 72) : PesPrefix where
  startCode      := w.extractLsb' 48 24
  streamId       := w.extractLsb' 40 8
  packetLength   := w.extractLsb' 24 16
  ignoredSixHigh := w.extractLsb' 19 5
  dataAlignment  := w.getLsbD 18
  ignoredSixLow  := w.extractLsb' 16 2
  ptsDtsFlags    := w.extractLsb' 14 2
  ignoredSeven   := w.extractLsb' 8 6
  headerDataLen  := w.extractLsb' 0 8

/-- Format PES: buf[7][7] says whether a timestamp is present (R92). -/
def decodePes (w : BitVec 72) : Instr :=
  if w.getLsbD 15 then .pesHdrPts (pesPrefixOf w) else .pesHdrNopts (pesPrefixOf w)

/-- Format REG, `{rw, addr[7:0], data[31:0]}` (R91). A pair (rw, addr) outside the fourteen is no operation: it reads 0
or writes nothing (R32, R45). -/
def decodeCommand (w : BitVec 41) : Except Reject Instr :=
  match w.getLsbD 40, (w.extractLsb' 32 8).toNat with
  | true,  0x00 => .ok (.wrCtrl (w.extractLsb' 0 32))
  | false, 0x04 => .ok (.rdStatus (w.extractLsb' 0 32))
  | false, 0x08 => .ok (.rdFrameCnt (w.extractLsb' 0 32))
  | false, 0x0C => .ok (.rdFaultInfo (w.extractLsb' 0 32))
  | false, 0x10 => .ok (.rdFaultPid (w.extractLsb' 0 32))
  | true,  0x14 => .ok (.wrChSel (w.extractLsb' 0 32))
  | false, 0x14 => .ok (.rdChSel (w.extractLsb' 0 32))
  | true,  0x18 => .ok (.wrChMode (w.extractLsb' 0 32))
  | false, 0x18 => .ok (.rdChMode (w.extractLsb' 0 32))
  | true,  0x1C => .ok (.wrChCmd (w.extractLsb' 0 32))
  | false, 0x20 => .ok (.rdChState (w.extractLsb' 0 32))
  | true,  0x24 => .ok (.wrCrcInit (w.extractLsb' 0 32))
  | true,  0x28 => .ok (.wrCrcData (w.extractLsb' 0 32))
  | false, 0x2C => .ok (.rdCrcValue (w.extractLsb' 0 32))
  | true,  _    => .error (.noWritableRegister (w.extractLsb' 32 8))
  | false, _    => .error (.noReadableRegister (w.extractLsb' 32 8))

/-- The decoder over all formats. The widths of the six table formats differ, so the number of bits names the format:
9 (16 in whole bytes) IN, 32 TS, 24 SEC, 8 the first byte of a SEC buffer, 72 PES, 41 (48 in whole bytes) REG. The
8-bit row SEC.STUFF is the front byte of a section buffer; the two bytes after it are operand bytes of zero (DESIGN
CHOICE, log entry 10; safe). -/
def decodeWord (nbits w : Nat) : Except Reject Instr :=
  match nbits with
  | 8  => if w < 2 ^ 8  then .ok (decodeSection (BitVec.ofNat 8 w ++ 0#16)) else .error (.bitsAboveFormat 8)
  | 9  => if w < 2 ^ 9  then .ok (decodeSymbol (BitVec.ofNat 9 w))    else .error (.bitsAboveFormat 9)
  | 16 => if w < 2 ^ 9  then .ok (decodeSymbol (BitVec.ofNat 9 w))    else .error (.bitsAboveFormat 9)
  | 24 => if w < 2 ^ 24 then .ok (decodeSection (BitVec.ofNat 24 w))  else .error (.bitsAboveFormat 24)
  | 32 => if w < 2 ^ 32 then .ok (decodeFrame (BitVec.ofNat 32 w))    else .error (.bitsAboveFormat 32)
  | 41 => if w < 2 ^ 41 then decodeCommand (BitVec.ofNat 41 w)        else .error (.bitsAboveFormat 41)
  | 48 => if w < 2 ^ 41 then decodeCommand (BitVec.ofNat 41 w)        else .error (.bitsAboveFormat 41)
  | 72 => if w < 2 ^ 72 then .ok (decodePes (BitVec.ofNat 72 w))      else .error (.bitsAboveFormat 72)
  | n  => .error (.noSuchFormat n)

/-- The instruction the decoder reads from a word numbered as spec/opcode_table.json numbers it. -/
def decodeTableWord (nbits w : Nat) : Option Instr :=
  match decodeWord nbits w with
  | .ok i => some i
  | .error _ => none

/-! ## Encoding -/

/-- A stream symbol (R90). -/
def encodeSymbol (eos : Bool) (data : Byte) : BitVec 9 := BitVec.ofBool eos ++ data

/-- The three bytes at the head of a section (R86). -/
def encodeSection (tableId : Byte) (ignored : BitVec 4) (len : BitVec 12) : BitVec 24 := tableId ++ ignored ++ len

/-- The header word of a frame class: the eight fields from the most significant bit down, afc as its two bits (R81). -/
def encodeFrame (af pl pusi : Bool) (o : TsOperands) : Word :=
  Config.sync ++ BitVec.ofBool o.tei ++ BitVec.ofBool pusi ++ BitVec.ofBool o.prio ++ o.pid ++ o.tsc ++
    BitVec.ofBool af ++ BitVec.ofBool pl ++ o.cc

/-- The nine bytes of the PES prefix, byte 0 most significant (R87). -/
def encodePes (h : PesPrefix) : BitVec 72 :=
  h.startCode ++ h.streamId ++ h.packetLength ++ h.ignoredSixHigh ++ BitVec.ofBool h.dataAlignment ++
    h.ignoredSixLow ++ h.ptsDtsFlags ++ h.ignoredSeven ++ h.headerDataLen

/-- A host command (R91). -/
def encodeCommand (rw : Bool) (addr : Byte) (data : Word) : BitVec 41 :=
  BitVec.ofBool rw ++ addr ++ data

/-- The word of an instruction as a number, bit 0 the least significant, of `Instr.width` bits. -/
def encode (i : Instr) : Nat :=
  match i with
  | .inByte b => (encodeSymbol false b).toNat
  | .inEos x => (encodeSymbol true x).toNat
  | .tsN o => (encodeFrame false false false o).toNat
  | .tsNS o => (encodeFrame false false true o).toNat
  | .tsP o => (encodeFrame false true false o).toNat
  | .tsPS o => (encodeFrame false true true o).toNat
  | .tsA o => (encodeFrame true false false o).toNat
  | .tsAS o => (encodeFrame true false true o).toNat
  | .tsAP o => (encodeFrame true true false o).toNat
  | .tsAPS o => (encodeFrame true true true o).toNat
  | .tsBad sync x => (sync ++ x : BitVec 32).toNat
  | .secUnit tableId x len => (encodeSection tableId x len).toNat
  | .secStuff => Config.stuff.toNat
  | .pesHdrPts h => (encodePes h).toNat
  | .pesHdrNopts h => (encodePes h).toNat
  | .wrCtrl d => (encodeCommand true 0x00#8 d).toNat
  | .rdStatus d => (encodeCommand false 0x04#8 d).toNat
  | .rdFrameCnt d => (encodeCommand false 0x08#8 d).toNat
  | .rdFaultInfo d => (encodeCommand false 0x0C#8 d).toNat
  | .rdFaultPid d => (encodeCommand false 0x10#8 d).toNat
  | .wrChSel d => (encodeCommand true 0x14#8 d).toNat
  | .rdChSel d => (encodeCommand false 0x14#8 d).toNat
  | .wrChMode d => (encodeCommand true 0x18#8 d).toNat
  | .rdChMode d => (encodeCommand false 0x18#8 d).toNat
  | .wrChCmd d => (encodeCommand true 0x1C#8 d).toNat
  | .rdChState d => (encodeCommand false 0x20#8 d).toNat
  | .wrCrcInit d => (encodeCommand true 0x24#8 d).toNat
  | .wrCrcData d => (encodeCommand true 0x28#8 d).toNat
  | .rdCrcValue d => (encodeCommand false 0x2C#8 d).toNat

end Sys2Proof
end

