-- ==== Sys2Proof/Machine/Operands.lean ====
section
/-! DEFINITION. How operands are cut from the frame buffer and from a channel buffer: the only computed offsets are the
payload location, the pointer field and the self-declared lengths (R70, R89, R97). -/

namespace Sys2Proof.Machine

/-! ## Byte sequences (R9, R10) -/

/-- `s[i]`; the rules read it only at i < len(s). -/
def byteAt (s : List Byte) (i : Nat) : Byte := s.getD i 0#8

/-! ## The frame (R81 to R84) -/

/-- `H = {FB[0], FB[1], FB[2], FB[3]}` (R81). -/
def headerWord (fb : Memory) : Word := fb.read 0 ++ fb.read 1 ++ fb.read 2 ++ fb.read 3

/-- The PID of the frame that FB holds (R161). -/
def framePid (fb : Memory) : Pid := (tsOperandsOf (headerWord fb)).pid

/-- The body of a frame: its adaptation field and its payload (R82). -/
structure FrameBody where
  afPresent : Bool
  afLen     : Byte
  af        : List Byte
  payload   : List Byte
  deriving DecidableEq, Repr

/-- The payload offset: 4 without an adaptation field, 5 + FB[4] with one (R70). -/
def payloadOffset (af : Bool) (fb : Memory) : Nat := if af then 5 + (fb.read 4).toNat else 4

/-- Adaptation-field skip and payload (R160, R162, R164); `none` when the field does not fit in the frame (R163). That
afc[1] means a field and afc[0] a payload is R82's, from general knowledge: PRESUMED, log entry 9; unsafe. -/
def frameBody (af pl : Bool) (fb : Memory) : Option FrameBody :=
  if payloadOffset af fb > Config.frameLen then none
  else some
    { afPresent := af
      afLen     := if af then fb.read 4 else 0#8
      af        := if af then fb.readBytes 5 (fb.read 4).toNat else []
      payload   := if pl then fb.readBytes (payloadOffset af fb) (Config.frameLen - payloadOffset af fb) else [] }

/-! ## Section fields (R86) -/

/-- `W3 = {buf[0], buf[1], buf[2]}`. -/
def sectionWord (b : List Byte) : BitVec 24 := byteAt b 0 ++ byteAt b 1 ++ byteAt b 2

/-- `section_length = {buf[1][3:0], buf[2]}`, 12 bits. -/
def sectionLength (b : List Byte) : BitVec 12 := (sectionWord b).extractLsb' 0 12

/-- The whole-section length W = section_length + 3, 3 to 4098 (R89). -/
def wholeLength (len : BitVec 12) : Nat := len.toNat + 3

/-! ## PES fields (R87, R88) -/

/-- `P9 = {buf[0], ..., buf[8]}`. -/
def prefixWord (b : List Byte) : BitVec 72 :=
  byteAt b 0 ++ byteAt b 1 ++ byteAt b 2 ++ byteAt b 3 ++ byteAt b 4 ++ byteAt b 5 ++ byteAt b 6 ++ byteAt b 7 ++
    byteAt b 8

/-- The whole header length 9 + header_data_length, 9 to 264 (R89). -/
def pesHeaderLength (headerDataLen : Byte) : Nat := Config.pesPrefixLen + headerDataLen.toNat

/-- PTS assembly: `((b0 & 0x0E) << 29) | (b1 << 22) | ((b2 & 0xFE) << 14) | (b3 << 7) | (b4 >> 1)` in 33 bits (R233). -/
def ptsOf (b0 b1 b2 b3 b4 : Byte) : Pts :=
  ((b0 &&& 0x0E#8).setWidth 33 <<< 29) ||| (b1.setWidth 33 <<< 22) ||| ((b2 &&& 0xFE#8).setWidth 33 <<< 14) |||
    (b3.setWidth 33 <<< 7) ||| (b4.setWidth 33 >>> 1)

/-- The timestamp at buffer offsets 9 to 13 (R88). -/
def bufferPts (b : List Byte) : Pts := ptsOf (byteAt b 9) (byteAt b 10) (byteAt b 11) (byteAt b 12) (byteAt b 13)

end Sys2Proof.Machine
end

