-- ==== Sys2Proof/Machine/Pes.lean ====
section
/-! DEFINITION. The PES unit (R220 to R238): the header parser of a channel, and the meanings of PES.HDR.PTS and
PES.HDR.NOPTS, which the decode attempt runs inside a frame step. -/

namespace Sys2Proof.Machine

/-- A delivery of payload bytes; zero bytes give no event (R228, R231, D17). -/
def pesDelivery (p : Pid) (data : List Byte) : List Event :=
  if data.length > 0 then [.pesData p data] else []

/-- The end of a header decode: the `PES_HDR` event, HeaderParsed, and the bytes beyond the header as data (R231). -/
def pesHeaderDone (p : Pid) (h : PesPrefix) (ptsValid : Bool) (pts : Pts) (c : Chan) : Chan × List Event :=
  (⟨.headerParsed, []⟩,
    .pesHdr
      { pid := p, startCode := h.startCode, streamId := h.streamId, packetLength := h.packetLength,
        dataAlignment := h.dataAlignment, ptsDtsFlags := h.ptsDtsFlags, headerDataLen := h.headerDataLen,
        ptsValid := ptsValid, pts := pts } ::
      pesDelivery p (c.buf.drop (pesHeaderLength h.headerDataLen)))

/-- PES.HDR.PTS on a channel record: PtsOverrun when the five timestamp bytes are not there (R231, R235). -/
def pesHdrPts (p : Pid) (h : PesPrefix) (c : Chan) : ChanResult :=
  if c.buf.length < Config.ptsEnd then .error .ptsOverrun
  else .ok (pesHeaderDone p h true (bufferPts c.buf) c)

/-- PES.HDR.NOPTS on a channel record: pts_valid = 0 and pts = 0 (R231, R50). -/
def pesHdrNopts (p : Pid) (h : PesPrefix) (c : Chan) : ChanResult :=
  .ok (pesHeaderDone p h false 0#33 c)

/-- `TryDecode(p)`: nothing while the prefix or the header is incomplete (R230), else the decode that buf[7][7]
selects (R92, R231). -/
def tryDecode (p : Pid) (c : Chan) : ChanResult :=
  if c.buf.length < Config.pesPrefixLen then .ok (c, [])
  else if c.buf.length < pesHeaderLength (byteAt c.buf 8) then .ok (c, [])
  else if (byteAt c.buf 7).getLsbD 7 then pesHdrPts p (pesPrefixOf (prefixWord c.buf)) c
  else pesHdrNopts p (pesPrefixOf (prefixWord c.buf)) c

/-- `PesSubmit(p, pusi, payload)`, the channel stage of a PES channel (R221). -/
def pesSubmit (p : Pid) (pusi : Bool) (payload : List Byte) (c : Chan) : ChanResult :=
  if c.st = .headerParsed then .ok (c, pesDelivery p payload)
  else if pusi then tryDecode p ⟨.started, payload⟩
  else if c.st = .started then tryDecode p ⟨c.st, c.buf ++ payload⟩
  else .ok (c, [])

/-- A header decode is selected for the channel of the frame in FB while that frame is executed: the PID is routed to
PES, the channel is Started and its buffer holds the whole header (R92, R230). Elsewhere it has no effect; the length and
the fields are those of its operand, whatever the front of the buffer is (DESIGN CHOICE, log entry 5; safe). -/
def pesSelected (h : PesPrefix) (s : State) : Bool :=
  s.modeOf (framePid s.fb) = .pes && (s.chan (framePid s.fb)).st = .started &&
    pesHeaderLength h.headerDataLen ≤ (s.chan (framePid s.fb)).buf.length

/-- PES.HDR.PTS (R231, R235). -/
def execPesHdrPts (h : PesPrefix) (s : State) : Host.Outcome State Fault Refusal :=
  s.whenRunning
    (if pesSelected h s then
      s.commitChan (framePid s.fb) (pesHdrPts (framePid s.fb) h (s.chan (framePid s.fb)))
    else s)

/-- PES.HDR.NOPTS (R231). -/
def execPesHdrNopts (h : PesPrefix) (s : State) : Host.Outcome State Fault Refusal :=
  s.whenRunning
    (if pesSelected h s then
      s.commitChan (framePid s.fb) (pesHdrNopts (framePid s.fb) h (s.chan (framePid s.fb)))
    else s)

end Sys2Proof.Machine
end

