-- ==== Sys2Proof/Machine/Section.lean ====
section
/-! DEFINITION. The SEC unit (R190 to R207): the section reassembler of a channel, and the meanings of SEC.UNIT and
SEC.STUFF, which the drain loop runs inside a frame step. -/

namespace Sys2Proof.Machine

/-- SEC.UNIT on a channel record: the W bytes at the front leave as one `SECTION` event (R198). -/
def secUnit (p : Pid) (len : BitVec 12) (c : Chan) : Chan × Event :=
  (⟨c.st, c.buf.drop (wholeLength len)⟩, .sectionDone p (c.buf.take (wholeLength len)))

/-- SEC.STUFF on a channel record: NotStarted, the remainder discarded, no event (R199). -/
def secStuff (_c : Chan) : Chan := ⟨.notStarted, []⟩

/-- The drain loop (R198). Each turn that goes on removes at least 3 bytes, so as many turns as the buffer has bytes
are enough. -/
def drainTurns (p : Pid) : Nat → Chan → Chan × List Event
  | 0, c => (c, [])
  | n + 1, c =>
    if c.buf.length = 0 then (c, [])
    else if byteAt c.buf 0 = Config.stuff then (secStuff c, [])
    else if c.buf.length < Config.secHdrMin then (c, [])
    else if c.buf.length < wholeLength (sectionLength c.buf) then (c, [])
    else
      let r := drainTurns p n (secUnit p (sectionLength c.buf) c).1
      (r.1, (secUnit p (sectionLength c.buf) c).2 :: r.2)

/-- `Drain(p)` (R198). -/
def drain (p : Pid) (c : Chan) : Chan × List Event := drainTurns p c.buf.length c

/-- `SecSubmit(p, pusi, payload)`, the channel stage of a SEC channel (R191). -/
def secSubmit (p : Pid) (pusi : Bool) (payload : List Byte) (c : Chan) : ChanResult :=
  if pusi then
    if payload.length = 0 then .error .pointerOverrun
    else if (byteAt payload 0).toNat + 1 > payload.length then .error .pointerOverrun
    else .ok (drain p ⟨.started, payload.drop ((byteAt payload 0).toNat + 1)⟩)
  else if c.st = .started then .ok (drain p ⟨c.st, c.buf ++ payload⟩)
  else .ok (c, [])

/-- A section decode is selected for the channel of the frame in FB while that frame is executed: the PID is routed to
SEC and the channel is Accumulating (R92, R191). Off such a channel it has no effect (DESIGN CHOICE, log entry 5;
safe). -/
def secSelected (s : State) : Bool :=
  s.modeOf (framePid s.fb) = .sec && (s.chan (framePid s.fb)).st = .started

/-- SEC.UNIT: one turn of the drain; a buffer shorter than the section waits (R198). W is that of its operand, whatever
the front of the buffer is (DESIGN CHOICE, log entry 5; safe). -/
def execSecUnit (_tableId : Byte) (_ignored : BitVec 4) (len : BitVec 12) (s : State) :
    Host.Outcome State Fault Refusal :=
  s.whenRunning
    (if secSelected s && wholeLength len ≤ (s.chan (framePid s.fb)).buf.length then
      s.commitChan (framePid s.fb)
        (.ok ((secUnit (framePid s.fb) len (s.chan (framePid s.fb))).1,
          [(secUnit (framePid s.fb) len (s.chan (framePid s.fb))).2]))
    else s)

/-- SEC.STUFF: the last turn of the drain (R199). Its effect is the same for every buffer: executed directly on an
Accumulating channel whose buffer is empty or does not begin with 0xFF, where the drain would not select it, it clears
the channel all the same (DESIGN CHOICE, log entry 5; safe). -/
def execSecStuff (s : State) : Host.Outcome State Fault Refusal :=
  s.whenRunning
    (if secSelected s then
      s.commitChan (framePid s.fb) (.ok (secStuff (s.chan (framePid s.fb)), []))
    else s)

end Sys2Proof.Machine
end

