-- ==== Sys2Proof/Machine/Packet.lean ====
section
/-! DEFINITION. The frame-level half of FRM (R160 to R178): the shared step of the eight packet classes, the meanings of
the nine frame classes, and the frame step that runs one of them when the 188th byte has been stored. -/

namespace Sys2Proof.Machine

/-- Routing: the payload goes to the reassembler that mode[pid] names, or to none (R166). -/
def channelStage (m : Mode) (p : Pid) (pusi : Bool) (payload : List Byte) (c : Chan) : ChanResult :=
  match m with
  | .off => .ok (c, [])
  | .sec => secSubmit p pusi payload c
  | .pes => pesSubmit p pusi payload c

/-- The `PKT` event of a frame (R160, R165). -/
def packetOf (af pl pusi : Bool) (o : TsOperands) (body : FrameBody) (s : State) : Packet :=
  { frame := s.frameCnt, tei := o.tei, pusi := pusi, prio := o.prio, pid := o.pid, tsc := o.tsc,
    afc := BitVec.ofBool af ++ BitVec.ofBool pl, cc := o.cc,
    afPresent := body.afPresent, afLen := body.afLen, af := body.af, payload := body.payload,
    raw := s.fb.readBytes 0 Config.frameLen }

/-- A channel fault ends the step; otherwise frame_cnt advances as the last action (R160, R167). -/
def finishFrame (s : State) (p : Pid) (r : ChanResult) : State :=
  match r with
  | .error code => s.commitChan p (.error code)
  | .ok ce => (s.commitChan p (.ok ce)).countFrame

/-- FrameStep after sync detection, with the header fields as operands (R160). Executed directly where no frame step runs
it, with byte_cnt not 0 or with operands that the header word in FB does not decode to, it is the same step: the header
fields are the operands, the body and `raw` the bytes of FB (DESIGN CHOICE, log entry 14; safe). -/
def packetStep (af pl pusi : Bool) (o : TsOperands) (s : State) : State :=
  match frameBody af pl s.fb with
  | none => s.raiseFault .adaptationOverrun o.pid
  | some body =>
    finishFrame (s.emit [.pkt (packetOf af pl pusi o body s)]) o.pid
      (channelStage (s.modeOf o.pid) o.pid pusi body.payload (s.chan o.pid))

/-- TS.N (R176). -/
def execTsN (o : TsOperands) (s : State) : Host.Outcome State Fault Refusal :=
  s.whenRunning (packetStep false false false o s)

/-- TS.N.S (R177). -/
def execTsNS (o : TsOperands) (s : State) : Host.Outcome State Fault Refusal :=
  s.whenRunning (packetStep false false true o s)

/-- TS.P (R170). -/
def execTsP (o : TsOperands) (s : State) : Host.Outcome State Fault Refusal :=
  s.whenRunning (packetStep false true false o s)

/-- TS.P.S (R171). -/
def execTsPS (o : TsOperands) (s : State) : Host.Outcome State Fault Refusal :=
  s.whenRunning (packetStep false true true o s)

/-- TS.A (R174). -/
def execTsA (o : TsOperands) (s : State) : Host.Outcome State Fault Refusal :=
  s.whenRunning (packetStep true false false o s)

/-- TS.A.S (R175). -/
def execTsAS (o : TsOperands) (s : State) : Host.Outcome State Fault Refusal :=
  s.whenRunning (packetStep true false true o s)

/-- TS.AP (R172). -/
def execTsAP (o : TsOperands) (s : State) : Host.Outcome State Fault Refusal :=
  s.whenRunning (packetStep true true false o s)

/-- TS.AP.S (R173). -/
def execTsAPS (o : TsOperands) (s : State) : Host.Outcome State Fault Refusal :=
  s.whenRunning (packetStep true true true o s)

/-- TS.BAD: FramingError with pid 0, the header not decoded (R178, R331). Executed directly it looks neither at byte_cnt
nor at FB[0] (DESIGN CHOICE, log entry 14; safe). -/
def execTsBad (_sync : Byte) (_ignored : BitVec 24) (s : State) : Host.Outcome State Fault Refusal :=
  s.whenRunning (s.raiseFault .framingError 0#13)

/-- FrameStep: the class of the header word in FB is executed, sync detection first (R160, R83). -/
def frameStep (s : State) : Host.Outcome State Fault Refusal :=
  let h := headerWord s.fb
  if h.extractLsb' 24 8 = Config.sync then
    match h.getLsbD 5, h.getLsbD 4, h.getLsbD 22 with
    | false, false, false => execTsN (tsOperandsOf h) s
    | false, false, true  => execTsNS (tsOperandsOf h) s
    | false, true,  false => execTsP (tsOperandsOf h) s
    | false, true,  true  => execTsPS (tsOperandsOf h) s
    | true,  false, false => execTsA (tsOperandsOf h) s
    | true,  false, true  => execTsAS (tsOperandsOf h) s
    | true,  true,  false => execTsAP (tsOperandsOf h) s
    | true,  true,  true  => execTsAPS (tsOperandsOf h) s
  else execTsBad (h.extractLsb' 24 8) (h.extractLsb' 0 24) s

end Sys2Proof.Machine
end

