-- ==== Sys2Proof/Machine/StreamInput.lean ====
section
/-! DEFINITION. The byte-level half of FRM (R140 to R147): IN.BYTE and IN.EOS. -/

namespace Sys2Proof.Machine

/-- IN.BYTE: discarded outside RUN (R144); otherwise the byte is stored, and the 188th byte of a frame runs the frame
step with byte_cnt already back at 0 (R141). -/
def execInByte (b : Byte) (s : State) : Host.Outcome State Fault Refusal :=
  if s.run = .run then
    if s.byteCnt.val < 187 then .next (s.storeByte b) else frameStep (s.storeByte b)
  else .next s

/-- IN.EOS: `END` with the residual, run = DONE, everything else kept; the data bits are ignored (R146). -/
def execInEos (_ignored : BitVec 8) (s : State) : Host.Outcome State Fault Refusal :=
  s.whenRunning { s.emit [.endOfStream (BitVec.ofNat 8 s.byteCnt.val)] with run := .done }

end Sys2Proof.Machine
end

