-- ==== Sys2Proof/Machine/Dispatch.lean ====
section
/-! DEFINITION. The meaning of each operation of spec/opcode_table.json, one arm a row. -/

namespace Sys2Proof.Machine

def exec (i : Instr) (s : State) : Host.Outcome State Fault Refusal :=
  match i with
  -- stream symbols
  | .inByte b => Sys2Proof.Machine.execInByte b s
  | .inEos ignored => Sys2Proof.Machine.execInEos ignored s
  -- frame classes
  | .tsN o => Sys2Proof.Machine.execTsN o s
  | .tsNS o => Sys2Proof.Machine.execTsNS o s
  | .tsP o => Sys2Proof.Machine.execTsP o s
  | .tsPS o => Sys2Proof.Machine.execTsPS o s
  | .tsA o => Sys2Proof.Machine.execTsA o s
  | .tsAS o => Sys2Proof.Machine.execTsAS o s
  | .tsAP o => Sys2Proof.Machine.execTsAP o s
  | .tsAPS o => Sys2Proof.Machine.execTsAPS o s
  | .tsBad sync ignored => Sys2Proof.Machine.execTsBad sync ignored s
  -- section and PES decodes
  | .secUnit tableId ignored len => Sys2Proof.Machine.execSecUnit tableId ignored len s
  | .secStuff => Sys2Proof.Machine.execSecStuff s
  | .pesHdrPts h => Sys2Proof.Machine.execPesHdrPts h s
  | .pesHdrNopts h => Sys2Proof.Machine.execPesHdrNopts h s
  -- host commands
  | .wrCtrl data => Sys2Proof.Machine.execWrCtrl data s
  | .rdStatus data => Sys2Proof.Machine.execRdStatus data s
  | .rdFrameCnt data => Sys2Proof.Machine.execRdFrameCnt data s
  | .rdFaultInfo data => Sys2Proof.Machine.execRdFaultInfo data s
  | .rdFaultPid data => Sys2Proof.Machine.execRdFaultPid data s
  | .wrChSel data => Sys2Proof.Machine.execWrChSel data s
  | .rdChSel data => Sys2Proof.Machine.execRdChSel data s
  | .wrChMode data => Sys2Proof.Machine.execWrChMode data s
  | .rdChMode data => Sys2Proof.Machine.execRdChMode data s
  | .wrChCmd data => Sys2Proof.Machine.execWrChCmd data s
  | .rdChState data => Sys2Proof.Machine.execRdChState data s
  | .wrCrcInit data => Sys2Proof.Machine.execWrCrcInit data s
  | .wrCrcData data => Sys2Proof.Machine.execWrCrcData data s
  | .rdCrcValue data => Sys2Proof.Machine.execRdCrcValue data s

end Sys2Proof.Machine
end

