-- ==== Sys2Proof/Machine/Assembler.lean ====
section
/-! DEFINITION. The written form of streams and commands (R98) and its pseudo-operations (R99): how the environment
builds the frames and port steps that it presents. TSFE itself executes only their expansions. -/

namespace Sys2Proof.Machine

/-- The twelve host registers (R32). -/
inductive Reg where
  | ctrl
  | status
  | frameCnt
  | faultInfo
  | faultPid
  | chSel
  | chMode
  | chCmd
  | chState
  | crcInit
  | crcData
  | crcValue
  deriving DecidableEq, Repr

/-- The byte address of a host register (R33 to R44). -/
def Reg.addr : Reg → Byte
  | .ctrl => 0x00#8
  | .status => 0x04#8
  | .frameCnt => 0x08#8
  | .faultInfo => 0x0C#8
  | .faultPid => 0x10#8
  | .chSel => 0x14#8
  | .chMode => 0x18#8
  | .chCmd => 0x1C#8
  | .chState => 0x20#8
  | .crcInit => 0x24#8
  | .crcData => 0x28#8
  | .crcValue => 0x2C#8

/-- `wr <REG> <value>` (R98). -/
def wr (r : Reg) (v : Word) : PortStep := .command (encodeCommand true r.addr v)

/-- `rd <REG>` (R98). -/
def rd (r : Reg) : PortStep := .command (encodeCommand false r.addr 0#32)

/-- `raw <bytes>`: one `IN.BYTE` for each byte (R98). -/
def rawSteps (bs : List Byte) : List PortStep := bs.map fun b => .input (encodeSymbol false b)

/-- `eos` (R98). -/
def eos : PortStep := .input (encodeSymbol true 0#8)

/-- A word as four bytes, the most significant first (R61). -/
def wordBytes (w : Word) : List Byte :=
  [w.extractLsb' 24 8, w.extractLsb' 16 8, w.extractLsb' 8 8, w.extractLsb' 0 8]

/-- `ts.<class> ...`: one frame of a class, its remaining bytes filled (R98). `af` is the list of adaptation field bytes
when the class has one, `pay` the list of payload bytes when it has one. R98 gives no frame to a line whose bytes do not
fit in 188: there FB[4] is the number of `af` bytes modulo 256, and a list longer than 188 bytes is no frame but so many
bytes of the stream (DESIGN CHOICE, log entry 13; safe). -/
def tsFrame (af pay : Option (List Byte)) (pusi : Bool) (o : TsOperands) (fill : Byte) : List Byte :=
  let head := wordBytes (encodeFrame af.isSome pay.isSome pusi o)
  let field := match af with
    | none => []
    | some bs => BitVec.ofNat 8 bs.length :: bs
  let front := head ++ field ++ pay.getD []
  front ++ List.replicate (Config.frameLen - front.length) fill

/-- `route <pid> <mode>` (R99). -/
def route (p : Pid) (m : Mode) : List PortStep := [wr .chSel (p.setWidth 32), wr .chMode (m.bits.setWidth 32)]

/-- `rearm <pid>` (R99). -/
def rearm (p : Pid) : List PortStep := [wr .chSel (p.setWidth 32), wr .chCmd 1#32]

/-- `reset` (R99). -/
def resetCommand : List PortStep := [wr .ctrl 1#32]

/-- `crc32 <bytes>` (R99). -/
def crcSteps (bs : List Byte) : List PortStep :=
  wr .crcInit 0#32 :: bs.map (fun b => wr .crcData (b.setWidth 32)) ++ [rd .crcValue]

/-- `chstate <pid>` (R99). -/
def chstate (p : Pid) : List PortStep := [wr .chSel (p.setWidth 32), rd .chState]

end Sys2Proof.Machine
end

