-- ==== Sys2Proof/Machine/Fetch.lean ====
section
/-! DEFINITION. How the next step is taken from the ports (R11, R71, R90, R91), and how a word of the opcode table is
placed so that the next step runs it. -/

namespace Sys2Proof.Machine

/-- What the environment presents next. -/
inductive Fetched where
  /-- no symbol and no command: TSFE does nothing (R143, R348; DEDUCED, log entry 6; safe) -/
  | idle
  /-- the reset input (R360) -/
  | reset
  /-- an operation of the table -/
  | operation (i : Instr)
  /-- a register access that is no operation (R45) -/
  | noOperation (r : Reject)
  deriving DecidableEq, Repr

/-- The oldest step still pending, decoded. -/
def State.fetch (s : State) : Fetched :=
  match s.pending with
  | [] => .idle
  | .resetPin :: _ => .reset
  | .input w :: _ => .operation (decodeSymbol w)
  | .command w :: _ =>
    match decodeCommand w with
    | .ok i => .operation i
    | .error r => .noOperation r

/-- The oldest pending step is taken: a byte of IN is delivered once (R67). -/
def State.consume (s : State) : State := { s with pending := s.pending.tail }

/-! ## Placing a word of the table

A frame class runs on the `IN.BYTE` that completes its frame, and a section or PES decode inside such a frame (R92), so
for these rows the frame but for its last byte stands in FB and that byte is presented next (DESIGN CHOICE, log
entry 4; safe). -/

/-- The state in which all but the last byte of a frame stand in FB and the last one is next. -/
def State.placeFrame (s : State) (fb : Memory) (last : Byte) : State :=
  { s with
    run := .run, faultCode := none, faultFrame := 0#32, faultPid := 0#13
    fb := fb, byteCnt := 187
    pending := .input (encodeSymbol false last) :: s.pending }

/-- A unit of a channel. Its last bytes, `tailLen` = 14 at most, are the payload of the TS.AP frame of PID 0 that is
being completed, behind an adaptation field of zeros; the bytes before them are in the buffer of PID 0. -/
def State.placeUnit (s : State) (m : Mode) (unit : List Byte) : State :=
  let tailLen := min 14 unit.length
  let front := unit.take (unit.length - tailLen)
  let tail := unit.drop (unit.length - tailLen)
  let head := wordBytes (encodeFrame true true false ⟨false, false, 0#13, 0#2, 0#4⟩) ++ [BitVec.ofNat 8 (183 - tailLen)]
  ((s.setMode 0#13 m).setChan 0#13 ⟨.started, front⟩).placeFrame
    (Memory.ofBytes 0 head ++ Memory.ofBytes (188 - tailLen) tail.dropLast) (byteAt tail (tailLen - 1))

/-- The bytes of the section that a word W3 begins, its body zero; the stuffing marker alone. -/
def sectionUnit (w : BitVec 24) : List Byte :=
  if w.extractLsb' 16 8 = Config.stuff then [Config.stuff]
  else [w.extractLsb' 16 8, w.extractLsb' 8 8, w.extractLsb' 0 8] ++
    List.replicate (w.extractLsb' 0 12).toNat 0#8

/-- The bytes of the PES header that a word P9 begins, the bytes after the prefix zero, the five timestamp bytes of a
header that flags one among them. -/
def pesUnit (w : BitVec 72) : List Byte :=
  (List.range 9).map (fun i => w.extractLsb' (8 * (8 - i)) 8) ++
    List.replicate (max (w.extractLsb' 0 8).toNat (if w.getLsbD 15 then 5 else 0)) 0#8

/-- The state in which the next step runs the instruction that `decodeTableWord nbits w` gives. -/
def State.placeWord (s : State) (nbits w : Nat) : State :=
  match nbits with
  | 8  => s.placeUnit .sec (sectionUnit (BitVec.ofNat 8 w ++ 0#16))
  | 9  => { s with pending := .input (BitVec.ofNat 9 w) :: s.pending }
  | 16 => { s with pending := .input (BitVec.ofNat 9 w) :: s.pending }
  | 24 => s.placeUnit .sec (sectionUnit (BitVec.ofNat 24 w))
  | 32 => s.placeFrame (Memory.ofBytes 0 (wordBytes (BitVec.ofNat 32 w))) 0#8
  | 41 => { s with pending := .command (BitVec.ofNat 41 w) :: s.pending }
  | 48 => { s with pending := .command (BitVec.ofNat 41 w) :: s.pending }
  | 72 => s.placeUnit .pes (pesUnit (BitVec.ofNat 72 w))
  | _  => s

end Sys2Proof.Machine
end

