-- ==== Sys2Proof/Machine/Step.lean ====
section
/-! DEFINITION. One step: one IN symbol, one CMD command or one reset, taken in the total order in which the environment
presents them (R11, R71). -/

namespace Sys2Proof.Machine

/-- The step of TSFE (R11). -/
def step (s : State) : Host.Outcome State Fault Refusal :=
  match s.fetch with
  | .idle => .next s
  | .reset => .next s.consume.resetAll
  | .operation i => exec i s.consume
  | .noOperation r => .next (s.consume.accessNothing r)

/-- `s` with the instruction of a table word placed where `step` takes its next one. -/
def State.withFetchWord (s : State) (nbits w : Nat) : State := s.placeWord nbits w

end Sys2Proof.Machine
end

