-- ==== Sys2Proof/Safety.lean ====
section
/-! DEFINITION. What counts as a good end of a run, and the invariant of the machine: the values that the rules say
never occur, as one predicate that every step keeps (R21, R22, R30, R31, R147, R206, R236). -/

namespace Sys2Proof.Machine

/-- The only final states: run = DONE (R147). -/
abbrev State.Final (s : State) : Prop := s.run = .done

/-- Terminal but not final: the run was aborted by a fault (R147, R341). -/
abbrev State.Aborted (s : State) : Prop := s.run = .fault

/-- A section buffer at the end of a step: empty, or not at a stuffing marker and too short to give a section (R206). -/
abbrev secWaiting (b : List Byte) : Prop :=
  b.length = 0 ∨
    (byteAt b 0 ≠ Config.stuff ∧ (b.length < Config.secHdrMin ∨ b.length < wholeLength (sectionLength b)))

/-- A header buffer at the end of a step: prefix or header incomplete (R236). -/
abbrev pesWaiting (b : List Byte) : Prop :=
  b.length < Config.pesPrefixLen ∨ b.length < pesHeaderLength (byteAt b 8)

/-- The channel records that a routing mode allows between steps (R30, R206, R236). -/
def Chan.Legal (m : Mode) (c : Chan) : Prop :=
  match m, c.st with
  | .off, .notStarted   => c.buf = []
  | .off, .started      => False
  | .off, .headerParsed => False
  | .sec, .notStarted   => c.buf = []
  | .sec, .started      => secWaiting c.buf
  | .sec, .headerParsed => False
  | .pes, .notStarted   => c.buf = []
  | .pes, .started      => pesWaiting c.buf
  | .pes, .headerParsed => c.buf = []

/-- The fault record against the run state (R22, R31, R263, R338). -/
structure State.FaultRecordOk (s : State) : Prop where
  /-- `run` = FAULT if and only if `fault_code` is non-zero (R31). -/
  fault_iff   : s.run = .fault ↔ s.faultCode ≠ none
  /-- Without a fault the record holds its reset values (R22, R54). -/
  no_fault    : s.faultCode = none → s.faultFrame = 0#32 ∧ s.faultPid = 0#13
  /-- The header of a frame with a bad sync byte is not decoded (R22). -/
  framing_pid : s.faultCode = some .framingError → s.faultPid = 0#13
  /-- A fault is raised at a frame boundary and frame_cnt is not advanced by it (R167, R263, R338). -/
  at_boundary : s.run = .fault → s.byteCnt = 0 ∧ s.faultFrame = s.frameCnt

/-- The invariant: FB and the two tables in canonical form and inside their address ranges, the fault record in step
with the run state, every channel record legal for its mode. -/
structure State.Inv (s : State) : Prop where
  fb_wf      : s.fb.wf = true
  fb_range   : ∀ e ∈ s.fb, e.1 < Config.frameLen
  mode_wf    : Table.wf .off s.mode = true
  mode_range : ∀ e ∈ s.mode, e.1 < Config.npid
  ch_wf      : Table.wf Chan.idle s.ch = true
  ch_range   : ∀ e ∈ s.ch, e.1 < Config.npid
  fault_ok   : s.FaultRecordOk
  chan_legal : ∀ p : Pid, (s.chan p).Legal (s.modeOf p)

/-- The field ranges that R48 to R53 give to each event. -/
def Event.Legal (e : Event) : Prop :=
  match e with
  | .pkt p =>
    p.raw.length = Config.frameLen ∧ p.raw.head? = some Config.sync ∧ p.payload.length ≤ 184 ∧
      p.af.length = p.afLen.toNat ∧ p.afLen.toNat ≤ 183 ∧ p.afPresent = p.afc.getLsbD 1 ∧
      (p.afPresent = false → p.afLen = 0#8) ∧ (p.afc.getLsbD 0 = false → p.payload = [])
  | .sectionDone _ d => byteAt d 0 ≠ Config.stuff ∧ d.length = wholeLength (sectionLength d)
  | .pesHdr h => h.ptsValid = h.ptsDtsFlags.getLsbD 1 ∧ (h.ptsValid = false → h.pts = 0#33)
  | .pesData _ d => 1 ≤ d.length ∧ d.length ≤ 184
  | .endOfStream r => r.toNat ≤ 187
  | .fault code _ pid => code = .framingError → pid = 0#13

end Sys2Proof.Machine
end

