-- ==== Sys2Proof/WellFormed.lean ====
section
/-! DEFINITION. Which terms of Instr stand for an operation of the table: four rows restrict an operand, the other
operands take every value (R83, R92, R161). -/

namespace Sys2Proof

/-- The conditions of the table's rows TS.BAD, SEC.UNIT, PES.HDR.PTS and PES.HDR.NOPTS. -/
def Instr.wf : Instr → Bool
  -- `(H & 0xFF000000) != 0x47000000`
  | .tsBad sync _ => sync != Config.sync
  -- `(W3 & 0xFF0000) != 0xFF0000`
  | .secUnit tableId _ _ => tableId != Config.stuff
  -- `buf[7][7] = 1 (pts_dts_flags = 2 or 3)`
  | .pesHdrPts h => h.ptsDtsFlags.getLsbD 1
  -- `buf[7][7] = 0 (pts_dts_flags = 0 or 1)`
  | .pesHdrNopts h => !h.ptsDtsFlags.getLsbD 1
  | .inByte _ => true
  | .inEos _ => true
  | .tsN _ => true
  | .tsNS _ => true
  | .tsP _ => true
  | .tsPS _ => true
  | .tsA _ => true
  | .tsAS _ => true
  | .tsAP _ => true
  | .tsAPS _ => true
  | .secStuff => true
  | .wrCtrl _ => true
  | .rdStatus _ => true
  | .rdFrameCnt _ => true
  | .rdFaultInfo _ => true
  | .rdFaultPid _ => true
  | .wrChSel _ => true
  | .rdChSel _ => true
  | .wrChMode _ => true
  | .rdChMode _ => true
  | .wrChCmd _ => true
  | .rdChState _ => true
  | .wrCrcInit _ => true
  | .wrCrcData _ => true
  | .rdCrcValue _ => true

end Sys2Proof
end

