-- ==== Sys2Proof/Certificates/Slice0/Obligations.lean ====
section
/-! DEFINITION. The statements for the provers. Each is `def Obligations.<Name> : Prop`; its docstring names the rules of
spec/ that it formalises. The definitions before them, under Sys2Proof.Statement, are the words they share. -/

namespace Sys2Proof.Statement

open Sys2Proof.Machine

/-- The packet class of the bits afc[1], afc[0] and pusi: TS.N, TS.N.S, TS.P, TS.P.S, TS.A, TS.A.S, TS.AP or TS.AP.S
(R83). The statements about it hold for every byte_cnt and every FB; where no frame step would run it, that is the model's
choice (log entry 14). -/
def frameInstr (af pl pusi : Bool) (o : TsOperands) : Instr :=
  match af, pl, pusi with
  | false, false, false => .tsN o
  | false, false, true  => .tsNS o
  | false, true,  false => .tsP o
  | false, true,  true  => .tsPS o
  | true,  false, false => .tsA o
  | true,  false, true  => .tsAS o
  | true,  true,  false => .tsAP o
  | true,  true,  true  => .tsAPS o

/-- Everything but the channel `p`, the run state, the fault record, frame_cnt and EV is as before: byte_cnt, crc,
ch_sel, every byte of FB, every mode, every other channel, and the ports. -/
def SameOutsideChannel (p : Pid) (s t : State) : Prop :=
  t.byteCnt = s.byteCnt ∧ t.crc = s.crc ∧ t.chSel = s.chSel ∧ t.pending = s.pending ∧ t.resp = s.resp ∧
    (∀ a, t.fb.read a = s.fb.read a) ∧ (∀ q, t.modeOf q = s.modeOf q) ∧ (∀ q, q ≠ p → t.chan q = s.chan q)

/-- A frame of PID `p` executed without a fault: the events `es` follow on EV, frame_cnt advances, the channel of `p`
becomes `c`, the run state and the fault record are as before, and so is everything else. -/
def FrameDone (p : Pid) (es : List Event) (c : Chan) (s t : State) : Prop :=
  t.ev = s.ev ++ es ∧ t.frameCnt = s.frameCnt + 1#32 ∧ t.chan p = c ∧ t.run = s.run ∧
    t.faultCode = s.faultCode ∧ t.faultFrame = s.faultFrame ∧ t.faultPid = s.faultPid ∧ SameOutsideChannel p s t

/-- A frame that entered the fault `code` after the events `es`: the fault record, run = FAULT and the `FAULT` event;
frame_cnt, every channel and everything else are as before. -/
def FrameFaulted (p : Pid) (es : List Event) (code : Cause) (faultPid : Pid) (s t : State) : Prop :=
  t.ev = s.ev ++ es ++ [.fault code s.frameCnt faultPid] ∧ t.frameCnt = s.frameCnt ∧ t.chan p = s.chan p ∧
    t.run = .fault ∧ t.faultCode = some code ∧ t.faultFrame = s.frameCnt ∧ t.faultPid = faultPid ∧
    SameOutsideChannel p s t

/-- Inside the frame step that follows `s`, at the end of the load or append of its channel stage: the frame in FB is of
PID 0, which is routed to `m`, its `PKT` event is out, and the channel holds `unit`. -/
def UnitPlaced (m : Mode) (unit : List Byte) (s u : State) : Prop :=
  u.run = .run ∧ framePid u.fb = 0#13 ∧ u.modeOf 0#13 = m ∧ u.chan 0#13 = ⟨.started, unit⟩ ∧
    ∃ pkt, pkt.pid = 0#13 ∧ u.ev = s.ev ++ [.pkt pkt]

/-- `j` after `i`. -/
def execBoth (i j : Instr) (s : State) : Host.Outcome State Fault Refusal :=
  match exec i s with
  | .next t => exec j t
  | .fault r => .fault r
  | .refused r => .refused r

/-- The fourteen host commands (R91, R92). -/
def isCommand (i : Instr) : Bool := i.width = 41

/-- WR.CTRL with SRST = 1. -/
def isSoftReset (i : Instr) : Bool :=
  match i with
  | .wrCtrl d => d.getLsbD 0
  | _ => false

/-- The next step is a reset, by the reset input or by `CTRL.SRST`. -/
def ResetNext (s : State) : Prop := s.fetch = .reset ∨ ∃ i, s.fetch = .operation i ∧ isSoftReset i = true

/-- The packets of one PID, as (pusi, payload), submitted in order to its section reassembler. -/
def secFeed (p : Pid) : Chan → List (Bool × List Byte) → ChanResult
  | c, [] => .ok (c, [])
  | c, f :: rest =>
    match secSubmit p f.1 f.2 c with
    | .error e => .error e
    | .ok (c', es) =>
      match secFeed p c' rest with
      | .error e => .error e
      | .ok (c'', es') => .ok (c'', es ++ es')

/-- The packets of one PID, as (pusi, payload), submitted in order to its PES reassembler. -/
def pesFeed (p : Pid) : Chan → List (Bool × List Byte) → ChanResult
  | c, [] => .ok (c, [])
  | c, f :: rest =>
    match pesSubmit p f.1 f.2 c with
    | .error e => .error e
    | .ok (c', es) =>
      match pesFeed p c' rest with
      | .error e => .error e
      | .ok (c'', es') => .ok (c'', es ++ es')

/-- The bytes that `SECTION` and `PES_DATA` events carry, in order. -/
def dataBytes : List Event → List Byte
  | [] => []
  | .sectionDone _ d :: es => d ++ dataBytes es
  | .pesData _ d :: es => d ++ dataBytes es
  | .pkt _ :: es => dataBytes es
  | .pesHdr _ :: es => dataBytes es
  | .endOfStream _ :: es => dataBytes es
  | .fault _ _ _ :: es => dataBytes es

/-- The bit-serial form of the fold, `k` bits of `b` left: `t <- c[31] xor b[k]; c <- (c x 2) mod 2^32; if t = 1 then
c <- c xor 0x04C11DB7` (R122). -/
def crcSerial (b : Byte) : Nat → Word → Word
  | 0, c => c
  | k + 1, c =>
    crcSerial b k (if (c.getLsbD 31).xor (b.getLsbD k) then (c <<< 1) ^^^ 0x04C11DB7#32 else c <<< 1)

/-- Two states that differ at most in the bytes of FB at and beyond byte_cnt (R25). -/
def SameButStaleBytes (s u : State) : Prop :=
  u = { s with fb := u.fb } ∧ s.fb.wf = true ∧ u.fb.wf = true ∧
    ∀ a, a < s.byteCnt.val → u.fb.read a = s.fb.read a

end Sys2Proof.Statement

open Sys2Proof Sys2Proof.Machine Sys2Proof.Statement

/-! ## Steps, decoding, encoding -/

/-- A step runs the operation that the oldest pending port step decodes to, on the state with that port step taken; an
access that is no operation reads 0 or writes nothing; the reset input resets; with nothing presented nothing happens
(R11, R45, R90, R91, R143, R360). Three things in it are the model's choice: the ports, which a reset keeps (log entry 2),
the bytes of FB after a reset (log entry 1), and the step with nothing presented (log entry 6). -/
def Obligations.StepRunsPresentedOperation : Prop :=
  ∀ (s : State) (rest : List PortStep),
    (∀ w, step { s with pending := .input w :: rest } = exec (decodeSymbol w) { s with pending := rest }) ∧
    (∀ w i, decodeCommand w = .ok i →
      step { s with pending := .command w :: rest } = exec i { s with pending := rest }) ∧
    (∀ w a, decodeCommand w = .error (.noReadableRegister a) →
      step { s with pending := .command w :: rest } =
        .next { s with pending := rest, resp := s.resp ++ [0#32] }) ∧
    (∀ w a, decodeCommand w = .error (.noWritableRegister a) →
      step { s with pending := .command w :: rest } = .next { s with pending := rest }) ∧
    step { s with pending := .resetPin :: rest } =
      .next { State.reset with pending := rest, ev := s.ev, resp := s.resp } ∧
    step { s with pending := [] } = .next { s with pending := [] }

/-- Words written out from the encodings of R81, R86, R87, R90 and R91 decode to the operations they stand for. -/
def Obligations.SpecWordsDecode : Prop :=
  decodeTableWord 9 0x047 = some (.inByte 0x47#8) ∧
  decodeTableWord 9 0x100 = some (.inEos 0x00#8) ∧
  decodeTableWord 32 0x475ABC09 = some (.tsNS ⟨false, false, 0x1ABC#13, 0#2, 9#4⟩) ∧
  decodeTableWord 32 0x47FFFFDF = some (.tsPS ⟨true, true, 0x1FFF#13, 3#2, 15#4⟩) ∧
  decodeTableWord 32 0x47010132 = some (.tsAP ⟨false, false, 0x101#13, 0#2, 2#4⟩) ∧
  decodeTableWord 32 0x48000111 = some (.tsBad 0x48#8 0x000111#24) ∧
  decodeTableWord 24 0x00B00D = some (.secUnit 0x00#8 0xB#4 0x00D#12) ∧
  decodeTableWord 8 0xFF = some .secStuff ∧
  decodeTableWord 72 0x000001E0123404C00A =
    some (.pesHdrPts ⟨0x000001#24, 0xE0#8, 0x1234#16, 0#5, true, 0#2, 3#2, 0#6, 10#8⟩) ∧
  decodeTableWord 41 0x114FFFF1FC8 = some (.wrChSel 0xFFFF1FC8#32) ∧
  decodeTableWord 41 0x02C00000000 = some (.rdCrcValue 0#32) ∧
  decodeTableWord 41 0x03000000000 = none

/-- Decoding the word of a well-formed instruction gives it back, every operand at every value (R80 to R91). -/
def Obligations.DecodeOfEncode : Prop :=
  ∀ i : Instr, i.wf = true → decodeTableWord i.width (encode i) = some i

/-- A word of 9, 24, 32, 41 or 72 bits decodes only to a well-formed instruction whose encoding is that word, every ignored
bit an operand (log entry 7), so no two instructions share a word; but for a 24-bit word that begins with the stuffing
marker, which is SEC.STUFF, its first byte alone (R86). Words of 16 and 48 bits are those of 9 and 41 bits in whole bytes,
and a byte is the front of a section whose next two bytes are 0 (the model's choice, log entry 10). -/
def Obligations.EncodeOfDecode : Prop :=
  (∀ (n w : Nat) (i : Instr), n ∈ [9, 24, 32, 41, 72] → decodeTableWord n w = some i →
    i.wf = true ∧ ((i.width = n ∧ encode i = w) ∨ (n = 24 ∧ i = .secStuff ∧ w / 2 ^ 16 = 0xFF))) ∧
  ∀ w : Nat,
    decodeTableWord 16 w = decodeTableWord 9 w ∧ decodeTableWord 48 w = decodeTableWord 41 w ∧
      (w < 2 ^ 8 → decodeTableWord 8 w = decodeTableWord 24 (w * 2 ^ 16)) ∧ (2 ^ 8 ≤ w → decodeTableWord 8 w = none)

/-- With mask 0xFF400030 the eight match values select the eight packet classes, and every H with H[31:24] other than
0x47 is TS.BAD (R83). -/
def Obligations.FrameClassByMask : Prop :=
  ∀ h : Word,
    (h &&& 0xFF400030#32 = 0x47000000#32 ↔ decodeFrame h = .tsN (tsOperandsOf h)) ∧
    (h &&& 0xFF400030#32 = 0x47400000#32 ↔ decodeFrame h = .tsNS (tsOperandsOf h)) ∧
    (h &&& 0xFF400030#32 = 0x47000010#32 ↔ decodeFrame h = .tsP (tsOperandsOf h)) ∧
    (h &&& 0xFF400030#32 = 0x47400010#32 ↔ decodeFrame h = .tsPS (tsOperandsOf h)) ∧
    (h &&& 0xFF400030#32 = 0x47000020#32 ↔ decodeFrame h = .tsA (tsOperandsOf h)) ∧
    (h &&& 0xFF400030#32 = 0x47400020#32 ↔ decodeFrame h = .tsAS (tsOperandsOf h)) ∧
    (h &&& 0xFF400030#32 = 0x47000030#32 ↔ decodeFrame h = .tsAP (tsOperandsOf h)) ∧
    (h &&& 0xFF400030#32 = 0x47400030#32 ↔ decodeFrame h = .tsAPS (tsOperandsOf h)) ∧
    (h &&& 0xFF000000#32 ≠ 0x47000000#32 ↔ decodeFrame h = .tsBad (h.extractLsb' 24 8) (h.extractLsb' 0 24))

/-- A word placed for the fetch is what the next step runs: an IN or REG word at once, a TS word on the byte that
completes its frame, and a SEC or PES word inside a frame, by the channel stage that follows the `PKT` event, on a buffer
whose front is that word and which holds exactly its unit (R92; the placing is the model's choice, log entry 4). -/
def Obligations.PlacedWordRuns : Prop :=
  ∀ (s : State) (w : Nat) (i : Instr),
    (∀ n, n ∈ [9, 16, 41, 48] → decodeTableWord n w = some i → step (s.withFetchWord n w) = exec i s) ∧
    (decodeTableWord 32 w = some i →
      ∃ u, headerWord u.fb = BitVec.ofNat 32 w ∧ u.run = .run ∧ u.byteCnt = 0 ∧
        step (s.withFetchWord 32 w) = exec i u) ∧
    (∀ n, n ∈ [8, 24] → decodeTableWord n w = some i →
      ∃ u v unit, UnitPlaced .sec unit s u ∧ decodeSection (sectionWord unit) = i ∧
        unit.length = (if i = .secStuff then 1 else (sectionLength unit).toNat + 3) ∧
        exec i u = .next v ∧ step (s.withFetchWord n w) = .next v.countFrame) ∧
    (decodeTableWord 72 w = some i →
      ∃ u v unit, UnitPlaced .pes unit s u ∧ prefixWord unit = BitVec.ofNat 72 w ∧ decodePes (prefixWord unit) = i ∧
        9 + (byteAt unit 8).toNat ≤ unit.length ∧ ((byteAt unit 7).getLsbD 7 = true → 14 ≤ unit.length) ∧
        exec i u = .next v ∧ step (s.withFetchWord 72 w) = .next v.countFrame)

/-! ## Stream symbols -/

/-- IN.BYTE before the last byte of a frame: the byte goes to FB[byte_cnt], byte_cnt advances by one, every other byte
of FB and every other field is as before, and no event is produced (R141, R25). -/
def Obligations.ByteInsideFrameStored : Prop :=
  ∀ (s : State) (b : Byte), s.run = .run → s.byteCnt.val < 187 →
    ∃ fb' : Memory, exec (.inByte b) s = .next { s with fb := fb', byteCnt := s.byteCnt + 1 } ∧
      (s.byteCnt + 1).val = s.byteCnt.val + 1 ∧
      (s.fb.wf = true → fb'.read s.byteCnt.val = b) ∧
      (∀ a, a ≠ s.byteCnt.val → fb'.read a = s.fb.read a)

/-- IN.BYTE with the 188th byte: the byte goes to FB[187], byte_cnt is back at 0, every other byte of FB and every other
field is as before, and the frame class that the header word then in FB decodes to is executed on that state (R141, R160,
R92). -/
def Obligations.LastByteRunsFrameClass : Prop :=
  ∀ (s : State) (b : Byte), s.run = .run → s.byteCnt.val = 187 →
    ∃ fb' : Memory, s.storeByte b = { s with fb := fb', byteCnt := 0 } ∧
      (s.fb.wf = true → fb'.read 187 = b) ∧ (∀ a, a ≠ 187 → fb'.read a = s.fb.read a) ∧
      exec (.inByte b) s = exec (decodeFrame (headerWord fb')) { s with fb := fb', byteCnt := 0 }

/-- In run state DONE or FAULT every IN symbol is discarded: no state changes and no event is produced (R144). -/
def Obligations.InputDiscardedOutsideRun : Prop :=
  ∀ (s : State) (w : BitVec 9), s.run ≠ .run → exec (decodeSymbol w) s = .next s

/-- IN.EOS in RUN: `END` with residual byte_cnt, run = DONE, everything else kept, whatever the data bits are; outside
RUN nothing (R146). -/
def Obligations.EndOfStreamResult : Prop :=
  ∀ (s : State) (x : BitVec 8),
    (s.run = .run → exec (.inEos x) s =
      .next { s with run := .done, ev := s.ev ++ [.endOfStream (BitVec.ofNat 8 s.byteCnt.val)] }) ∧
    (s.run ≠ .run → exec (.inEos x) s = .next s)

/-! ## Frame classes -/

/-- A frame of any of the eight packet classes TS.N, TS.N.S, TS.P, TS.P.S, TS.A, TS.A.S, TS.AP, TS.AP.S whose PID is OFF
and whose adaptation field fits: its `PKT` event, with every field as R160 to R165 cut it, and nothing else.
It holds also where no frame step would run the class: the model's choice (log entry 14). -/
def Obligations.OffChannelFrameReported : Prop :=
  ∀ (af pl pusi : Bool) (o : TsOperands) (s : State) (off : Nat),
    s.run = .run → s.modeOf o.pid = .off → Table.wf Chan.idle s.ch = true →
    off = (if af then 5 + (s.fb.read 4).toNat else 4) → off ≤ 188 →
    ∃ t, exec (frameInstr af pl pusi o) s = .next t ∧
      FrameDone o.pid
        [.pkt
          { frame := s.frameCnt, tei := o.tei, pusi := pusi, prio := o.prio, pid := o.pid, tsc := o.tsc,
            afc := BitVec.ofBool af ++ BitVec.ofBool pl, cc := o.cc, afPresent := af,
            afLen := if af then s.fb.read 4 else 0#8,
            af := if af then (List.range (s.fb.read 4).toNat).map (fun k => s.fb.read (5 + k)) else [],
            payload := if pl then (List.range (188 - off)).map (fun k => s.fb.read (off + k)) else [],
            raw := (List.range 188).map (fun k => s.fb.read k) }]
        (s.chan o.pid) s t

/-- AdaptationOverrun: with afc[1] = 1 and FB[4] > 183 the four classes TS.A, TS.A.S, TS.AP, TS.AP.S raise fault 2 with
the frame's PID, emit no `PKT` and leave every channel unchanged (R163, R332).
It holds also where no frame step would run the class: the model's choice (log entry 14). -/
def Obligations.AdaptationOverrunTraps : Prop :=
  ∀ (pl pusi : Bool) (o : TsOperands) (s : State), s.run = .run → (s.fb.read 4).toNat > 183 →
    ∃ t, exec (frameInstr true pl pusi o) s = .next t ∧ FrameFaulted o.pid [] .adaptationOverrun o.pid s t

/-- TS.BAD: fault 1 with pid 0 and frame_cnt not advanced, no `PKT`, no channel touched, whatever bytes 1 to 3 hold
(R178, R331).
It holds also where no frame step would run the class: the model's choice (log entry 14). -/
def Obligations.BadSyncTraps : Prop :=
  ∀ (sync : Byte) (x : BitVec 24) (p : Pid) (s : State), s.run = .run →
    ∃ t, exec (.tsBad sync x) s = .next t ∧ FrameFaulted p [] .framingError 0#13 s t

/-- PointerOverrun: on a SEC channel a unit start (TS.N.S, TS.P.S, TS.A.S, TS.AP.S) with an empty payload or with
payload[0] + 1 > len(payload) raises fault 3 after its `PKT`; the channel is left as it was before the frame (R194,
R333).
It holds also where no frame step would run the class: the model's choice (log entry 14). -/
def Obligations.PointerOverrunTraps : Prop :=
  ∀ (af pl : Bool) (o : TsOperands) (s : State) (body : FrameBody),
    s.run = .run → s.modeOf o.pid = .sec → frameBody af pl s.fb = some body →
    (body.payload.length = 0 ∨ (byteAt body.payload 0).toNat + 1 > body.payload.length) →
    ∃ t, exec (frameInstr af pl true o) s = .next t ∧
      FrameFaulted o.pid [.pkt (packetOf af pl true o body s)] .pointerOverrun o.pid s t

/-- The classes TS.N.S and TS.A.S carry no payload, so on a SEC channel they raise PointerOverrun whenever the
adaptation field fits (R175, R177).
It holds also where no frame step would run the class: the model's choice (log entry 14). -/
def Obligations.UnitStartWithoutPayloadTraps : Prop :=
  ∀ (af : Bool) (o : TsOperands) (s : State), s.run = .run → s.modeOf o.pid = .sec →
    (af = true → (s.fb.read 4).toNat ≤ 183) →
    ∃ t pkt, exec (frameInstr af false true o) s = .next t ∧ FrameFaulted o.pid [.pkt pkt] .pointerOverrun o.pid s t

/-- A unit start on a SEC channel with its pointer target inside the payload, in either state: the buffer is the payload
from payload[0] + 1 on, whatever it held before, and is drained in the same step (R193).
It holds also where no frame step would run the class: the model's choice (log entry 14). -/
def Obligations.SectionUnitStartLoads : Prop :=
  ∀ (af pl : Bool) (o : TsOperands) (s : State) (body : FrameBody),
    s.run = .run → s.modeOf o.pid = .sec → Table.wf Chan.idle s.ch = true → frameBody af pl s.fb = some body →
    body.payload.length ≠ 0 → (byteAt body.payload 0).toNat + 1 ≤ body.payload.length →
    ∃ t r, exec (frameInstr af pl true o) s = .next t ∧
      r = drain o.pid ⟨.started, body.payload.drop ((byteAt body.payload 0).toNat + 1)⟩ ∧
      FrameDone o.pid (.pkt (packetOf af pl true o body s) :: r.2) r.1 s t

/-- A continuation on a SEC channel: appended and drained while Accumulating, ignored while NotStarted (R195, R196).
It holds also where no frame step would run the class: the model's choice (log entry 14). -/
def Obligations.SectionContinuationAppends : Prop :=
  ∀ (af pl : Bool) (o : TsOperands) (s : State) (body : FrameBody),
    s.run = .run → s.modeOf o.pid = .sec → Table.wf Chan.idle s.ch = true → frameBody af pl s.fb = some body →
    ∃ t r, exec (frameInstr af pl false o) s = .next t ∧
      r = (if (s.chan o.pid).st = .started then drain o.pid ⟨.started, (s.chan o.pid).buf ++ body.payload⟩
        else (s.chan o.pid, [])) ∧
      FrameDone o.pid (.pkt (packetOf af pl false o body s) :: r.2) r.1 s t

/-- On a PES channel in HeaderParsed every packet, unit start or not, is passed through as one `PES_DATA` event, an
empty payload giving none; the channel stays as it is (R228).
It holds also where no frame step would run the class: the model's choice (log entry 14). -/
def Obligations.ParsedPesChannelPassesThrough : Prop :=
  ∀ (af pl pusi : Bool) (o : TsOperands) (s : State) (body : FrameBody),
    s.run = .run → s.modeOf o.pid = .pes → Table.wf Chan.idle s.ch = true → frameBody af pl s.fb = some body →
    (s.chan o.pid).st = .headerParsed →
    ∃ t, exec (frameInstr af pl pusi o) s = .next t ∧
      FrameDone o.pid
        (.pkt (packetOf af pl pusi o body s) ::
          (if body.payload = [] then [] else [.pesData o.pid body.payload]))
        (s.chan o.pid) s t

/-- On a PES channel in NotStarted a packet without unit start is ignored (R225).
It holds also where no frame step would run the class: the model's choice (log entry 14). -/
def Obligations.UnstartedPesChannelIgnores : Prop :=
  ∀ (af pl : Bool) (o : TsOperands) (s : State) (body : FrameBody),
    s.run = .run → s.modeOf o.pid = .pes → Table.wf Chan.idle s.ch = true → frameBody af pl s.fb = some body →
    (s.chan o.pid).st = .notStarted →
    ∃ t, exec (frameInstr af pl false o) s = .next t ∧
      FrameDone o.pid [.pkt (packetOf af pl false o body s)] (s.chan o.pid) s t

/-- On a PES channel before HeaderParsed, a unit start loads the payload and a continuation in Started appends it; then
the decode attempt runs on that buffer: its result is written, or its fault is entered with the channel as before the
frame (R223, R226, R230, R235).
It holds also where no frame step would run the class: the model's choice (log entry 14). -/
def Obligations.PesBufferLoadedThenDecoded : Prop :=
  ∀ (af pl pusi : Bool) (o : TsOperands) (s : State) (body : FrameBody) (buf : List Byte),
    s.run = .run → s.modeOf o.pid = .pes → Table.wf Chan.idle s.ch = true → frameBody af pl s.fb = some body →
    ((pusi = true ∧ (s.chan o.pid).st ≠ .headerParsed ∧ buf = body.payload) ∨
      (pusi = false ∧ (s.chan o.pid).st = .started ∧ buf = (s.chan o.pid).buf ++ body.payload)) →
    ∃ t, exec (frameInstr af pl pusi o) s = .next t ∧
      (∀ c es, tryDecode o.pid ⟨.started, buf⟩ = .ok (c, es) →
        FrameDone o.pid (.pkt (packetOf af pl pusi o body s) :: es) c s t) ∧
      (∀ code, tryDecode o.pid ⟨.started, buf⟩ = .error code →
        code = .ptsOverrun ∧ FrameFaulted o.pid [.pkt (packetOf af pl pusi o body s)] .ptsOverrun o.pid s t)

/-- The header fields of the `PKT` event of a frame, written back in their order, are its first four bytes, those in
FB and those of its raw field (R165).
It holds for every byte_cnt; with one other than 0 that is the model's choice (log entry 14). -/
def Obligations.PacketHeaderReserializes : Prop :=
  ∀ (s : State), s.run = .run → s.fb.read 0 = Config.sync →
    ((s.fb.read 3).getLsbD 5 = true → (s.fb.read 4).toNat ≤ 183) →
    ∃ t p es, exec (decodeFrame (headerWord s.fb)) s = .next t ∧ t.ev = s.ev ++ .pkt p :: es ∧
      p.raw.take 4 = [s.fb.read 0, s.fb.read 1, s.fb.read 2, s.fb.read 3] ∧
      p.raw.take 4 =
        wordBytes (0x47#8 ++ BitVec.ofBool p.tei ++ BitVec.ofBool p.pusi ++ BitVec.ofBool p.prio ++ p.pid ++ p.tsc ++
          p.afc ++ p.cc)

/-- A frame class, TS.BAD among them, touches no channel but that of its PID, no mode, and nothing of crc, ch_sel,
byte_cnt, FB and the ports, whatever it does and in every run state (R30, R29, R129).
It holds also where no frame step would run the class: the model's choice (log entry 14).
That outside RUN it does nothing is the model's reading (log entry 8). -/
def Obligations.FrameTouchesOnlyItsChannel : Prop :=
  ∀ (i : Instr) (p : Pid) (s t : State),
    ((∃ af pl pusi o, i = frameInstr af pl pusi o ∧ p = o.pid) ∨ (∃ sync x, i = .tsBad sync x)) →
    exec i s = .next t → SameOutsideChannel p s t

/-- What a frame of PID p does depends on no channel and no mode but those of p, nor on ch_sel, crc and byte_cnt: two
states that agree on the rest give the same events, run state, fault record, frame_cnt and channel of p (R30, R29).
It holds also where no frame step would run the class: the model's choice (log entry 14).
That outside RUN it does nothing is the model's reading (log entry 8). -/
def Obligations.OtherChannelsDoNotMatter : Prop :=
  ∀ (af pl pusi : Bool) (o : TsOperands) (s u t v : State),
    s.run = u.run → s.faultCode = u.faultCode → s.faultFrame = u.faultFrame → s.faultPid = u.faultPid →
    s.frameCnt = u.frameCnt → s.fb = u.fb → s.modeOf o.pid = u.modeOf o.pid → s.chan o.pid = u.chan o.pid →
    Table.wf Chan.idle s.ch = true → Table.wf Chan.idle u.ch = true →
    exec (frameInstr af pl pusi o) s = .next t → exec (frameInstr af pl pusi o) u = .next v →
    t.run = v.run ∧ t.faultCode = v.faultCode ∧ t.faultFrame = v.faultFrame ∧ t.faultPid = v.faultPid ∧
      t.frameCnt = v.frameCnt ∧ t.chan o.pid = v.chan o.pid ∧
      ∃ es, t.ev = s.ev ++ es ∧ v.ev = u.ev ++ es

/-! ## Sections -/

/-- SEC.UNIT on the channel of the frame in FB, while it is routed to SEC, Accumulating and holds the W bytes: one
`SECTION` event with exactly the first W bytes and the buffer advanced past them (R198). SEC.STUFF there: NotStarted
and empty, no event (R199). Neither changes anything else. That the channel is the one of the frame in FB
is the model's reading, and that SEC.STUFF does not look at the front of the buffer is its choice (log entry 5). -/
def Obligations.SectionOperationsResult : Prop :=
  ∀ (s : State) (p : Pid) (c : Chan), s.run = .run → p = framePid s.fb → s.modeOf p = .sec → s.chan p = c →
    c.st = .started →
    (∀ (tableId : Byte) (x : BitVec 4) (len : BitVec 12), len.toNat + 3 ≤ c.buf.length →
      exec (.secUnit tableId x len) s =
        .next { s.setChan p ⟨.started, c.buf.drop (len.toNat + 3)⟩ with
          ev := s.ev ++ [.sectionDone p (c.buf.take (len.toNat + 3))] }) ∧
    exec .secStuff s = .next (s.setChan p ⟨.notStarted, []⟩)

/-- After a drain of an Accumulating channel the buffer is empty, or does not begin with the stuffing marker and holds
fewer than 3 bytes or fewer than W; so it holds at most 4097 bytes (R198, R206). -/
def Obligations.DrainLeavesNoSection : Prop :=
  ∀ (p : Pid) (buf : List Byte),
    ((drain p ⟨.started, buf⟩).1 = ⟨.notStarted, []⟩ ∨
      ((drain p ⟨.started, buf⟩).1.st = .started ∧ secWaiting (drain p ⟨.started, buf⟩).1.buf)) ∧
    (drain p ⟨.started, buf⟩).1.buf.length ≤ 4097

/-- A drain reorders, duplicates and alters no byte: the sections it emits and what it leaves are the buffer, but for
what follows a stuffing marker at a section boundary; every section is emitted for the drained PID, is not a stuffing
marker and has the length its own length field declares (R69, R198, R199). -/
def Obligations.DrainConservesBytes : Prop :=
  ∀ (p : Pid) (buf : List Byte), ∃ lost : List Byte,
    dataBytes (drain p ⟨.started, buf⟩).2 ++ (drain p ⟨.started, buf⟩).1.buf ++ lost = buf ∧
    (lost = [] ∨ ((drain p ⟨.started, buf⟩).1 = ⟨.notStarted, []⟩ ∧ byteAt lost 0 = 0xFF#8)) ∧
    ∀ e ∈ (drain p ⟨.started, buf⟩).2, ∃ d, e = .sectionDone p d ∧ byteAt d 0 ≠ 0xFF#8 ∧
      d.length = (sectionLength d).toNat + 3

/-- Each turn of the drain is the section operation that the front of the buffer decodes to: on the channel of the frame
in FB, SEC.UNIT leaves a state whose drain gives the rest of the events and the same channel, and SEC.STUFF ends it
(R92, R198). That the operations act on the channel of the frame in FB is the model's reading (log entry 5). -/
def Obligations.DrainTurnIsSectionOperation : Prop :=
  ∀ (s : State) (p : Pid) (buf : List Byte), s.run = .run → p = framePid s.fb → s.modeOf p = .sec →
    Table.wf Chan.idle s.ch = true → s.chan p = ⟨.started, buf⟩ →
    (buf.length ≠ 0 → decodeSection (sectionWord buf) = .secStuff →
      ∃ t, exec .secStuff s = .next t ∧ drain p ⟨.started, buf⟩ = (t.chan p, []) ∧ t.ev = s.ev) ∧
    (∀ tableId x len, decodeSection (sectionWord buf) = .secUnit tableId x len → len.toNat + 3 ≤ buf.length →
      ∃ t e, exec (.secUnit tableId x len) s = .next t ∧ t.ev = s.ev ++ [e] ∧
        drain p ⟨.started, buf⟩ = ((drain p (t.chan p)).1, e :: (drain p (t.chan p)).2))

/-- Split invariance: a section, cut at any points over a PUSI packet with pointer field 0 and continuations and
followed by stuffing, gives exactly one `SECTION` event with its bytes, whatever the channel held before; and no event
before the packet that delivers its last byte (R203). -/
def Obligations.SectionSplitInvariance : Prop :=
  ∀ (p : Pid) (c : Chan) (sec first : List Byte) (chunks : List (List Byte)),
    sec.length = (sectionLength sec).toNat + 3 → byteAt sec 0 ≠ 0xFF#8 →
    first.length ≤ 183 → (∀ k ∈ chunks, k.length ≤ 184) →
    (∀ stuffing : List Byte, (∀ b ∈ stuffing, b = 0xFF#8) → first ++ chunks.flatten = sec ++ stuffing →
      ∃ c', secFeed p c ((true, 0x00#8 :: first) :: chunks.map (fun k => (false, k))) =
        .ok (c', [.sectionDone p sec])) ∧
    (first ++ chunks.flatten <+: sec → (first ++ chunks.flatten).length < sec.length →
      secFeed p c ((true, 0x00#8 :: first) :: chunks.map (fun k => (false, k))) =
        .ok (⟨.started, first ++ chunks.flatten⟩, []))

/-! ## PES headers -/

/-- PES.HDR.PTS and PES.HDR.NOPTS on the channel of the frame in FB, while it is routed to PES, Started and holds the
whole header: `PES_HDR` with the prefix fields and, for PTS, the timestamp at offsets 9 to 13, else pts_valid = 0 and
pts = 0; then the bytes beyond the header, if any, as `PES_DATA`; HeaderParsed and empty. PES.HDR.PTS on fewer than 14
bytes raises fault 4 and leaves the channel (R231, R235, R50). That the channel is the one of the frame in FB is the
model's reading (log entry 5). -/
def Obligations.PesHeaderOperationsResult : Prop :=
  ∀ (s : State) (p : Pid) (c : Chan) (h : PesPrefix), s.run = .run → p = framePid s.fb → s.modeOf p = .pes →
    s.chan p = c → c.st = .started → 9 + h.headerDataLen.toNat ≤ c.buf.length →
    let rest := c.buf.drop (9 + h.headerDataLen.toNat)
    let header (valid : Bool) (pts : Pts) : PesHeader :=
      { pid := p, startCode := h.startCode, streamId := h.streamId, packetLength := h.packetLength,
        dataAlignment := h.dataAlignment, ptsDtsFlags := h.ptsDtsFlags, headerDataLen := h.headerDataLen,
        ptsValid := valid, pts := pts }
    let data : List Event := if rest = [] then [] else [.pesData p rest]
    (14 ≤ c.buf.length →
      exec (.pesHdrPts h) s =
        .next { s.setChan p ⟨.headerParsed, []⟩ with
          ev := s.ev ++ .pesHdr (header true (ptsOf (byteAt c.buf 9) (byteAt c.buf 10) (byteAt c.buf 11)
            (byteAt c.buf 12) (byteAt c.buf 13))) :: data }) ∧
    (c.buf.length < 14 → exec (.pesHdrPts h) s = .next (s.raiseFault .ptsOverrun p)) ∧
    exec (.pesHdrNopts h) s =
      .next { s.setChan p ⟨.headerParsed, []⟩ with ev := s.ev ++ .pesHdr (header false 0#33) :: data }

/-- The decode attempt waits while fewer than 9 or fewer than 9 + b[8] bytes are there; otherwise it is the header
operation that the prefix decodes to, on the channel of the frame in FB (R230, R92). That the operation acts on the channel
of the frame in FB is the model's reading (log entry 5). -/
def Obligations.DecodeAttemptIsHeaderOperation : Prop :=
  ∀ (s : State) (p : Pid) (buf : List Byte), s.run = .run → p = framePid s.fb → s.modeOf p = .pes →
    s.chan p = ⟨.started, buf⟩ →
    ((buf.length < 9 ∨ buf.length < 9 + (byteAt buf 8).toNat) →
      tryDecode p ⟨.started, buf⟩ = .ok (⟨.started, buf⟩, [])) ∧
    (9 ≤ buf.length → 9 + (byteAt buf 8).toNat ≤ buf.length →
      exec (decodePes (prefixWord buf)) s = .next (s.commitChan p (tryDecode p ⟨.started, buf⟩)))

/-- PTS assembly, bit for bit: b0[3:1], b1, b2[7:1], b3, b4[7:1] from the top down (R88, R233). -/
def Obligations.PtsFieldLayout : Prop :=
  ∀ b0 b1 b2 b3 b4 : Byte,
    ptsOf b0 b1 b2 b3 b4 =
      (b0.extractLsb' 1 3 ++ b1 ++ b2.extractLsb' 1 7 ++ b3 ++ b4.extractLsb' 1 7 : BitVec 33)

/-- Once per arming: from a channel reset, over any packets of a PES channel that raise no fault, either no event is
emitted and the header is not parsed, or the events are one `PES_HDR` and then `PES_DATA` events only; the buffer at
decode time is the payloads of a run of packets that begins with a unit start and has no other, and the data bytes are
exactly what that buffer holds beyond the header followed by the payloads of all later packets (R237). -/
def Obligations.PesHeaderOncePerArming : Prop :=
  ∀ (p : Pid) (frames : List (Bool × List Byte)) (c : Chan) (es : List Event),
    pesFeed p Chan.idle frames = .ok (c, es) →
    (es = [] ∧ c.st ≠ .headerParsed) ∨
    (c = ⟨.headerParsed, []⟩ ∧
      ∃ (h : PesHeader) (data : List Event) (before conts later : List (Bool × List Byte)) (start buf : List Byte),
        es = .pesHdr h :: data ∧ (∀ e ∈ data, ∃ d, e = .pesData p d ∧ d ≠ []) ∧ h.pid = p ∧
        frames = before ++ (true, start) :: conts ++ later ∧ (∀ f ∈ conts, f.1 = false) ∧
        buf = start ++ (conts.map Prod.snd).flatten ∧ h.headerDataLen = byteAt buf 8 ∧
        dataBytes data = buf.drop (9 + h.headerDataLen.toNat) ++ (later.map Prod.snd).flatten)

/-! ## CRC unit -/

/-- WR.CRC_INIT sets crc to the seed, WR.CRC_DATA folds data[7:0], RD.CRC_VALUE returns crc and changes no state; each
in every run state and without any other effect, the ignored data bits having none (R124, R125, R126). -/
def Obligations.CrcCommandsResult : Prop :=
  ∀ (s : State) (d : Word),
    exec (.wrCrcInit d) s = .next { s with crc := 0xFFFFFFFF#32 } ∧
    exec (.wrCrcData d) s = .next { s with crc := crcFold s.crc (d.extractLsb' 0 8) } ∧
    exec (.rdCrcValue d) s = .next { s with resp := s.resp ++ [s.crc] }

/-- The fold by table, `CRCTAB[c[31:24] xor b] xor (c x 2^8)`, is the bit-serial polynomial generator (R122). -/
def Obligations.FoldIsBitSerial : Prop :=
  ∀ (c : Word) (b : Byte),
    crcFold c b = crcTab (c.extractLsb' 24 8 ^^^ b) ^^^ (c <<< 8) ∧ crcFold c b = crcSerial b 8 c

/-- Zero residue: the CRC of any bytes followed by their CRC, most significant byte first, is 0; with the example of
the rule (R127). -/
def Obligations.CrcZeroResidue : Prop :=
  (∀ m : List Byte, crc32 (m ++ wordBytes (crc32 m)) = 0#32) ∧
  crc32 [0x00, 0xB0, 0x0D, 0x00, 0x01, 0xC1, 0x00, 0x00, 0x00, 0x01, 0xF0, 0x00] = 0x2AB104B2#32

/-- The CRC unit is independent: of all operations only WR.CRC_INIT, WR.CRC_DATA and WR.CTRL with SRST change crc (the
last to the seed), and the three CRC commands change nothing but crc and the values returned (R129). -/
def Obligations.CrcUnitIndependent : Prop :=
  ∀ (i : Instr) (s t : State), exec i s = .next t →
    (t.crc = s.crc ∨ (∃ d, i = .wrCrcInit d) ∨ (∃ d, i = .wrCrcData d) ∨
      (isSoftReset i = true ∧ t.crc = 0xFFFFFFFF#32)) ∧
    (((∃ d, i = .wrCrcInit d) ∨ (∃ d, i = .wrCrcData d) ∨ (∃ d, i = .rdCrcValue d)) →
      t = { s with crc := t.crc, resp := t.resp })

/-! ## Host commands -/

/-- The value each register read returns, computed from the state and changing nothing else: RD.STATUS, RD.FRAME_CNT,
RD.FAULT_INFO, RD.FAULT_PID, RD.CH_SEL, RD.CH_MODE, RD.CH_STATE (R263 to R266, R270 to R272); and the numbers of the run
states, of the fault causes, of the modes and of the channel states that they show (R21, R22, R28, R30). -/
def Obligations.ReadCommandsResult : Prop :=
  ∀ (s : State) (d : Word),
    (∃ v : Word, exec (.rdStatus d) s = .next { s with resp := s.resp ++ [v] } ∧
      v.toNat = s.byteCnt.val * 2 ^ 8 + (faultBits s.faultCode).toNat * 2 ^ 4 + s.run.bits.toNat) ∧
    exec (.rdFrameCnt d) s = .next { s with resp := s.resp ++ [s.frameCnt] } ∧
    exec (.rdFaultInfo d) s = .next { s with resp := s.resp ++ [s.faultFrame] } ∧
    exec (.rdFaultPid d) s = .next { s with resp := s.resp ++ [s.faultPid.setWidth 32] } ∧
    exec (.rdChSel d) s = .next { s with resp := s.resp ++ [s.chSel.setWidth 32] } ∧
    exec (.rdChMode d) s = .next { s with resp := s.resp ++ [(s.modeOf s.chSel).bits.setWidth 32] } ∧
    (∃ v : Word, exec (.rdChState d) s = .next { s with resp := s.resp ++ [v] } ∧
      ((s.chan s.chSel).buf.length < 2 ^ 13 →
        v.toNat = (s.chan s.chSel).buf.length * 2 ^ 16 + (s.chan s.chSel).st.bits.toNat)) ∧
    (Run.bits .run = 0#2 ∧ Run.bits .done = 1#2 ∧ Run.bits .fault = 2#2) ∧
    (faultBits none = 0#4 ∧ faultBits (some .framingError) = 1#4 ∧ faultBits (some .adaptationOverrun) = 2#4 ∧
      faultBits (some .pointerOverrun) = 3#4 ∧ faultBits (some .ptsOverrun) = 4#4) ∧
    (Mode.bits .off = 0#2 ∧ Mode.bits .sec = 1#2 ∧ Mode.bits .pes = 2#2) ∧
    (ChSt.bits .notStarted = 0#2 ∧ ChSt.bits .started = 1#2 ∧ ChSt.bits .headerParsed = 2#2)

/-- WR.CTRL: with data[0] = 1 every element takes its reset value, EV and the ports being kept; with data[0] = 0
nothing happens (R262, R54, R360).
That a reset keeps the pending steps and the values returned is the model's choice (log entry 2). -/
def Obligations.ControlWriteResult : Prop :=
  ∀ (s : State) (d : Word),
    (d.getLsbD 0 = true → ∃ t, exec (.wrCtrl d) s = .next t ∧
      t.run = .run ∧ t.faultCode = none ∧ t.faultFrame = 0#32 ∧ t.faultPid = 0#13 ∧ t.frameCnt = 0#32 ∧
      t.byteCnt = 0 ∧ t.crc = 0xFFFFFFFF#32 ∧ t.chSel = 0#13 ∧ (∀ p, t.modeOf p = .off) ∧
      (∀ p, t.chan p = ⟨.notStarted, []⟩) ∧ t.ev = s.ev ∧ t.resp = s.resp ∧ t.pending = s.pending) ∧
    (d.getLsbD 0 = false → exec (.wrCtrl d) s = .next s)

/-- WR.CH_SEL sets ch_sel to data[12:0] and changes nothing else (R267). -/
def Obligations.ChannelSelectResult : Prop :=
  ∀ (s : State) (d : Word), exec (.wrChSel d) s = .next { s with chSel := BitVec.ofNat 13 (d.toNat % 2 ^ 13) }

/-- WR.CH_MODE stores data[1:0], 3 as OFF, for the selected PID and resets its channel record on every write; WR.CH_CMD
with data[0] = 1 resets that record and keeps the mode, with data[0] = 0 does nothing. Other PIDs, their modes and every
other field are untouched and no event is emitted (R268, R269). -/
def Obligations.ChannelWritesResult : Prop :=
  ∀ (s : State) (d : Word), Table.wf .off s.mode = true → Table.wf Chan.idle s.ch = true →
    (∃ t, exec (.wrChMode d) s = .next t ∧ t = { s with mode := t.mode, ch := t.ch } ∧
      t.modeOf s.chSel = (if d.toNat % 4 = 1 then .sec else if d.toNat % 4 = 2 then .pes else .off) ∧
      t.chan s.chSel = ⟨.notStarted, []⟩ ∧
      ∀ q, q ≠ s.chSel → t.modeOf q = s.modeOf q ∧ t.chan q = s.chan q) ∧
    (d.getLsbD 0 = true → ∃ t, exec (.wrChCmd d) s = .next t ∧ t = { s with ch := t.ch } ∧
      t.chan s.chSel = ⟨.notStarted, []⟩ ∧ ∀ q, q ≠ s.chSel → t.chan q = s.chan q) ∧
    (d.getLsbD 0 = false → exec (.wrChCmd d) s = .next s)

/-- No host command raises a fault or emits an event, and none but WR.CTRL with SRST changes the run state, the fault
record, the stream position or FB; every one completes in every run state (R260).
That every command, a reset too, keeps the pending steps is the model's choice (log entry 2). -/
def Obligations.CommandsLeaveTheStreamSide : Prop :=
  ∀ (i : Instr) (s : State), isCommand i = true →
    ∃ t, exec i s = .next t ∧ t.ev = s.ev ∧ t.pending = s.pending ∧
      (isSoftReset i = false →
        t.run = s.run ∧ t.faultCode = s.faultCode ∧ t.faultFrame = s.faultFrame ∧ t.faultPid = s.faultPid ∧
        t.frameCnt = s.frameCnt ∧ t.byteCnt = s.byteCnt ∧ t.fb = s.fb)

/-- A command issued inside a frame has the same effect as one issued after the next byte of it, for every command but
a reset and the read of `STATUS`, which shows byte_cnt (R260). -/
def Obligations.CommandCommutesWithByteInsideFrame : Prop :=
  ∀ (i : Instr) (b : Byte) (s : State), isCommand i = true → isSoftReset i = false → (∀ d, i ≠ .rdStatus d) →
    s.byteCnt.val < 187 → execBoth i (.inByte b) s = execBoth (.inByte b) i s

/-- Every address other than the twelve, and every address that is not a multiple of 4, is unmapped: a read returns 0
and a write has no effect (R45); a write-only register reads 0 and a read-only register ignores a write (R32). -/
def Obligations.UnmappedAccessHarmless : Prop :=
  ∀ (s : State) (rest : List PortStep) (a : Byte) (d : Word),
    ((a.toNat % 4 ≠ 0 ∨ a.toNat > 0x2C ∨ a ∈ [0x00#8, 0x1C#8, 0x24#8, 0x28#8]) →
      step { s with pending := .command (encodeCommand false a d) :: rest } =
        .next { s with pending := rest, resp := s.resp ++ [0#32] }) ∧
    ((a.toNat % 4 ≠ 0 ∨ a.toNat > 0x2C ∨ a ∈ [0x04#8, 0x08#8, 0x0C#8, 0x10#8, 0x20#8, 0x2C#8]) →
      step { s with pending := .command (encodeCommand true a d) :: rest } = .next { s with pending := rest })

/-- ch_sel has no effect on IN-port steps (R29). -/
def Obligations.SelectionInvisibleToStream : Prop :=
  ∀ (w : BitVec 9) (p : Pid) (s t : State), exec (decodeSymbol w) s = .next t →
    exec (decodeSymbol w) { s with chSel := p } = .next { t with chSel := p }

/-! ## Faults, run states, events, reset -/

/-- Trap entry writes the fault record, sets run = FAULT, emits `FAULT` with the same code, frame and PID, and changes
nothing else (R338, R53). That it is a next state, and no outcome that stops, is the model's reading (log entry 3). -/
def Obligations.TrapEntryResult : Prop :=
  ∀ (s : State) (code : Cause) (p : Pid),
    s.raiseFault code p =
      { s with run := .fault, faultCode := some code, faultFrame := s.frameCnt, faultPid := p,
               ev := s.ev ++ [.fault code s.frameCnt p] }

/-- A fault is never cleared by a step that is no reset: run, the fault record, the stream position, FB and EV stay as
they are (R22, R31, R144, R340). -/
def Obligations.FaultIsSticky : Prop :=
  ∀ (s t : State), s.run = .fault → step s = .next t → ¬ ResetNext s →
    t.run = .fault ∧ t.faultCode = s.faultCode ∧ t.faultFrame = s.faultFrame ∧ t.faultPid = s.faultPid ∧
      t.frameCnt = s.frameCnt ∧ t.byteCnt = s.byteCnt ∧ t.fb = s.fb ∧ t.ev = s.ev

/-- The changes of the run state: RUN to DONE by an `IN.EOS`, RUN to FAULT by the 188th byte of a frame, to RUN by a
reset, and no other (R21, R147, R338, R340). -/
def Obligations.RunStateTransitions : Prop :=
  ∀ (s t : State), step s = .next t →
    t.run = s.run ∨
    (s.run = .run ∧ t.run = .done ∧ ∃ x, s.fetch = .operation (.inEos x)) ∨
    (s.run = .run ∧ t.run = .fault ∧ s.byteCnt.val = 187 ∧ ∃ b, s.fetch = .operation (.inByte b)) ∨
    (t.run = .run ∧ ResetNext s)

/-- EV is only appended to, by no step outside RUN and by no reset; `END` is emitted alone, in RUN, with residual
byte_cnt, and leaves DONE; `FAULT` comes last and leaves FAULT with the same record (R47, R52, R53, R54). -/
def Obligations.StepEventsFollowRunState : Prop :=
  ∀ (s t : State), step s = .next t →
    ∃ es, t.ev = s.ev ++ es ∧
      (s.run ≠ .run ∨ ResetNext s → es = []) ∧
      (∀ r, .endOfStream r ∈ es → es = [.endOfStream r] ∧ r = BitVec.ofNat 8 s.byteCnt.val ∧ t.run = .done) ∧
      (∀ code frame pid, .fault code frame pid ∈ es →
        es.getLast? = some (.fault code frame pid) ∧ t.run = .fault ∧ t.faultCode = some code ∧
          t.faultFrame = frame ∧ t.faultPid = pid ∧ frame = s.frameCnt) ∧
      (t.run = .fault → s.run = .run → ∃ code frame pid, .fault code frame pid ∈ es)

/-- Every step completes: no state makes the machine stop (R380). That a step whose frame faults answers a next state
(log entry 3) and that a step with nothing presented does (log entry 6) is the model's reading. -/
def Obligations.EveryStepCompletes : Prop := ∀ s : State, ∃ t, step s = .next t

/-- The reset input and a `CTRL.SRST` write are the same operation (R360). -/
def Obligations.ResetInputIsSoftReset : Prop :=
  ∀ (s : State) (rest : List PortStep) (d : Word), d.getLsbD 0 = true →
    step { s with pending := .resetPin :: rest } =
      step { s with pending := .command (encodeCommand true 0x00#8 d) :: rest }

/-- What reset leaves, for the elements whose value R54 states (FB, which it leaves unspecified, is the model's choice
of log entry 1 and not part of this). -/
def Obligations.ResetValues : Prop :=
  State.reset.run = .run ∧ State.reset.faultCode = none ∧ State.reset.faultFrame = 0#32 ∧
    State.reset.faultPid = 0#13 ∧ State.reset.frameCnt = 0#32 ∧ State.reset.byteCnt = 0 ∧
    State.reset.crc = 0xFFFFFFFF#32 ∧ State.reset.chSel = 0#13 ∧ (∀ p, State.reset.modeOf p = .off) ∧
    (∀ p, State.reset.chan p = ⟨.notStarted, []⟩)

/-! ## Invariants -/

/-- The invariant holds after reset (R54).
That FB lists nothing there is the model's choice (log entry 1). -/
def Obligations.InvHoldsAtReset : Prop := State.reset.Inv

/-- Every step keeps the invariant: FB and both tables canonical and in range, the fault record in step with the run
state, every channel record legal for its mode (R21, R22, R28, R30, R31, R206, R236, R263). -/
def Obligations.StepKeepsInv : Prop :=
  ∀ (s t : State), s.Inv → step s = .next t → t.Inv

/-- Every event that a step emits from a state with the invariant has the field ranges of R48 to R53. -/
def Obligations.StepEmitsLegalEvents : Prop :=
  ∀ (s t : State), s.Inv → step s = .next t → ∃ es, t.ev = s.ev ++ es ∧ ∀ e ∈ es, e.Legal

/-- Under the invariant a SEC buffer holds at most 4097 bytes between steps and 4281 with a payload appended, a PES
buffer at most 263 and 447 (R206, R236, R7). -/
def Obligations.BufferBounds : Prop :=
  ∀ (s : State) (p : Pid) (payload : List Byte), s.Inv → payload.length ≤ 184 →
    (s.modeOf p = .sec → (s.chan p).buf.length ≤ 4097 ∧ ((s.chan p).buf ++ payload).length ≤ 4281) ∧
    (s.modeOf p = .pes → (s.chan p).buf.length ≤ 263 ∧ ((s.chan p).buf ++ payload).length ≤ 447) ∧
    (s.modeOf p = .off → s.chan p = ⟨.notStarted, []⟩)

/-- The bytes of FB at and beyond byte_cnt are unobservable: two states that differ only there step to two such states,
with the same events, registers and values returned (R25). -/
def Obligations.StaleFrameBytesUnobservable : Prop :=
  ∀ (s u : State), SameButStaleBytes s u →
    ∃ t v, step s = .next t ∧ step u = .next v ∧ SameButStaleBytes t v
end

