-- ==== Sys2Proof/Laws/State.lean ====
section
/-! SUPPORT. The fields of a state after each named update: one lemma per field per update, so that no later proof
unfolds a record update. -/

namespace Sys2Proof.Machine

/-! ## `State.emit` -/

@[simp] theorem State.emit_run (s : State) (es : List Event) : (s.emit es).run = s.run := rfl
@[simp] theorem State.emit_faultCode (s : State) (es : List Event) : (s.emit es).faultCode = s.faultCode := rfl
@[simp] theorem State.emit_faultFrame (s : State) (es : List Event) : (s.emit es).faultFrame = s.faultFrame := rfl
@[simp] theorem State.emit_faultPid (s : State) (es : List Event) : (s.emit es).faultPid = s.faultPid := rfl
@[simp] theorem State.emit_frameCnt (s : State) (es : List Event) : (s.emit es).frameCnt = s.frameCnt := rfl
@[simp] theorem State.emit_byteCnt (s : State) (es : List Event) : (s.emit es).byteCnt = s.byteCnt := rfl
@[simp] theorem State.emit_fb (s : State) (es : List Event) : (s.emit es).fb = s.fb := rfl
@[simp] theorem State.emit_crc (s : State) (es : List Event) : (s.emit es).crc = s.crc := rfl
@[simp] theorem State.emit_chSel (s : State) (es : List Event) : (s.emit es).chSel = s.chSel := rfl
@[simp] theorem State.emit_mode (s : State) (es : List Event) : (s.emit es).mode = s.mode := rfl
@[simp] theorem State.emit_ch (s : State) (es : List Event) : (s.emit es).ch = s.ch := rfl
@[simp] theorem State.emit_pending (s : State) (es : List Event) : (s.emit es).pending = s.pending := rfl
@[simp] theorem State.emit_ev (s : State) (es : List Event) : (s.emit es).ev = s.ev ++ es := rfl
@[simp] theorem State.emit_resp (s : State) (es : List Event) : (s.emit es).resp = s.resp := rfl

/-! ## `State.respond` -/

@[simp] theorem State.respond_run (s : State) (v : Word) : (s.respond v).run = s.run := rfl
@[simp] theorem State.respond_faultCode (s : State) (v : Word) : (s.respond v).faultCode = s.faultCode := rfl
@[simp] theorem State.respond_faultFrame (s : State) (v : Word) : (s.respond v).faultFrame = s.faultFrame := rfl
@[simp] theorem State.respond_faultPid (s : State) (v : Word) : (s.respond v).faultPid = s.faultPid := rfl
@[simp] theorem State.respond_frameCnt (s : State) (v : Word) : (s.respond v).frameCnt = s.frameCnt := rfl
@[simp] theorem State.respond_byteCnt (s : State) (v : Word) : (s.respond v).byteCnt = s.byteCnt := rfl
@[simp] theorem State.respond_fb (s : State) (v : Word) : (s.respond v).fb = s.fb := rfl
@[simp] theorem State.respond_crc (s : State) (v : Word) : (s.respond v).crc = s.crc := rfl
@[simp] theorem State.respond_chSel (s : State) (v : Word) : (s.respond v).chSel = s.chSel := rfl
@[simp] theorem State.respond_mode (s : State) (v : Word) : (s.respond v).mode = s.mode := rfl
@[simp] theorem State.respond_ch (s : State) (v : Word) : (s.respond v).ch = s.ch := rfl
@[simp] theorem State.respond_pending (s : State) (v : Word) : (s.respond v).pending = s.pending := rfl
@[simp] theorem State.respond_ev (s : State) (v : Word) : (s.respond v).ev = s.ev := rfl
@[simp] theorem State.respond_resp (s : State) (v : Word) : (s.respond v).resp = s.resp ++ [v] := rfl

/-! ## `State.setMode` -/

@[simp] theorem State.setMode_run (s : State) (p : Pid) (m : Mode) : (s.setMode p m).run = s.run := rfl
@[simp] theorem State.setMode_faultCode (s : State) (p : Pid) (m : Mode) :
    (s.setMode p m).faultCode = s.faultCode := rfl
@[simp] theorem State.setMode_faultFrame (s : State) (p : Pid) (m : Mode) :
    (s.setMode p m).faultFrame = s.faultFrame := rfl
@[simp] theorem State.setMode_faultPid (s : State) (p : Pid) (m : Mode) : (s.setMode p m).faultPid = s.faultPid := rfl
@[simp] theorem State.setMode_frameCnt (s : State) (p : Pid) (m : Mode) : (s.setMode p m).frameCnt = s.frameCnt := rfl
@[simp] theorem State.setMode_byteCnt (s : State) (p : Pid) (m : Mode) : (s.setMode p m).byteCnt = s.byteCnt := rfl
@[simp] theorem State.setMode_fb (s : State) (p : Pid) (m : Mode) : (s.setMode p m).fb = s.fb := rfl
@[simp] theorem State.setMode_crc (s : State) (p : Pid) (m : Mode) : (s.setMode p m).crc = s.crc := rfl
@[simp] theorem State.setMode_chSel (s : State) (p : Pid) (m : Mode) : (s.setMode p m).chSel = s.chSel := rfl
@[simp] theorem State.setMode_mode (s : State) (p : Pid) (m : Mode) :
    (s.setMode p m).mode = Table.write .off s.mode p.toNat m := rfl
@[simp] theorem State.setMode_ch (s : State) (p : Pid) (m : Mode) : (s.setMode p m).ch = s.ch := rfl
@[simp] theorem State.setMode_pending (s : State) (p : Pid) (m : Mode) : (s.setMode p m).pending = s.pending := rfl
@[simp] theorem State.setMode_ev (s : State) (p : Pid) (m : Mode) : (s.setMode p m).ev = s.ev := rfl
@[simp] theorem State.setMode_resp (s : State) (p : Pid) (m : Mode) : (s.setMode p m).resp = s.resp := rfl

/-! ## `State.setChan` -/

@[simp] theorem State.setChan_run (s : State) (p : Pid) (c : Chan) : (s.setChan p c).run = s.run := rfl
@[simp] theorem State.setChan_faultCode (s : State) (p : Pid) (c : Chan) :
    (s.setChan p c).faultCode = s.faultCode := rfl
@[simp] theorem State.setChan_faultFrame (s : State) (p : Pid) (c : Chan) :
    (s.setChan p c).faultFrame = s.faultFrame := rfl
@[simp] theorem State.setChan_faultPid (s : State) (p : Pid) (c : Chan) : (s.setChan p c).faultPid = s.faultPid := rfl
@[simp] theorem State.setChan_frameCnt (s : State) (p : Pid) (c : Chan) : (s.setChan p c).frameCnt = s.frameCnt := rfl
@[simp] theorem State.setChan_byteCnt (s : State) (p : Pid) (c : Chan) : (s.setChan p c).byteCnt = s.byteCnt := rfl
@[simp] theorem State.setChan_fb (s : State) (p : Pid) (c : Chan) : (s.setChan p c).fb = s.fb := rfl
@[simp] theorem State.setChan_crc (s : State) (p : Pid) (c : Chan) : (s.setChan p c).crc = s.crc := rfl
@[simp] theorem State.setChan_chSel (s : State) (p : Pid) (c : Chan) : (s.setChan p c).chSel = s.chSel := rfl
@[simp] theorem State.setChan_mode (s : State) (p : Pid) (c : Chan) : (s.setChan p c).mode = s.mode := rfl
@[simp] theorem State.setChan_ch (s : State) (p : Pid) (c : Chan) :
    (s.setChan p c).ch = Table.write Chan.idle s.ch p.toNat c := rfl
@[simp] theorem State.setChan_pending (s : State) (p : Pid) (c : Chan) : (s.setChan p c).pending = s.pending := rfl
@[simp] theorem State.setChan_ev (s : State) (p : Pid) (c : Chan) : (s.setChan p c).ev = s.ev := rfl
@[simp] theorem State.setChan_resp (s : State) (p : Pid) (c : Chan) : (s.setChan p c).resp = s.resp := rfl

/-! ## `State.storeByte` -/

@[simp] theorem State.storeByte_run (s : State) (b : Byte) : (s.storeByte b).run = s.run := rfl
@[simp] theorem State.storeByte_faultCode (s : State) (b : Byte) : (s.storeByte b).faultCode = s.faultCode := rfl
@[simp] theorem State.storeByte_faultFrame (s : State) (b : Byte) : (s.storeByte b).faultFrame = s.faultFrame := rfl
@[simp] theorem State.storeByte_faultPid (s : State) (b : Byte) : (s.storeByte b).faultPid = s.faultPid := rfl
@[simp] theorem State.storeByte_frameCnt (s : State) (b : Byte) : (s.storeByte b).frameCnt = s.frameCnt := rfl
@[simp] theorem State.storeByte_byteCnt (s : State) (b : Byte) : (s.storeByte b).byteCnt = s.byteCnt + 1 := rfl
@[simp] theorem State.storeByte_fb (s : State) (b : Byte) : (s.storeByte b).fb = s.fb.write s.byteCnt.val b := rfl
@[simp] theorem State.storeByte_crc (s : State) (b : Byte) : (s.storeByte b).crc = s.crc := rfl
@[simp] theorem State.storeByte_chSel (s : State) (b : Byte) : (s.storeByte b).chSel = s.chSel := rfl
@[simp] theorem State.storeByte_mode (s : State) (b : Byte) : (s.storeByte b).mode = s.mode := rfl
@[simp] theorem State.storeByte_ch (s : State) (b : Byte) : (s.storeByte b).ch = s.ch := rfl
@[simp] theorem State.storeByte_pending (s : State) (b : Byte) : (s.storeByte b).pending = s.pending := rfl
@[simp] theorem State.storeByte_ev (s : State) (b : Byte) : (s.storeByte b).ev = s.ev := rfl
@[simp] theorem State.storeByte_resp (s : State) (b : Byte) : (s.storeByte b).resp = s.resp := rfl

/-! ## `State.countFrame` -/

@[simp] theorem State.countFrame_run (s : State) : s.countFrame.run = s.run := rfl
@[simp] theorem State.countFrame_faultCode (s : State) : s.countFrame.faultCode = s.faultCode := rfl
@[simp] theorem State.countFrame_faultFrame (s : State) : s.countFrame.faultFrame = s.faultFrame := rfl
@[simp] theorem State.countFrame_faultPid (s : State) : s.countFrame.faultPid = s.faultPid := rfl
@[simp] theorem State.countFrame_frameCnt (s : State) : s.countFrame.frameCnt = s.frameCnt + 1#32 := rfl
@[simp] theorem State.countFrame_byteCnt (s : State) : s.countFrame.byteCnt = s.byteCnt := rfl
@[simp] theorem State.countFrame_fb (s : State) : s.countFrame.fb = s.fb := rfl
@[simp] theorem State.countFrame_crc (s : State) : s.countFrame.crc = s.crc := rfl
@[simp] theorem State.countFrame_chSel (s : State) : s.countFrame.chSel = s.chSel := rfl
@[simp] theorem State.countFrame_mode (s : State) : s.countFrame.mode = s.mode := rfl
@[simp] theorem State.countFrame_ch (s : State) : s.countFrame.ch = s.ch := rfl
@[simp] theorem State.countFrame_pending (s : State) : s.countFrame.pending = s.pending := rfl
@[simp] theorem State.countFrame_ev (s : State) : s.countFrame.ev = s.ev := rfl
@[simp] theorem State.countFrame_resp (s : State) : s.countFrame.resp = s.resp := rfl

/-! ## `State.raiseFault` -/

@[simp] theorem State.raiseFault_run (s : State) (code : Cause) (p : Pid) : (s.raiseFault code p).run = .fault := rfl
@[simp] theorem State.raiseFault_faultCode (s : State) (code : Cause) (p : Pid) :
    (s.raiseFault code p).faultCode = some code := rfl
@[simp] theorem State.raiseFault_faultFrame (s : State) (code : Cause) (p : Pid) :
    (s.raiseFault code p).faultFrame = s.frameCnt := rfl
@[simp] theorem State.raiseFault_faultPid (s : State) (code : Cause) (p : Pid) :
    (s.raiseFault code p).faultPid = p := rfl
@[simp] theorem State.raiseFault_frameCnt (s : State) (code : Cause) (p : Pid) :
    (s.raiseFault code p).frameCnt = s.frameCnt := rfl
@[simp] theorem State.raiseFault_byteCnt (s : State) (code : Cause) (p : Pid) :
    (s.raiseFault code p).byteCnt = s.byteCnt := rfl
@[simp] theorem State.raiseFault_fb (s : State) (code : Cause) (p : Pid) : (s.raiseFault code p).fb = s.fb := rfl
@[simp] theorem State.raiseFault_crc (s : State) (code : Cause) (p : Pid) : (s.raiseFault code p).crc = s.crc := rfl
@[simp] theorem State.raiseFault_chSel (s : State) (code : Cause) (p : Pid) :
    (s.raiseFault code p).chSel = s.chSel := rfl
@[simp] theorem State.raiseFault_mode (s : State) (code : Cause) (p : Pid) : (s.raiseFault code p).mode = s.mode := rfl
@[simp] theorem State.raiseFault_ch (s : State) (code : Cause) (p : Pid) : (s.raiseFault code p).ch = s.ch := rfl
@[simp] theorem State.raiseFault_pending (s : State) (code : Cause) (p : Pid) :
    (s.raiseFault code p).pending = s.pending := rfl
@[simp] theorem State.raiseFault_ev (s : State) (code : Cause) (p : Pid) :
    (s.raiseFault code p).ev = s.ev ++ [.fault code s.frameCnt p] := rfl
@[simp] theorem State.raiseFault_resp (s : State) (code : Cause) (p : Pid) : (s.raiseFault code p).resp = s.resp := rfl

/-! ## `State.resetAll` -/

@[simp] theorem State.resetAll_run (s : State) : s.resetAll.run = .run := rfl
@[simp] theorem State.resetAll_faultCode (s : State) : s.resetAll.faultCode = none := rfl
@[simp] theorem State.resetAll_faultFrame (s : State) : s.resetAll.faultFrame = 0#32 := rfl
@[simp] theorem State.resetAll_faultPid (s : State) : s.resetAll.faultPid = 0#13 := rfl
@[simp] theorem State.resetAll_frameCnt (s : State) : s.resetAll.frameCnt = 0#32 := rfl
@[simp] theorem State.resetAll_byteCnt (s : State) : s.resetAll.byteCnt = 0 := rfl
@[simp] theorem State.resetAll_fb (s : State) : s.resetAll.fb = [] := rfl
@[simp] theorem State.resetAll_crc (s : State) : s.resetAll.crc = 0xFFFFFFFF#32 := rfl
@[simp] theorem State.resetAll_chSel (s : State) : s.resetAll.chSel = 0#13 := rfl
@[simp] theorem State.resetAll_mode (s : State) : s.resetAll.mode = [] := rfl
@[simp] theorem State.resetAll_ch (s : State) : s.resetAll.ch = [] := rfl
@[simp] theorem State.resetAll_pending (s : State) : s.resetAll.pending = s.pending := rfl
@[simp] theorem State.resetAll_ev (s : State) : s.resetAll.ev = s.ev := rfl
@[simp] theorem State.resetAll_resp (s : State) : s.resetAll.resp = s.resp := rfl

/-! ## `State.consume` -/

@[simp] theorem State.consume_run (s : State) : s.consume.run = s.run := rfl
@[simp] theorem State.consume_faultCode (s : State) : s.consume.faultCode = s.faultCode := rfl
@[simp] theorem State.consume_faultFrame (s : State) : s.consume.faultFrame = s.faultFrame := rfl
@[simp] theorem State.consume_faultPid (s : State) : s.consume.faultPid = s.faultPid := rfl
@[simp] theorem State.consume_frameCnt (s : State) : s.consume.frameCnt = s.frameCnt := rfl
@[simp] theorem State.consume_byteCnt (s : State) : s.consume.byteCnt = s.byteCnt := rfl
@[simp] theorem State.consume_fb (s : State) : s.consume.fb = s.fb := rfl
@[simp] theorem State.consume_crc (s : State) : s.consume.crc = s.crc := rfl
@[simp] theorem State.consume_chSel (s : State) : s.consume.chSel = s.chSel := rfl
@[simp] theorem State.consume_mode (s : State) : s.consume.mode = s.mode := rfl
@[simp] theorem State.consume_ch (s : State) : s.consume.ch = s.ch := rfl
@[simp] theorem State.consume_pending (s : State) : s.consume.pending = s.pending.tail := rfl
@[simp] theorem State.consume_ev (s : State) : s.consume.ev = s.ev := rfl
@[simp] theorem State.consume_resp (s : State) : s.consume.resp = s.resp := rfl

/-! ## Reads of the channel file after each update that leaves it alone -/

@[simp] theorem State.emit_modeOf (s : State) (es : List Event) (q : Pid) : (s.emit es).modeOf q = s.modeOf q := rfl
@[simp] theorem State.emit_chan (s : State) (es : List Event) (q : Pid) : (s.emit es).chan q = s.chan q := rfl
@[simp] theorem State.respond_modeOf (s : State) (v : Word) (q : Pid) : (s.respond v).modeOf q = s.modeOf q := rfl
@[simp] theorem State.respond_chan (s : State) (v : Word) (q : Pid) : (s.respond v).chan q = s.chan q := rfl
@[simp] theorem State.setMode_chan (s : State) (p : Pid) (m : Mode) (q : Pid) : (s.setMode p m).chan q = s.chan q := rfl
@[simp] theorem State.setChan_modeOf (s : State) (p : Pid) (c : Chan) (q : Pid) : (s.setChan p c).modeOf q = s.modeOf q := rfl
@[simp] theorem State.storeByte_modeOf (s : State) (b : Byte) (q : Pid) : (s.storeByte b).modeOf q = s.modeOf q := rfl
@[simp] theorem State.storeByte_chan (s : State) (b : Byte) (q : Pid) : (s.storeByte b).chan q = s.chan q := rfl
@[simp] theorem State.countFrame_modeOf (s : State) (q : Pid) : s.countFrame.modeOf q = s.modeOf q := rfl
@[simp] theorem State.countFrame_chan (s : State) (q : Pid) : s.countFrame.chan q = s.chan q := rfl
@[simp] theorem State.raiseFault_modeOf (s : State) (code : Cause) (p : Pid) (q : Pid) : (s.raiseFault code p).modeOf q = s.modeOf q := rfl
@[simp] theorem State.raiseFault_chan (s : State) (code : Cause) (p : Pid) (q : Pid) : (s.raiseFault code p).chan q = s.chan q := rfl
@[simp] theorem State.consume_modeOf (s : State) (q : Pid) : s.consume.modeOf q = s.modeOf q := rfl
@[simp] theorem State.consume_chan (s : State) (q : Pid) : s.consume.chan q = s.chan q := rfl
@[simp] theorem State.resetAll_modeOf (s : State) (q : Pid) : s.resetAll.modeOf q = .off := rfl
@[simp] theorem State.resetAll_chan (s : State) (q : Pid) : s.resetAll.chan q = Chan.idle := rfl

end Sys2Proof.Machine
end

