-- ==== Sys2Proof/Laws/Table.lean ====
section
/-! SUPPORT. The laws of the canonical tables, of the frame buffer and of the channel file: a read after a write, every
other key untouched, the canonical form and the key range kept. -/

namespace Sys2Proof.Machine

variable {α : Type} [DecidableEq α] (d : α)

/-- Writing a key leaves every other key alone, in any table. -/
theorem Table.read_write_ne (t : List (Nat × α)) {k j : Nat} (v : α) (h : j ≠ k) :
    Table.read d (Table.write d t k v) j = Table.read d t j := by
  induction t with
  | nil => by_cases hv : v = d <;> simp [Table.write, Table.read, hv, h.symm]
  | cons e rest ih =>
    by_cases h1 : k < e.1
    · by_cases hv : v = d <;> simp [Table.write, Table.read, h1, hv, h.symm]
    · by_cases h2 : k = e.1
      · have h3 : ¬ e.1 = j := fun x => h (x ▸ h2.symm)
        by_cases hv : v = d <;> simp [Table.write, Table.read, ← h2, hv, h.symm]
      · simp [Table.write, Table.read, h1, h2, ih]

theorem Table.wf_cons {e : Nat × α} {rest : List (Nat × α)} :
    Table.wf d (e :: rest) = true ↔ e.2 ≠ d ∧ (∀ x ∈ rest, e.1 < x.1) ∧ Table.wf d rest = true := by
  simp [Table.wf, and_assoc]

omit [DecidableEq α] in
/-- A key below every listed key is not listed. -/
theorem Table.read_of_lt (t : List (Nat × α)) (k : Nat) (h : ∀ e ∈ t, k < e.1) : Table.read d t k = d := by
  induction t with
  | nil => rfl
  | cons e rest ih =>
    have h1 := h e (by simp)
    have h2 : ¬ e.1 = k := by omega
    simp [Table.read, h2, ih (fun x hx => h x (by simp [hx]))]

/-- A read of the key just written gives the value written. -/
theorem Table.read_write_same (t : List (Nat × α)) (k : Nat) (v : α) (h : Table.wf d t = true) :
    Table.read d (Table.write d t k v) k = v := by
  induction t with
  | nil => by_cases hv : v = d <;> simp [Table.write, Table.read, hv]
  | cons e rest ih =>
    obtain ⟨_, hlt, hw⟩ := (Table.wf_cons d).mp h
    by_cases h1 : k < e.1
    · by_cases hv : v = d
      · have : ¬ e.1 = k := by omega
        simp [Table.write, Table.read, h1, hv, this,
          Table.read_of_lt d rest k (fun x hx => by have := hlt x hx; omega)]
      · simp [Table.write, Table.read, h1, hv]
    · by_cases h2 : k = e.1
      · by_cases hv : v = d
        · simp [Table.write, h2, hv, Table.read_of_lt d rest e.1 hlt]
        · simp [Table.write, Table.read, h2, hv]
      · have h3 : ¬ e.1 = k := fun x => h2 x.symm
        simp [Table.write, Table.read, h1, h2, h3, ih hw]

/-- What a write lists was listed before, or is the entry written. -/
theorem Table.mem_write (t : List (Nat × α)) (k : Nat) (v : α) {x : Nat × α} (h : x ∈ Table.write d t k v) :
    x ∈ t ∨ x = (k, v) := by
  induction t with
  | nil => by_cases hv : v = d <;> simp_all [Table.write]
  | cons e rest ih =>
    by_cases h1 : k < e.1
    · by_cases hv : v = d
      · simp_all [Table.write]
      · simp [Table.write, h1, hv] at h; simp; tauto
    · by_cases h2 : k = e.1
      · by_cases hv : v = d
        · simp [Table.write, h2, hv] at h; simp [h]
        · simp [Table.write, h2, hv] at h; simp [h2]; tauto
      · simp [Table.write, h1, h2] at h
        rcases h with h | h
        · simp [h]
        · rcases ih h with h | h <;> simp [h]

/-- A write keeps the canonical form. -/
theorem Table.wf_write (t : List (Nat × α)) (k : Nat) (v : α) (h : Table.wf d t = true) :
    Table.wf d (Table.write d t k v) = true := by
  induction t with
  | nil => by_cases hv : v = d <;> simp [Table.write, Table.wf, hv]
  | cons e rest ih =>
    obtain ⟨he, hlt, hw⟩ := (Table.wf_cons d).mp h
    by_cases h1 : k < e.1
    · by_cases hv : v = d
      · simpa [Table.write, h1, hv] using h
      · simp only [Table.write, h1, hv, if_true, if_false]
        refine (Table.wf_cons d).mpr ⟨hv, ?_, h⟩
        intro x hx
        rcases List.mem_cons.mp hx with rfl | hx
        · exact h1
        · have := hlt x hx; simp only; omega
    · by_cases h2 : k = e.1
      · by_cases hv : v = d
        · simpa [Table.write, h2, hv] using hw
        · simp only [Table.write, h2, hv, lt_irrefl, if_true, if_false]
          exact (Table.wf_cons d).mpr ⟨hv, hlt, hw⟩
      · simp only [Table.write, h1, h2, if_false]
        refine (Table.wf_cons d).mpr ⟨he, ?_, ih hw⟩
        intro x hx
        rcases Table.mem_write d rest k v hx with hx | rfl
        · exact hlt x hx
        · simp only; omega

/-- A write below a bound keeps the keys below it. -/
theorem Table.range_write (t : List (Nat × α)) (k n : Nat) (v : α) (hk : k < n) (h : ∀ e ∈ t, e.1 < n) :
    ∀ e ∈ Table.write d t k v, e.1 < n := by
  intro e he
  rcases Table.mem_write d t k v he with he | rfl
  · exact h e he
  · exact hk

/-- Writing what is read there changes nothing. -/
theorem Table.write_read (t : List (Nat × α)) (k : Nat) (h : Table.wf d t = true) :
    Table.write d t k (Table.read d t k) = t := by
  induction t with
  | nil => simp [Table.write, Table.read]
  | cons e rest ih =>
    obtain ⟨he, hlt, hw⟩ := (Table.wf_cons d).mp h
    by_cases h1 : k < e.1
    · have h2 : ¬ e.1 = k := by omega
      simp [Table.write, Table.read, h1, h2, Table.read_of_lt d rest k (fun x hx => by have := hlt x hx; omega)]
    · by_cases h2 : k = e.1
      · subst h2; simp [Table.write, Table.read, he]
      · have h3 : ¬ e.1 = k := fun x => h2 x.symm
        simp [Table.write, Table.read, h1, h2, h3, ih hw]

/-! ## The frame buffer -/

theorem Memory.read_write_same (m : Memory) (a : Nat) (b : Byte) (h : m.wf = true) : (m.write a b).read a = b :=
  Table.read_write_same _ m a b h

theorem Memory.read_write_ne (m : Memory) {a j : Nat} (b : Byte) (h : j ≠ a) : (m.write a b).read j = m.read j :=
  Table.read_write_ne _ m b h

/-- Every write keeps the canonical form of the memory. -/
theorem Memory.wf_write (m : Memory) (a : Nat) (b : Byte) (h : m.wf = true) : (m.write a b).wf = true :=
  Table.wf_write _ m a b h

theorem Memory.wf_reset : State.reset.fb.wf = true := rfl

@[simp] theorem Memory.length_readBytes (m : Memory) (a n : Nat) : (m.readBytes a n).length = n := by
  simp [Memory.readBytes]

/-- A range read depends only on the bytes of the range. -/
theorem Memory.readBytes_congr {m m' : Memory} {a n : Nat} (h : ∀ j, a ≤ j → j < a + n → m.read j = m'.read j) :
    m.readBytes a n = m'.readBytes a n := by
  simp only [Memory.readBytes]
  refine List.map_congr_left fun j hj => ?_
  rw [List.mem_range'_1] at hj
  exact h j hj.1 hj.2

/-- The entries of a memory built from bytes lie at or above its first address, and it is canonical. -/
theorem Memory.ofBytes_spec (bs : List Byte) : ∀ a, (∀ e ∈ Memory.ofBytes a bs, a ≤ e.1 ∧ e.1 < a + bs.length) ∧
    (Memory.ofBytes a bs).wf = true := by
  induction bs with
  | nil => intro a; simp [Memory.ofBytes, Memory.wf, Table.wf]
  | cons b rest ih =>
    intro a
    obtain ⟨h1, h2⟩ := ih (a + 1)
    by_cases hb : b = Memory.unlisted
    · simp only [Memory.ofBytes, hb, if_true, List.length_cons]
      exact ⟨fun e he => by have := h1 e he; omega, h2⟩
    · simp only [Memory.ofBytes, hb, if_false, List.length_cons]
      refine ⟨fun e he => ?_, (Table.wf_cons _).mpr ⟨hb, fun x hx => ?_, h2⟩⟩
      · rcases List.mem_cons.mp he with rfl | he
        · simp only; omega
        · have := h1 e he; omega
      · have := h1 x hx; simp only; omega

/-- A memory built from bytes reads as those bytes, and as unlisted before and after them. -/
theorem Memory.read_ofBytes (bs : List Byte) : ∀ a j, j < a + bs.length → a ≤ j →
    (Memory.ofBytes a bs).read j = bs.getD (j - a) Memory.unlisted := by
  induction bs with
  | nil => intro a j h h'; simp at h; omega
  | cons b rest ih =>
    intro a j h h'
    simp only [List.length_cons] at h
    have hsp := (Memory.ofBytes_spec rest (a + 1)).1
    by_cases hj : j = a
    · subst hj
      have hn : (Memory.ofBytes (j + 1) rest).read j = Memory.unlisted :=
        Table.read_of_lt _ _ _ (fun e he => by have := hsp e he; omega)
      by_cases hb : b = Memory.unlisted
      · simp only [Memory.ofBytes, hb, if_true]
        rw [hn]
        simp
      · simp only [Memory.ofBytes, hb, if_false]
        simp [Memory.read, Table.read]
    · have e : (b :: rest).getD (j - a) Memory.unlisted = rest.getD (j - (a + 1)) Memory.unlisted := by
        rw [show j - a = (j - (a + 1)) + 1 by omega]
        simp
      rw [e, ← ih (a + 1) j (by omega) (by omega)]
      by_cases hb : b = Memory.unlisted
      · simp only [Memory.ofBytes, hb, if_true]
      · simp only [Memory.ofBytes, hb, if_false]
        simp [Memory.read, Table.read, show a ≠ j from fun h => hj h.symm]

/-! ## The channel file -/

theorem Pid.toNat_ne {p q : Pid} (h : q ≠ p) : q.toNat ≠ p.toNat := fun e => h (BitVec.eq_of_toNat_eq e)

theorem State.chan_setChan_same (s : State) (p : Pid) (c : Chan) (h : Table.wf Chan.idle s.ch = true) :
    (s.setChan p c).chan p = c :=
  Table.read_write_same _ s.ch p.toNat c h

theorem State.chan_setChan_ne (s : State) {p q : Pid} (c : Chan) (h : q ≠ p) : (s.setChan p c).chan q = s.chan q :=
  Table.read_write_ne _ s.ch c (Pid.toNat_ne h)

theorem State.modeOf_setMode_same (s : State) (p : Pid) (m : Mode) (h : Table.wf .off s.mode = true) :
    (s.setMode p m).modeOf p = m :=
  Table.read_write_same _ s.mode p.toNat m h

theorem State.modeOf_setMode_ne (s : State) {p q : Pid} (m : Mode) (h : q ≠ p) :
    (s.setMode p m).modeOf q = s.modeOf q :=
  Table.read_write_ne _ s.mode m (Pid.toNat_ne h)

end Sys2Proof.Machine
end

