-- ==== Sys2Proof/Laws/Codec.lean ====
section
/-! SUPPORT. Words as numbers: every concatenation and every field of the formats as sums, quotients and remainders, so
that facts about encodings are linear arithmetic. -/

namespace Sys2Proof

/-- A concatenation as a number. -/
theorem toNat_cat {n m : Nat} (x : BitVec n) (y : BitVec m) : (x ++ y).toNat = x.toNat * 2 ^ m + y.toNat := by
  rw [BitVec.toNat_append, Nat.shiftLeft_eq, Nat.mul_comm, ← Nat.two_pow_add_eq_or_of_lt y.isLt]

/-- A field as a number. -/
theorem toNat_field {n : Nat} (x : BitVec n) (lo len : Nat) :
    (x.extractLsb' lo len).toNat = x.toNat / 2 ^ lo % 2 ^ len := by
  rw [BitVec.extractLsb'_toNat, Nat.shiftRight_eq_div_pow]

/-- A bit as a number. -/
theorem bit_eq {n : Nat} (x : BitVec n) (i : Nat) : x.getLsbD i = decide (x.toNat / 2 ^ i % 2 = 1) := by
  rw [BitVec.getLsbD, Nat.testBit_eq_decide_div_mod_eq]

theorem toNat_ofBool_lt (b : Bool) : b.toNat < 2 := by cases b <;> decide

/-- A bit recovered from its number. -/
theorem decide_toNat_eq_one (b : Bool) : decide (b.toNat = 1) = b := by cases b <;> rfl

/-- A bit read from the number of its word. -/
theorem getLsbD_of_toNat {n : Nat} {x : BitVec n} {i : Nat} {b : Bool} (h : x.toNat / 2 ^ i % 2 = b.toNat) :
    x.getLsbD i = b := by
  rw [bit_eq, h]; exact decide_toNat_eq_one b

/-- A field read from the number of its word. -/
theorem extractLsb'_of_toNat {n lo len : Nat} {x : BitVec n} {y : BitVec len}
    (h : x.toNat / 2 ^ lo % 2 ^ len = y.toNat) : x.extractLsb' lo len = y :=
  BitVec.eq_of_toNat_eq (by rw [toNat_field, h])

/-- A stream symbol as a number (R90). -/
theorem toNat_encodeSymbol (eos : Bool) (b : Byte) : (encodeSymbol eos b).toNat = eos.toNat * 2 ^ 8 + b.toNat := by
  unfold encodeSymbol
  rw [toNat_cat]
  simp only [BitVec.toNat_ofBool]

/-- The head of a section as a number (R86). -/
theorem toNat_encodeSection (t : Byte) (x : BitVec 4) (len : BitVec 12) :
    (encodeSection t x len).toNat = t.toNat * 2 ^ 16 + x.toNat * 2 ^ 12 + len.toNat := by
  unfold encodeSection
  repeat rw [toNat_cat]
  omega

/-- The header word of a class as a number (R81). -/
theorem toNat_encodeFrame (af pl pusi : Bool) (o : TsOperands) :
    (encodeFrame af pl pusi o).toNat =
      0x47 * 2 ^ 24 + o.tei.toNat * 2 ^ 23 + pusi.toNat * 2 ^ 22 + o.prio.toNat * 2 ^ 21 + o.pid.toNat * 2 ^ 8 +
        o.tsc.toNat * 2 ^ 6 + af.toNat * 2 ^ 5 + pl.toNat * 2 ^ 4 + o.cc.toNat := by
  unfold encodeFrame
  repeat rw [toNat_cat]
  simp only [BitVec.toNat_ofBool, BitVec.toNat_ofNat]
  omega

/-- The PES prefix as a number (R87). -/
theorem toNat_encodePes (h : PesPrefix) :
    (encodePes h).toNat =
      h.startCode.toNat * 2 ^ 48 + h.streamId.toNat * 2 ^ 40 + h.packetLength.toNat * 2 ^ 24 +
        h.ignoredSixHigh.toNat * 2 ^ 19 + h.dataAlignment.toNat * 2 ^ 18 + h.ignoredSixLow.toNat * 2 ^ 16 +
        h.ptsDtsFlags.toNat * 2 ^ 14 + h.ignoredSeven.toNat * 2 ^ 8 + h.headerDataLen.toNat := by
  unfold encodePes
  repeat rw [toNat_cat]
  simp only [BitVec.toNat_ofBool]
  omega

/-- A host command as a number (R91). -/
theorem toNat_encodeCommand (rw : Bool) (a : Byte) (d : Word) :
    (encodeCommand rw a d).toNat = rw.toNat * 2 ^ 40 + a.toNat * 2 ^ 32 + d.toNat := by
  unfold encodeCommand
  repeat rw [toNat_cat]
  simp only [BitVec.toNat_ofBool]
  omega

/-- The decoder reads the bits of a header word that the encoder wrote (R81). -/
theorem fields_encodeFrame (af pl pusi : Bool) (o : TsOperands) :
    (encodeFrame af pl pusi o).extractLsb' 24 8 = Config.sync ∧ (encodeFrame af pl pusi o).getLsbD 5 = af ∧
      (encodeFrame af pl pusi o).getLsbD 4 = pl ∧ (encodeFrame af pl pusi o).getLsbD 22 = pusi ∧
      tsOperandsOf (encodeFrame af pl pusi o) = o := by
  have e := toNat_encodeFrame af pl pusi o
  have := toNat_ofBool_lt af
  have := toNat_ofBool_lt pl
  have := toNat_ofBool_lt pusi
  have := toNat_ofBool_lt o.tei
  have := toNat_ofBool_lt o.prio
  have := o.pid.isLt
  have := o.tsc.isLt
  have := o.cc.isLt
  refine ⟨extractLsb'_of_toNat ?_, getLsbD_of_toNat ?_, getLsbD_of_toNat ?_, getLsbD_of_toNat ?_, ?_⟩
  · rw [e, show Config.sync.toNat = 0x47 from rfl]; omega
  · rw [e]; omega
  · rw [e]; omega
  · rw [e]; omega
  · cases o with | mk tei prio pid tsc cc =>
    simp only [tsOperandsOf, TsOperands.mk.injEq] at *
    refine ⟨getLsbD_of_toNat ?_, getLsbD_of_toNat ?_, extractLsb'_of_toNat ?_, extractLsb'_of_toNat ?_,
      extractLsb'_of_toNat ?_⟩ <;> (rw [e]; omega)

/-- The decoder reads the fields of a prefix that the encoder wrote (R87). -/
theorem fields_encodePes (h : PesPrefix) :
    pesPrefixOf (encodePes h) = h ∧ (encodePes h).getLsbD 15 = h.ptsDtsFlags.getLsbD 1 := by
  have e := toNat_encodePes h
  cases h with | mk a b c d x f g k l =>
  have := toNat_ofBool_lt x
  have := a.isLt
  have := b.isLt
  have := c.isLt
  have := d.isLt
  have := f.isLt
  have := g.isLt
  have := k.isLt
  have := l.isLt
  simp only at e
  constructor
  · simp only [pesPrefixOf, PesPrefix.mk.injEq]
    refine ⟨extractLsb'_of_toNat ?_, extractLsb'_of_toNat ?_, extractLsb'_of_toNat ?_, extractLsb'_of_toNat ?_,
      getLsbD_of_toNat ?_, extractLsb'_of_toNat ?_, extractLsb'_of_toNat ?_, extractLsb'_of_toNat ?_,
      extractLsb'_of_toNat ?_⟩ <;> (rw [e]; omega)
  · rw [bit_eq, bit_eq, e, decide_eq_decide]
    simp only
    omega

/-- The decoder reads the fields of a host command that the encoder wrote (R91). -/
theorem fields_encodeCommand (rw : Bool) (a : Byte) (d : Word) :
    (encodeCommand rw a d).getLsbD 40 = rw ∧ (encodeCommand rw a d).extractLsb' 32 8 = a ∧
      (encodeCommand rw a d).extractLsb' 0 32 = d := by
  have e := toNat_encodeCommand rw a d
  have := toNat_ofBool_lt rw
  have := a.isLt
  have := d.isLt
  refine ⟨getLsbD_of_toNat ?_, extractLsb'_of_toNat ?_, extractLsb'_of_toNat ?_⟩ <;> (rw [e]; omega)

/-- A bit as a number. -/
theorem toNat_getLsbD {n : Nat} (x : BitVec n) (i : Nat) : (x.getLsbD i).toNat = x.toNat / 2 ^ i % 2 := by
  rw [bit_eq]
  rcases Nat.mod_two_eq_zero_or_one (x.toNat / 2 ^ i) with h | h <;> simp [h]

/-! ### The encoder on the fields that the decoder reads -/

theorem encodeFrame_fields (h : Word) (hs : h.extractLsb' 24 8 = Config.sync) :
    encodeFrame (h.getLsbD 5) (h.getLsbD 4) (h.getLsbD 22) (tsOperandsOf h) = h := by
  apply BitVec.eq_of_toNat_eq
  have := congrArg BitVec.toNat hs
  rw [toNat_field, show Config.sync.toNat = 0x47 from rfl] at this
  rw [toNat_encodeFrame]
  simp only [tsOperandsOf, toNat_getLsbD, toNat_field]
  have := h.isLt
  omega

theorem encodePes_fields (w : BitVec 72) : encodePes (pesPrefixOf w) = w := by
  apply BitVec.eq_of_toNat_eq
  rw [toNat_encodePes]
  simp only [pesPrefixOf, toNat_getLsbD, toNat_field]
  have := w.isLt
  omega

theorem encodeCommand_fields (w : BitVec 41) :
    encodeCommand (w.getLsbD 40) (w.extractLsb' 32 8) (w.extractLsb' 0 32) = w := by
  apply BitVec.eq_of_toNat_eq
  rw [toNat_encodeCommand]
  simp only [toNat_getLsbD, toNat_field]
  have := w.isLt
  omega

theorem encodeSection_fields (w : BitVec 24) :
    encodeSection (w.extractLsb' 16 8) (w.extractLsb' 12 4) (w.extractLsb' 0 12) = w := by
  apply BitVec.eq_of_toNat_eq
  rw [toNat_encodeSection]
  simp only [toNat_field]
  have := w.isLt
  omega

/-! ### The decoder on a word of each format -/

theorem decodeWord_symbol (w : BitVec 9) : decodeWord 9 w.toNat = .ok (decodeSymbol w) :=
  (if_pos w.isLt).trans (by rw [BitVec.ofNat_toNat, BitVec.setWidth_eq])

theorem decodeWord_section (w : BitVec 24) : decodeWord 24 w.toNat = .ok (decodeSection w) :=
  (if_pos w.isLt).trans (by rw [BitVec.ofNat_toNat, BitVec.setWidth_eq])

theorem decodeWord_frame (w : Word) : decodeWord 32 w.toNat = .ok (decodeFrame w) :=
  (if_pos w.isLt).trans (by rw [BitVec.ofNat_toNat, BitVec.setWidth_eq])

theorem decodeWord_command (w : BitVec 41) : decodeWord 41 w.toNat = decodeCommand w :=
  (if_pos w.isLt).trans (by rw [BitVec.ofNat_toNat, BitVec.setWidth_eq])

theorem decodeWord_pes (w : BitVec 72) : decodeWord 72 w.toNat = .ok (decodePes w) :=
  (if_pos w.isLt).trans (by rw [BitVec.ofNat_toNat, BitVec.setWidth_eq])

theorem decodeTableWord_eq_some {n w : Nat} {i : Instr} : decodeTableWord n w = some i ↔ decodeWord n w = .ok i := by
  unfold decodeTableWord
  split <;> simp_all

namespace Machine

/-- The header word of the frame in FB as a number (R81). -/
theorem toNat_headerWord (fb : Memory) :
    (headerWord fb).toNat =
      (fb.read 0).toNat * 2 ^ 24 + (fb.read 1).toNat * 2 ^ 16 + (fb.read 2).toNat * 2 ^ 8 + (fb.read 3).toNat := by
  unfold headerWord
  repeat rw [toNat_cat]
  omega

/-- W3 of a section buffer as a number (R86). -/
theorem toNat_sectionWord (b : List Byte) :
    (sectionWord b).toNat = (byteAt b 0).toNat * 2 ^ 16 + (byteAt b 1).toNat * 2 ^ 8 + (byteAt b 2).toNat := by
  unfold sectionWord
  repeat rw [toNat_cat]
  omega

/-- P9 of a PES buffer as a number (R87). -/
theorem toNat_prefixWord (b : List Byte) :
    (prefixWord b).toNat =
      (byteAt b 0).toNat * 2 ^ 64 + (byteAt b 1).toNat * 2 ^ 56 + (byteAt b 2).toNat * 2 ^ 48 +
        (byteAt b 3).toNat * 2 ^ 40 + (byteAt b 4).toNat * 2 ^ 32 + (byteAt b 5).toNat * 2 ^ 24 +
        (byteAt b 6).toNat * 2 ^ 16 + (byteAt b 7).toNat * 2 ^ 8 + (byteAt b 8).toNat := by
  unfold prefixWord
  repeat rw [toNat_cat]
  omega

end Machine

end Sys2Proof
end

