-- ==== Sys2Proof/Laws/Section.lean ====
section
/-! SUPPORT. What the drain loop and the section reassembler can do: the loop's equation without its turn counter, the
byte sequences it emits and leaves, and the cases of `secSubmit`. -/

namespace Sys2Proof.Machine

theorem byteAt_append_left (s t : List Byte) (i : Nat) (h : i < s.length) : byteAt (s ++ t) i = byteAt s i := by
  simp [byteAt, List.getD_eq_getElem?_getD, List.getElem?_append_left h]

theorem byteAt_take (s : List Byte) (n i : Nat) (h : i < n) : byteAt (s.take n) i = byteAt s i := by
  simp [byteAt, List.getD_eq_getElem?_getD, h]

theorem sectionWord_append_left (s t : List Byte) (h : 3 ≤ s.length) : sectionWord (s ++ t) = sectionWord s := by
  simp [sectionWord, byteAt_append_left s t _ (show 0 < s.length by omega),
    byteAt_append_left s t _ (show 1 < s.length by omega), byteAt_append_left s t _ (show 2 < s.length by omega)]

theorem sectionLength_append_left (s t : List Byte) (h : 3 ≤ s.length) :
    sectionLength (s ++ t) = sectionLength s := by
  simp [sectionLength, sectionWord_append_left s t h]

theorem sectionLength_take (s : List Byte) (n : Nat) (h : 3 ≤ n) : sectionLength (s.take n) = sectionLength s := by
  simp [sectionLength, sectionWord, byteAt_take s n _ (show 0 < n by omega), byteAt_take s n _ (show 1 < n by omega),
    byteAt_take s n _ (show 2 < n by omega)]

theorem wholeLength_le (len : BitVec 12) : wholeLength len ≤ 4098 := by
  have := len.isLt; simp only [wholeLength]; omega

theorem three_le_wholeLength (len : BitVec 12) : 3 ≤ wholeLength len := by simp [wholeLength]

theorem length_secUnit (p : Pid) (len : BitVec 12) (c : Chan) :
    (secUnit p len c).1.buf.length = c.buf.length - wholeLength len := by simp [secUnit]

/-- More turns than the buffer has bytes change nothing. -/
theorem drainTurns_enough (p : Pid) (n : Nat) : ∀ m (c : Chan), c.buf.length ≤ n → c.buf.length ≤ m →
    drainTurns p n c = drainTurns p m c := by
  induction n with
  | zero =>
    intro m c h _
    have h0 : c.buf.length = 0 := by omega
    cases m <;> simp [drainTurns, h0]
  | succ n ih =>
    intro m c h h'
    cases m with
    | zero =>
      have h0 : c.buf.length = 0 := by omega
      simp [drainTurns, h0]
    | succ m =>
      have h3 := three_le_wholeLength (sectionLength c.buf)
      have hl := length_secUnit p (sectionLength c.buf) c
      by_cases h0 : c.buf.length = 0
      · simp [drainTurns, h0]
      · simp only [drainTurns]
        rw [ih m (secUnit p (sectionLength c.buf) c).1 (by omega) (by omega)]

/-- The drain loop of R198, one turn unfolded. -/
theorem drain_eq (p : Pid) (c : Chan) :
    drain p c =
      if c.buf.length = 0 then (c, [])
      else if byteAt c.buf 0 = Config.stuff then (secStuff c, [])
      else if c.buf.length < Config.secHdrMin then (c, [])
      else if c.buf.length < wholeLength (sectionLength c.buf) then (c, [])
      else ((drain p (secUnit p (sectionLength c.buf) c).1).1,
        (secUnit p (sectionLength c.buf) c).2 :: (drain p (secUnit p (sectionLength c.buf) c).1).2) := by
  have h3 := three_le_wholeLength (sectionLength c.buf)
  have hl := length_secUnit p (sectionLength c.buf) c
  obtain h0 | ⟨n, hn⟩ : c.buf.length = 0 ∨ ∃ n, c.buf.length = n + 1 := by
    cases c.buf.length <;> simp
  · simp [drain, drainTurns, h0]
  · rw [drain, hn]
    simp only [drainTurns]
    rw [drainTurns_enough p n (secUnit p (sectionLength c.buf) c).1.buf.length
      (secUnit p (sectionLength c.buf) c).1 (by omega) (Nat.le_refl _)]
    simp only [drain, hn]

/-- The ways a turn of the drain can go: nothing there or not enough, the stuffing marker, or a section. -/
theorem drain_cases (p : Pid) (c : Chan) :
    (drain p c = (c, []) ∧ secWaiting c.buf) ∨
    (c.buf.length ≠ 0 ∧ byteAt c.buf 0 = Config.stuff ∧ drain p c = (⟨.notStarted, []⟩, [])) ∨
    (byteAt c.buf 0 ≠ Config.stuff ∧ 3 ≤ c.buf.length ∧ wholeLength (sectionLength c.buf) ≤ c.buf.length ∧
      drain p c =
        ((drain p ⟨c.st, c.buf.drop (wholeLength (sectionLength c.buf))⟩).1,
          .sectionDone p (c.buf.take (wholeLength (sectionLength c.buf))) ::
            (drain p ⟨c.st, c.buf.drop (wholeLength (sectionLength c.buf))⟩).2)) := by
  by_cases h0 : c.buf.length = 0
  · exact .inl ⟨by rw [drain_eq]; simp [h0], .inl h0⟩
  by_cases h1 : byteAt c.buf 0 = Config.stuff
  · right; left; refine ⟨h0, h1, ?_⟩; rw [drain_eq]; simp [h0, h1, secStuff]
  by_cases h2 : c.buf.length < 3
  · exact .inl ⟨by rw [drain_eq]; simp [h0, h1, h2], .inr ⟨h1, .inl h2⟩⟩
  by_cases h3 : c.buf.length < wholeLength (sectionLength c.buf)
  · exact .inl ⟨by rw [drain_eq]; simp [h0, h1, h2, h3], .inr ⟨h1, .inr h3⟩⟩
  · right; right
    refine ⟨h1, by omega, by omega, ?_⟩
    conv_lhs => rw [drain_eq]
    simp [h0, h1, h2, h3, secUnit]

/-- Induction along the drain loop: each turn that goes on has a shorter buffer. -/
theorem drain_induction {motive : Chan → Prop} (step : ∀ c, (∀ c', c'.buf.length < c.buf.length → motive c') → motive c)
    (c : Chan) : motive c := by
  have h : ∀ n c, c.buf.length ≤ n → motive c := by
    intro n
    induction n with
    | zero => intro c hc; exact step c fun c' hc' => by omega
    | succ n ih => intro c hc; exact step c fun c' hc' => ih c' (by omega)
  exact h c.buf.length c (Nat.le_refl _)

/-- A drain leaves the channel with no section at its front, or idle (R206). -/
theorem drain_waiting (p : Pid) (c : Chan) :
    (drain p c).1 = ⟨.notStarted, []⟩ ∨ ((drain p c).1.st = c.st ∧ secWaiting (drain p c).1.buf) := by
  induction c using drain_induction with
  | step c ih =>
    rcases drain_cases p c with ⟨h, hw⟩ | ⟨_, _, h⟩ | ⟨_, h3, hW, h⟩
    · right; rw [h]; exact ⟨rfl, hw⟩
    · left; rw [h]
    · have := three_le_wholeLength (sectionLength c.buf)
      rw [h]
      exact ih _ (by simp; omega)

theorem secWaiting_length {b : List Byte} (h : secWaiting b) : b.length ≤ 4097 := by
  have := wholeLength_le (sectionLength b)
  rcases h with h | ⟨_, h | h⟩
  · omega
  · simp only [Config.secHdrMin] at h; omega
  · omega

/-- Every event of a drain is a section with its own declared length (R49). -/
theorem drain_events (p : Pid) (c : Chan) : ∀ e ∈ (drain p c).2,
    ∃ d, e = .sectionDone p d ∧ byteAt d 0 ≠ Config.stuff ∧ d.length = wholeLength (sectionLength d) := by
  induction c using drain_induction with
  | step c ih =>
    rcases drain_cases p c with ⟨h, _⟩ | ⟨_, _, h⟩ | ⟨h1, h3, hW, h⟩
    · rw [h]; simp
    · rw [h]; simp
    · have hw := three_le_wholeLength (sectionLength c.buf)
      rw [h]
      intro e he
      rcases List.mem_cons.mp he with rfl | he
      · refine ⟨_, rfl, ?_, ?_⟩
        · rwa [byteAt_take _ _ _ (by omega)]
        · rw [sectionLength_take _ _ hw]; simp; omega
      · exact ih ⟨c.st, c.buf.drop (wholeLength (sectionLength c.buf))⟩ (by simp; omega) e he

/-- The cases of `SecSubmit` (R192). -/
theorem secSubmit_cases (p : Pid) (pusi : Bool) (payload : List Byte) (c : Chan) :
    (secSubmit p pusi payload c = .error .pointerOverrun ∧ pusi = true) ∨
    (∃ b, secSubmit p pusi payload c = .ok (drain p ⟨.started, b⟩)) ∨
    (secSubmit p pusi payload c = .ok (c, []) ∧ pusi = false ∧ c.st ≠ .started) := by
  unfold secSubmit
  cases pusi
  · by_cases h : c.st = .started
    · right; left; exact ⟨c.buf ++ payload, by simp [h]⟩
    · right; right; simp [h]
  · by_cases h0 : payload.length = 0
    · left; simp [h0]
    · by_cases h1 : (byteAt payload 0).toNat + 1 > payload.length
      · left; simp [h0, h1]
      · right; left; exact ⟨payload.drop ((byteAt payload 0).toNat + 1), by simp [h0, h1]⟩

end Sys2Proof.Machine
end

