-- ==== Sys2Proof/Laws/Pes.lean ====
section
/-! SUPPORT. What the header parser can do: the cases of the decode attempt and of `pesSubmit`, and how the prefix word
shows the bytes it is made of. -/

namespace Sys2Proof.Machine

/-- header_data_length of the prefix is buffer byte 8 (R87). -/
theorem prefix_headerDataLen (b : List Byte) : (pesPrefixOf (prefixWord b)).headerDataLen = byteAt b 8 := by
  apply BitVec.eq_of_toNat_eq
  have := (byteAt b 8).isLt
  simp only [pesPrefixOf, toNat_field, toNat_prefixWord]
  omega

/-- Bit 15 of the prefix word is bit 7 of buffer byte 7 (R92). -/
theorem prefix_bit (b : List Byte) : (prefixWord b).getLsbD 15 = (byteAt b 7).getLsbD 7 := by
  have := (byteAt b 8).isLt
  have := (byteAt b 7).isLt
  simp only [bit_eq, toNat_prefixWord, decide_eq_decide]
  omega

/-- Bit 1 of pts_dts_flags is bit 7 of buffer byte 7 (R87). -/
theorem prefix_flag (b : List Byte) :
    (pesPrefixOf (prefixWord b)).ptsDtsFlags.getLsbD 1 = (byteAt b 7).getLsbD 7 := by
  rw [← prefix_bit]
  simp only [pesPrefixOf, bit_eq, toNat_field, decide_eq_decide]
  omega

/-- The ways a decode attempt can go (R230, R231, R235). -/
theorem tryDecode_cases (p : Pid) (c : Chan) :
    (tryDecode p c = .ok (c, []) ∧ pesWaiting c.buf) ∨
    (9 ≤ c.buf.length ∧ pesHeaderLength (byteAt c.buf 8) ≤ c.buf.length ∧ c.buf.length < 14 ∧
      (byteAt c.buf 7).getLsbD 7 = true ∧ tryDecode p c = .error .ptsOverrun) ∨
    (9 ≤ c.buf.length ∧ pesHeaderLength (byteAt c.buf 8) ≤ c.buf.length ∧
      ((byteAt c.buf 7).getLsbD 7 = true → 14 ≤ c.buf.length) ∧
      tryDecode p c = .ok (pesHeaderDone p (pesPrefixOf (prefixWord c.buf)) ((byteAt c.buf 7).getLsbD 7)
        (if (byteAt c.buf 7).getLsbD 7 then bufferPts c.buf else 0#33) c)) := by
  unfold tryDecode
  by_cases h1 : c.buf.length < 9
  · exact .inl ⟨by simp only [h1, if_true], .inl h1⟩
  by_cases h2 : c.buf.length < pesHeaderLength (byteAt c.buf 8)
  · exact .inl ⟨by simp only [h1, h2, if_true, if_false], .inr h2⟩
  right
  cases h3 : (byteAt c.buf 7).getLsbD 7
  · right
    exact ⟨by omega, by omega, by simp, by simp [h1, h2, pesHdrNopts]⟩
  · by_cases h4 : c.buf.length < 14
    · exact .inl ⟨by omega, by omega, h4, rfl, by simp [h1, h2, h4, pesHdrPts]⟩
    · exact .inr ⟨by omega, by omega, fun _ => by omega, by simp [h1, h2, h4, pesHdrPts]⟩

/-- The cases of `PesSubmit` (R222). -/
theorem pesSubmit_cases (p : Pid) (pusi : Bool) (payload : List Byte) (c : Chan) :
    (c.st = .headerParsed ∧ pesSubmit p pusi payload c = .ok (c, pesDelivery p payload)) ∨
    (c.st ≠ .headerParsed ∧ pusi = true ∧ pesSubmit p pusi payload c = tryDecode p ⟨.started, payload⟩) ∨
    (c.st = .started ∧ pusi = false ∧ pesSubmit p pusi payload c = tryDecode p ⟨.started, c.buf ++ payload⟩) ∨
    (c.st = .notStarted ∧ pusi = false ∧ pesSubmit p pusi payload c = .ok (c, [])) := by
  unfold pesSubmit
  cases hs : c.st <;> cases pusi <;> simp

end Sys2Proof.Machine
end

