-- ==== Sys2Proof/Laws/Frame.lean ====
section
/-! SUPPORT. What a frame can do: the three ways through the shared packet step, the frame step as the execution of the
decoded class, the cases of the channel stage, and where the bytes that the rules read come from. -/

namespace Sys2Proof.Machine

theorem Memory.readBytes_eq_map (m : Memory) (a n : Nat) :
    m.readBytes a n = (List.range n).map (fun k => m.read (a + k)) := by
  rw [Memory.readBytes, List.range'_eq_map_range, List.map_map]
  rfl

/-- The header word shows FB[0] as its sync field (R81). -/
theorem headerWord_sync (fb : Memory) : (headerWord fb).extractLsb' 24 8 = fb.read 0 := by
  have := (fb.read 0).isLt
  have := (fb.read 1).isLt
  have := (fb.read 2).isLt
  have := (fb.read 3).isLt
  apply extractLsb'_of_toNat
  rw [toNat_headerWord]
  omega

/-- The header word written back is the first four bytes of the frame (R165). -/
theorem wordBytes_headerWord (fb : Memory) : wordBytes (headerWord fb) = fb.readBytes 0 4 := by
  have := (fb.read 0).isLt
  have := (fb.read 1).isLt
  have := (fb.read 2).isLt
  have := (fb.read 3).isLt
  have e : fb.readBytes 0 4 = [fb.read 0, fb.read 1, fb.read 2, fb.read 3] := rfl
  rw [e]
  simp only [wordBytes, List.cons.injEq, and_true]
  refine ⟨?_, ?_, ?_, ?_⟩ <;> apply extractLsb'_of_toNat <;> rw [toNat_headerWord] <;> omega

/-- When the adaptation field fits, the frame has a body: at most 184 payload bytes and a field of its declared length
(R162, R164). -/
theorem frameBody_cases (af pl : Bool) (fb : Memory) :
    (frameBody af pl fb = none ∧ af = true ∧ (fb.read 4).toNat > 183) ∨
    (∃ b, frameBody af pl fb = some b ∧ b.payload.length ≤ 184 ∧ b.af.length = b.afLen.toNat ∧ b.afLen.toNat ≤ 183 ∧
      b.afPresent = af ∧ (af = false → b.afLen = 0#8) ∧ (pl = false → b.payload = [])) := by
  unfold frameBody payloadOffset Config.frameLen
  cases af
  · right
    refine ⟨_, if_neg (by simp), ?_⟩
    cases pl <;> simp
  · by_cases h : 5 + (fb.read 4).toNat > 188
    · left
      exact ⟨if_pos h, rfl, by omega⟩
    · right
      refine ⟨_, if_neg h, ?_⟩
      cases pl <;> simp <;> omega

/-- The ways through the packet step: the adaptation field overruns, the channel stage faults after the `PKT` event, or
the frame completes (R160). -/
theorem packetStep_cases (af pl pusi : Bool) (o : TsOperands) (s : State) :
    (frameBody af pl s.fb = none ∧ packetStep af pl pusi o s = s.raiseFault .adaptationOverrun o.pid) ∨
    (∃ body code, frameBody af pl s.fb = some body ∧
      channelStage (s.modeOf o.pid) o.pid pusi body.payload (s.chan o.pid) = .error code ∧
      packetStep af pl pusi o s = (s.emit [.pkt (packetOf af pl pusi o body s)]).raiseFault code o.pid) ∨
    (∃ body c es, frameBody af pl s.fb = some body ∧
      channelStage (s.modeOf o.pid) o.pid pusi body.payload (s.chan o.pid) = .ok (c, es) ∧
      packetStep af pl pusi o s =
        (((s.emit [.pkt (packetOf af pl pusi o body s)]).setChan o.pid c).emit es).countFrame) := by
  unfold packetStep
  cases hb : frameBody af pl s.fb with
  | none => exact .inl ⟨rfl, rfl⟩
  | some body =>
    right
    cases hc : channelStage (s.modeOf o.pid) o.pid pusi body.payload (s.chan o.pid) with
    | error code => exact .inl ⟨body, code, rfl, hc, by simp only [hc]; rfl⟩
    | ok ce => exact .inr ⟨body, ce.1, ce.2, rfl, hc, by simp only [hc]; rfl⟩

/-- The frame step executes the class that the header word decodes to (R160, R92). -/
theorem frameStep_eq_exec (s : State) : frameStep s = exec (decodeFrame (headerWord s.fb)) s := by
  unfold frameStep decodeFrame
  simp only
  split
  · generalize (headerWord s.fb).getLsbD 5 = a
    generalize (headerWord s.fb).getLsbD 4 = b
    generalize (headerWord s.fb).getLsbD 22 = c
    cases a <;> cases b <;> cases c <;> rfl
  · rfl

/-- In RUN the frame step enters FramingError or does the packet step of its header fields (R160). -/
theorem frameStep_cases (s : State) (hr : s.run = .run) :
    (s.fb.read 0 ≠ Config.sync ∧ frameStep s = .next (s.raiseFault .framingError 0#13)) ∨
    (s.fb.read 0 = Config.sync ∧
      frameStep s = .next (packetStep ((headerWord s.fb).getLsbD 5) ((headerWord s.fb).getLsbD 4)
        ((headerWord s.fb).getLsbD 22) (tsOperandsOf (headerWord s.fb)) s)) := by
  rw [← headerWord_sync]
  unfold frameStep
  simp only
  by_cases h : (headerWord s.fb).extractLsb' 24 8 = Config.sync
  · right
    refine ⟨h, ?_⟩
    rw [if_pos h]
    generalize (headerWord s.fb).getLsbD 5 = a
    generalize (headerWord s.fb).getLsbD 4 = b
    generalize (headerWord s.fb).getLsbD 22 = c
    cases a <;> cases b <;> cases c <;> exact if_pos hr
  · left
    refine ⟨h, ?_⟩
    rw [if_neg h]
    exact if_pos hr

/-- What a frame does depends on the bytes 0 to 187 of FB only (R160). -/
theorem frameBody_congr (af pl : Bool) {m m' : Memory} (h : ∀ a, a < 188 → m.read a = m'.read a) :
    frameBody af pl m = frameBody af pl m' := by
  unfold frameBody payloadOffset Config.frameLen
  rw [h 4 (by omega)]
  cases af
  · cases pl
    · rfl
    · simp only [Bool.false_eq_true, if_false, if_true]
      rw [Memory.readBytes_congr (fun j _ hj => h j (by omega))]
  · by_cases hx : 5 + (m'.read 4).toNat > 188
    · exact (if_pos hx).trans (if_pos hx).symm
    · refine (if_neg hx).trans (Eq.trans ?_ (if_neg hx).symm)
      simp only [if_true]
      rw [Memory.readBytes_congr (fun j _ hj => h j (by omega))]
      cases pl
      · rfl
      · simp only [if_true]
        rw [Memory.readBytes_congr (a := 5 + (m'.read 4).toNat) (fun j _ hj => h j (by omega))]

theorem headerWord_congr {m m' : Memory} (h : ∀ a, a < 188 → m.read a = m'.read a) : headerWord m = headerWord m' := by
  rw [headerWord, headerWord, h 0 (by omega), h 1 (by omega), h 2 (by omega), h 3 (by omega)]

/-- Everything that IN.BYTE can do (R141, R144, R160). -/
theorem inByte_cases (b : Byte) (s : State) :
    (s.run ≠ .run ∧ exec (.inByte b) s = .next s) ∨
    (s.run = .run ∧ s.byteCnt.val < 187 ∧ exec (.inByte b) s = .next (s.storeByte b)) ∨
    (s.run = .run ∧ s.byteCnt.val = 187 ∧ (s.storeByte b).byteCnt = 0 ∧
      exec (.inByte b) s = frameStep (s.storeByte b)) := by
  by_cases hr : s.run = .run
  · right
    have := s.byteCnt.isLt
    by_cases hb : s.byteCnt.val < 187
    · left
      refine ⟨hr, hb, ?_⟩
      show execInByte b s = _
      rw [execInByte, if_pos hr, if_pos hb]
    · right
      refine ⟨hr, by omega, ?_, ?_⟩
      · show s.byteCnt + 1 = 0
        apply Fin.ext
        rw [Fin.val_add, show s.byteCnt.val = 187 by omega]
        rfl
      · show execInByte b s = _
        rw [execInByte, if_pos hr, if_neg hb]
  · left
    refine ⟨hr, ?_⟩
    show execInByte b s = _
    rw [execInByte, if_neg hr]

/-- What a step is, by what the environment presents (R11). -/
theorem step_cases (s : State) :
    (s.fetch = .idle ∧ step s = .next s) ∨
    (s.fetch = .reset ∧ step s = .next s.consume.resetAll) ∨
    (∃ i, s.fetch = .operation i ∧ step s = exec i s.consume) ∨
    (∃ r, s.fetch = .noOperation r ∧ step s = .next (s.consume.accessNothing r)) := by
  unfold step
  cases s.fetch with
  | idle => exact .inl ⟨rfl, rfl⟩
  | reset => exact .inr (.inl ⟨rfl, rfl⟩)
  | operation i => exact .inr (.inr (.inl ⟨i, rfl, rfl⟩))
  | noOperation r => exact .inr (.inr (.inr ⟨r, rfl, rfl⟩))

end Sys2Proof.Machine
end

