-- ==== Sys2Proof/Laws/Channel.lean ====
section
/-! SUPPORT. The channel stage against the invariant of Safety.lean: which records and which events the reassemblers can
leave, and that each operation on the state keeps the invariant. -/

namespace Sys2Proof.Machine

/-! ### Records and events of the channel stage -/

theorem idle_legal (m : Mode) : Chan.idle.Legal m := by cases m <;> rfl

theorem tryDecode_legal {p : Pid} {c c' : Chan} {es : List Event} (hst : c.st = .started)
    (h : tryDecode p c = .ok (c', es)) : c'.Legal .pes := by
  rcases tryDecode_cases p c with ⟨h', hw⟩ | ⟨_, _, _, _, h'⟩ | ⟨_, _, _, h'⟩ <;>
    rw [h'] at h <;> simp at h
  · rw [← h.1]
    simp [Chan.Legal, hst]
    exact hw
  · simp only [pesHeaderDone, Prod.mk.injEq] at h
    rw [← h.1]
    rfl

/-- The channel stage leaves a record that its mode allows (R206, R236). -/
theorem channelStage_legal {m : Mode} {p : Pid} {pusi : Bool} {payload : List Byte} {c c' : Chan} {es : List Event}
    (hc : c.Legal m) (h : channelStage m p pusi payload c = .ok (c', es)) : c'.Legal m := by
  cases m with
  | off =>
    simp [channelStage] at h
    rw [← h.1]
    exact hc
  | sec =>
    simp only [channelStage] at h
    rcases secSubmit_cases p pusi payload c with ⟨h', _⟩ | ⟨b, h'⟩ | ⟨h', _⟩ <;> rw [h'] at h <;> simp at h
    · rw [show c' = (drain p ⟨.started, b⟩).1 by rw [h]]
      rcases drain_waiting p ⟨.started, b⟩ with hd | ⟨h1, h2⟩
      · rw [hd]
        rfl
      · simp only at h1
        simp [Chan.Legal, h1]
        exact h2
    · rw [← h.1]
      exact hc
  | pes =>
    simp only [channelStage] at h
    rcases pesSubmit_cases p pusi payload c with ⟨_, h'⟩ | ⟨_, _, h'⟩ | ⟨_, _, h'⟩ | ⟨_, _, h'⟩ <;> rw [h'] at h
    · simp at h
      rw [← h.1]
      exact hc
    · exact tryDecode_legal rfl h
    · exact tryDecode_legal rfl h
    · simp at h
      rw [← h.1]
      exact hc

theorem tryDecode_error {p : Pid} {c : Chan} {code : Cause} (h : tryDecode p c = .error code) : code = .ptsOverrun := by
  rcases tryDecode_cases p c with ⟨h', _⟩ | ⟨_, _, _, _, h'⟩ | ⟨_, _, _, h'⟩ <;> rw [h'] at h <;> simp at h
  exact h.symm

/-- The causes that a channel stage can raise (R333, R334). -/
theorem channelStage_error {m : Mode} {p : Pid} {pusi : Bool} {payload : List Byte} {c : Chan} {code : Cause}
    (h : channelStage m p pusi payload c = .error code) :
    (m = .sec ∧ pusi = true ∧ code = .pointerOverrun) ∨ (m = .pes ∧ code = .ptsOverrun) := by
  cases m with
  | off => simp [channelStage] at h
  | sec =>
    simp only [channelStage] at h
    rcases secSubmit_cases p pusi payload c with ⟨h', hp⟩ | ⟨b, h'⟩ | ⟨h', _⟩ <;> rw [h'] at h <;> simp at h
    exact .inl ⟨rfl, hp, h.symm⟩
  | pes =>
    simp only [channelStage] at h
    rcases pesSubmit_cases p pusi payload c with ⟨_, h'⟩ | ⟨_, _, h'⟩ | ⟨_, _, h'⟩ | ⟨_, _, h'⟩ <;> rw [h'] at h
    · simp at h
    · exact .inr ⟨rfl, tryDecode_error h⟩
    · exact .inr ⟨rfl, tryDecode_error h⟩
    · simp at h

/-- Every event of a section submission is a whole section (R49). -/
theorem secSubmit_events {p : Pid} {pusi : Bool} {payload : List Byte} {c c' : Chan} {es : List Event}
    (h : secSubmit p pusi payload c = .ok (c', es)) :
    ∀ e ∈ es, ∃ d, e = .sectionDone p d ∧ byteAt d 0 ≠ Config.stuff ∧ d.length = wholeLength (sectionLength d) := by
  rcases secSubmit_cases p pusi payload c with ⟨h', _⟩ | ⟨b, h'⟩ | ⟨h', _⟩ <;> rw [h'] at h <;> simp at h
  · rw [show es = (drain p ⟨.started, b⟩).2 by rw [h]]
    exact drain_events p _
  · rw [h.2]
    simp

/-- The events of a decode attempt: a header whose timestamp is 0 unless flagged, and what lies beyond it (R231). -/
theorem tryDecode_events {p : Pid} {c c' : Chan} {es : List Event} (h : tryDecode p c = .ok (c', es)) :
    ∀ e ∈ es,
      (∃ h : PesHeader, e = .pesHdr h ∧ h.ptsValid = h.ptsDtsFlags.getLsbD 1 ∧ (h.ptsValid = false → h.pts = 0#33)) ∨
      (∃ d, e = .pesData p d ∧ 1 ≤ d.length ∧ d.length + pesHeaderLength (byteAt c.buf 8) = c.buf.length ∧
        9 ≤ c.buf.length) := by
  rcases tryDecode_cases p c with ⟨h', _⟩ | ⟨_, _, _, _, h'⟩ | ⟨h9, hl, _, h'⟩ <;> rw [h'] at h <;> simp at h
  · rw [h.2]
    simp
  · intro e he
    simp only [pesHeaderDone, Prod.mk.injEq] at h
    rw [← h.2] at he
    rcases List.mem_cons.mp he with rfl | he
    · left
      refine ⟨_, rfl, (prefix_flag c.buf).symm, ?_⟩
      intro hv
      simp only at hv
      simp [hv]
    · right
      unfold pesDelivery at he
      split at he <;> simp at he
      rename_i hgt
      refine ⟨_, he, hgt, ?_, h9⟩
      rw [prefix_headerDataLen, List.length_drop]
      omega

/-- Every event of a PES submission has the field ranges of R50 and R51. -/
theorem pesSubmit_events {p : Pid} {pusi : Bool} {payload : List Byte} {c c' : Chan} {es : List Event}
    (hp : payload.length ≤ 184) (hc : c.st = .started → pesWaiting c.buf)
    (h : pesSubmit p pusi payload c = .ok (c', es)) : ∀ e ∈ es, e.Legal := by
  rcases pesSubmit_cases p pusi payload c with ⟨_, h'⟩ | ⟨_, _, h'⟩ | ⟨hst, _, h'⟩ | ⟨_, _, h'⟩ <;> rw [h'] at h
  · simp at h
    intro e he
    rw [← h.2] at he
    unfold pesDelivery at he
    split at he <;> simp at he
    subst he
    exact ⟨by omega, by omega⟩
  · intro e he
    rcases tryDecode_events h e he with ⟨hd, rfl, h1, h2⟩ | ⟨d, rfl, h1, h2, _⟩
    · exact ⟨h1, h2⟩
    · exact ⟨h1, by simp at h2; omega⟩
  · intro e he
    rcases tryDecode_events h e he with ⟨hd, rfl, h1, h2⟩ | ⟨d, rfl, h1, h2, h3⟩
    · exact ⟨h1, h2⟩
    · refine ⟨h1, ?_⟩
      simp only [List.length_append, pesHeaderLength, Config.pesPrefixLen] at h2 h3
      rcases hc hst with hw | hw
      · have hw : c.buf.length < 9 := hw
        omega
      · by_cases h9 : c.buf.length < 9
        · omega
        · simp only [pesHeaderLength, Config.pesPrefixLen] at hw
          rw [byteAt_append_left _ _ _ (by omega)] at h2
          omega
  · simp at h
    rw [h.2]
    simp

/-- Every event of a channel stage is legal (R49 to R51), and none is an `END` or a `FAULT` (R47). -/
theorem channelStage_events {m : Mode} {p : Pid} {pusi : Bool} {payload : List Byte} {c c' : Chan} {es : List Event}
    (hc : c.Legal m) (hp : payload.length ≤ 184) (h : channelStage m p pusi payload c = .ok (c', es)) :
    ∀ e ∈ es, e.Legal := by
  cases m with
  | off =>
    simp [channelStage] at h
    rw [h.2]
    simp
  | sec =>
    intro e he
    obtain ⟨d, rfl, h1, h2⟩ := secSubmit_events h e he
    exact ⟨h1, h2⟩
  | pes => exact pesSubmit_events hp (by intro hs; simpa [Chan.Legal, hs] using hc) h

theorem channelStage_events_plain {m : Mode} {p : Pid} {pusi : Bool} {payload : List Byte} {c c' : Chan}
    {es : List Event} (h : channelStage m p pusi payload c = .ok (c', es)) :
    ∀ e ∈ es, (∀ r, e ≠ .endOfStream r) ∧ ∀ code frame pid, e ≠ .fault code frame pid := by
  have td : ∀ {c : Chan}, tryDecode p c = .ok (c', es) →
      ∀ e ∈ es, (∀ r, e ≠ .endOfStream r) ∧ ∀ code frame pid, e ≠ .fault code frame pid := by
    intro c h e he
    rcases tryDecode_events h e he with ⟨_, rfl, _⟩ | ⟨_, rfl, _⟩ <;> simp
  cases m with
  | off =>
    simp [channelStage] at h
    rw [h.2]
    simp
  | sec =>
    intro e he
    obtain ⟨d, rfl, _⟩ := secSubmit_events h e he
    simp
  | pes =>
    simp only [channelStage] at h
    rcases pesSubmit_cases p pusi payload c with ⟨_, h'⟩ | ⟨_, _, h'⟩ | ⟨_, _, h'⟩ | ⟨_, _, h'⟩ <;> rw [h'] at h
    · simp at h
      rw [← h.2]
      unfold pesDelivery
      split <;> simp
    · exact td h
    · exact td h
    · simp at h
      rw [h.2]
      simp

/-! ### Operations that keep the invariant -/

/-- The invariant does not speak of the ports, crc or ch_sel. -/
theorem State.Inv.of_ports {s t : State} (hi : s.Inv)
    (h : ∃ pending ev resp crc chSel,
      t = { s with pending := pending, ev := ev, resp := resp, crc := crc, chSel := chSel }) : t.Inv := by
  obtain ⟨_, _, _, _, _, rfl⟩ := h
  exact ⟨hi.fb_wf, hi.fb_range, hi.mode_wf, hi.mode_range, hi.ch_wf, hi.ch_range,
    ⟨hi.fault_ok.fault_iff, hi.fault_ok.no_fault, hi.fault_ok.framing_pid, hi.fault_ok.at_boundary⟩, hi.chan_legal⟩

theorem State.Inv.emit {s : State} (hi : s.Inv) (es : List Event) : (s.emit es).Inv := hi.of_ports ⟨_, _, _, _, _, rfl⟩

theorem State.Inv.raiseFault {s : State} (hi : s.Inv) (h0 : s.byteCnt = 0) {code : Cause} {p : Pid}
    (hc : code = .framingError → p = 0#13) : (s.raiseFault code p).Inv := by
  refine ⟨hi.fb_wf, hi.fb_range, hi.mode_wf, hi.mode_range, hi.ch_wf, hi.ch_range,
    ⟨by simp [State.raiseFault], by simp [State.raiseFault], ?_, fun _ => ⟨h0, rfl⟩⟩, hi.chan_legal⟩
  intro h
  simp [State.raiseFault] at h
  exact hc h

theorem State.Inv.setChan {s : State} (hi : s.Inv) {p : Pid} {c : Chan} (hc : c.Legal (s.modeOf p)) :
    (s.setChan p c).Inv := by
  refine ⟨hi.fb_wf, hi.fb_range, hi.mode_wf, hi.mode_range, Table.wf_write _ _ _ _ hi.ch_wf,
    Table.range_write _ _ _ _ _ p.isLt hi.ch_range,
    ⟨hi.fault_ok.fault_iff, hi.fault_ok.no_fault, hi.fault_ok.framing_pid, hi.fault_ok.at_boundary⟩, ?_⟩
  intro q
  by_cases hq : q = p
  · subst hq
    rw [State.chan_setChan_same _ _ _ hi.ch_wf]
    exact hc
  · rw [State.chan_setChan_ne _ _ hq]
    exact hi.chan_legal q

theorem State.Inv.storeByte {s : State} (hi : s.Inv) (hr : s.run = .run) (b : Byte) : (s.storeByte b).Inv := by
  refine ⟨Memory.wf_write _ _ _ hi.fb_wf, Table.range_write _ _ _ _ _ s.byteCnt.isLt hi.fb_range, hi.mode_wf,
    hi.mode_range, hi.ch_wf, hi.ch_range,
    ⟨hi.fault_ok.fault_iff, hi.fault_ok.no_fault, hi.fault_ok.framing_pid, ?_⟩, hi.chan_legal⟩
  intro h
  change s.run = .fault at h
  rw [hr] at h
  simp at h

end Sys2Proof.Machine
end

