-- ==== Sys2Proof/Laws/Crc.lean ====
section
/-! SUPPORT. The CRC register as a linear machine: a turn of the shift distributes over xor, so a table entry of a xor is
the xor of the entries, and a byte folded into a register can be split off. -/

namespace Sys2Proof.Machine

theorem crcShift_xor (c d : Word) : crcShift (c ^^^ d) = crcShift c ^^^ crcShift d := by
  have e : ((c ^^^ d) <<< 1) = (c <<< 1) ^^^ (d <<< 1) := by
    apply BitVec.eq_of_getLsbD_eq
    intro i hi
    simp only [BitVec.getLsbD_shiftLeft, BitVec.getLsbD_xor]
    by_cases h : i < 1 <;> simp [h, hi]
  unfold crcShift
  rw [e, BitVec.getLsbD_xor]
  cases c.getLsbD 31 <;> cases d.getLsbD 31 <;> simp
  · ac_rfl
  · ac_rfl
  · rw [show (c <<< 1 ^^^ Config.crcPoly ^^^ (d <<< 1 ^^^ Config.crcPoly)) =
      (c <<< 1 ^^^ d <<< 1) ^^^ (Config.crcPoly ^^^ Config.crcPoly) by ac_rfl]
    simp

theorem crcShifts_xor (n : Nat) : ∀ c d : Word, crcShifts n (c ^^^ d) = crcShifts n c ^^^ crcShifts n d := by
  induction n with
  | zero => intro c d; rfl
  | succ n ih => intro c d; simp only [crcShifts, crcShift_xor, ih]

/-- A register whose top bits are clear is only shifted. -/
theorem crcShifts_of_lt (n : Nat) : ∀ c : Word, c.toNat < 2 ^ (32 - n) → n ≤ 32 → crcShifts n c = c <<< n := by
  induction n with
  | zero => intro c _ _; simp [crcShifts]
  | succ n ih =>
    intro c h hn
    have hle : 2 ^ (32 - (n + 1)) ≤ 2 ^ 31 := Nat.pow_le_pow_right (by omega) (by omega)
    have hb : c.getLsbD 31 = false := by
      apply getLsbD_of_toNat
      rw [Nat.div_eq_of_lt (by omega)]
      rfl
    have hs : crcShift c = c <<< 1 := by rw [crcShift, hb]; rfl
    rw [crcShifts, hs, ih _ _ (by omega), ← BitVec.shiftLeft_add, Nat.add_comm 1 n]
    rw [BitVec.toNat_shiftLeft, Nat.shiftLeft_eq, Nat.mod_eq_of_lt (by omega)]
    calc c.toNat * 2 ^ 1 < 2 ^ (32 - (n + 1)) * 2 ^ 1 := Nat.mul_lt_mul_of_pos_right h (by decide)
      _ = 2 ^ (32 - n) := by rw [← Nat.pow_add]; congr 1; omega

/-- A register is its top byte followed by the others. -/
theorem word_split (c : Word) :
    c = (c.extractLsb' 24 8 ++ 0#24) ^^^ (c &&& 0x00FFFFFF#32) := by
  apply BitVec.eq_of_getLsbD_eq
  intro i hi
  rcases i with _|_|_|_|_|_|_|_|_|_|_|_|_|_|_|_|_|_|_|_|_|_|_|_|_|_|_|_|_|_|_|_|i
  all_goals first | omega | (rw [BitVec.getLsbD_xor, BitVec.getLsbD_append]; simp)

/-- The fold is eight turns on the register with the byte in its top bits (R121, R122). -/
theorem crcFold_eq_shifts (c : Word) (b : Byte) : crcFold c b = crcShifts 8 (c ^^^ (b ++ 0#24)) := by
  have hm : (c &&& 0x00FFFFFF#32).toNat < 2 ^ (32 - 8) := by
    rw [BitVec.toNat_and]
    exact Nat.lt_of_le_of_lt Nat.and_le_right (by decide)
  have hsh : (c &&& 0x00FFFFFF#32) <<< 8 = c <<< 8 := by
    apply BitVec.eq_of_getLsbD_eq
    intro i hi
    rcases i with _|_|_|_|_|_|_|_|_|_|_|_|_|_|_|_|_|_|_|_|_|_|_|_|_|_|_|_|_|_|_|_|i
    all_goals first | omega | simp
  have e : c ^^^ (b ++ 0#24) = ((c.extractLsb' 24 8 ^^^ b) ++ 0#24) ^^^ (c &&& 0x00FFFFFF#32) := by
    conv_lhs => rw [word_split c]
    apply BitVec.eq_of_getLsbD_eq
    intro i hi
    rcases i with _|_|_|_|_|_|_|_|_|_|_|_|_|_|_|_|_|_|_|_|_|_|_|_|_|_|_|_|_|_|_|_|i
    all_goals first
      | omega
      | (repeat rw [BitVec.getLsbD_xor]
         repeat rw [BitVec.getLsbD_append]
         simp [Bool.xor_comm])
  rw [e, crcShifts_xor, crcShifts_of_lt 8 _ hm (by omega), hsh]
  rfl

/-- The CRC of a concatenation continues from the CRC of its front (R123). -/
theorem crc32_append (m k : List Byte) : crc32 (m ++ k) = k.foldl crcFold (crc32 m) := by
  rw [crc32, List.foldl_append]
  rfl

end Sys2Proof.Machine
end

