-- ==== Sys2Proof/Laws/PerInstr.lean ====
section
/-! SUPPORT. Facts about every instruction as syntax, one lemma per constructor. -/

namespace Sys2Proof.Laws.EncodeFits

/-- The word of an instruction has no bit above the width that the opcode table gives its row (R80). -/
def Statement (i : Instr) : Prop := encode i < 2 ^ i.width

theorem inByte (b : Byte) : Statement (.inByte b) := BitVec.isLt _

theorem inEos (x : BitVec 8) : Statement (.inEos x) := BitVec.isLt _

theorem tsN (o : TsOperands) : Statement (.tsN o) := BitVec.isLt _

theorem tsNS (o : TsOperands) : Statement (.tsNS o) := BitVec.isLt _

theorem tsP (o : TsOperands) : Statement (.tsP o) := BitVec.isLt _

theorem tsPS (o : TsOperands) : Statement (.tsPS o) := BitVec.isLt _

theorem tsA (o : TsOperands) : Statement (.tsA o) := BitVec.isLt _

theorem tsAS (o : TsOperands) : Statement (.tsAS o) := BitVec.isLt _

theorem tsAP (o : TsOperands) : Statement (.tsAP o) := BitVec.isLt _

theorem tsAPS (o : TsOperands) : Statement (.tsAPS o) := BitVec.isLt _

theorem tsBad (sync : Byte) (ignored : BitVec 24) : Statement (.tsBad sync ignored) := BitVec.isLt _

theorem secUnit (tableId : Byte) (ignored : BitVec 4) (sectionLength : BitVec 12) :
    Statement (.secUnit tableId ignored sectionLength) := BitVec.isLt _

theorem secStuff : Statement .secStuff := BitVec.isLt _

theorem pesHdrPts (h : PesPrefix) : Statement (.pesHdrPts h) := BitVec.isLt _

theorem pesHdrNopts (h : PesPrefix) : Statement (.pesHdrNopts h) := BitVec.isLt _

theorem wrCtrl (data : Word) : Statement (.wrCtrl data) := BitVec.isLt _

theorem rdStatus (data : Word) : Statement (.rdStatus data) := BitVec.isLt _

theorem rdFrameCnt (data : Word) : Statement (.rdFrameCnt data) := BitVec.isLt _

theorem rdFaultInfo (data : Word) : Statement (.rdFaultInfo data) := BitVec.isLt _

theorem rdFaultPid (data : Word) : Statement (.rdFaultPid data) := BitVec.isLt _

theorem wrChSel (data : Word) : Statement (.wrChSel data) := BitVec.isLt _

theorem rdChSel (data : Word) : Statement (.rdChSel data) := BitVec.isLt _

theorem wrChMode (data : Word) : Statement (.wrChMode data) := BitVec.isLt _

theorem rdChMode (data : Word) : Statement (.rdChMode data) := BitVec.isLt _

theorem wrChCmd (data : Word) : Statement (.wrChCmd data) := BitVec.isLt _

theorem rdChState (data : Word) : Statement (.rdChState data) := BitVec.isLt _

theorem wrCrcInit (data : Word) : Statement (.wrCrcInit data) := BitVec.isLt _

theorem wrCrcData (data : Word) : Statement (.wrCrcData data) := BitVec.isLt _

theorem rdCrcValue (data : Word) : Statement (.rdCrcValue data) := BitVec.isLt _

end Sys2Proof.Laws.EncodeFits
end

