-- ==== Sys2Proof/Laws/Place.lean ====
section
/-! SUPPORT. What the step of a placed word is: the frame of a placed unit read back from FB, and the channel stage on
the whole unit (log entry 4). -/

namespace Sys2Proof.Machine

/-! ### Tables -/

section

variable {α : Type} (d : α)

/-- A key above every key of the first part is read from the second. -/
theorem Table.read_append_right (t r : List (Nat × α)) (k : Nat) (h : ∀ e ∈ t, e.1 < k) :
    Table.read d (t ++ r) k = Table.read d r k := by
  induction t with
  | nil => rfl
  | cons e rest ih =>
    have h1 : ¬ e.1 = k := by have := h e (by simp); omega
    simp [Table.read, h1, ih (fun x hx => h x (by simp [hx]))]

/-- A key below every key of the second part is read from the first. -/
theorem Table.read_append_left (t r : List (Nat × α)) (k : Nat) (h : ∀ e ∈ r, k < e.1) :
    Table.read d (t ++ r) k = Table.read d t k := by
  induction t with
  | nil => exact Table.read_of_lt d r k h
  | cons e rest ih => by_cases h1 : e.1 = k <;> simp [Table.read, h1, ih]

variable [DecidableEq α]

/-- A value other than the default is read back in any table. -/
theorem Table.read_write_value (t : List (Nat × α)) (k : Nat) {v : α} (hv : v ≠ d) :
    Table.read d (Table.write d t k v) k = v := by
  induction t with
  | nil => simp [Table.write, Table.read, hv]
  | cons e rest ih =>
    by_cases h1 : k < e.1
    · simp [Table.write, Table.read, h1, hv]
    · by_cases h2 : k = e.1
      · simp [Table.write, Table.read, h2, hv]
      · have h3 : ¬ e.1 = k := fun x => h2 x.symm
        simp [Table.write, Table.read, h1, h2, h3, ih]

/-- A second write of a key replaces the first, if that was not of the default. -/
theorem Table.write_write (t : List (Nat × α)) (k : Nat) {v : α} (v' : α) (hv : v ≠ d) :
    Table.write d (Table.write d t k v) k v' = Table.write d t k v' := by
  induction t with
  | nil => simp [Table.write, hv]
  | cons e rest ih =>
    by_cases h1 : k < e.1
    · simp [Table.write, h1, hv]
    · by_cases h2 : k = e.1
      · simp [Table.write, h2, hv]
      · simp [Table.write, h1, h2, ih]

/-- Two canonical parts, the keys of the first below those of the second, are canonical together. -/
theorem Table.wf_append (t r : List (Nat × α)) (ht : Table.wf d t = true) (hr : Table.wf d r = true)
    (h : ∀ x ∈ t, ∀ y ∈ r, x.1 < y.1) : Table.wf d (t ++ r) = true := by
  induction t with
  | nil => exact hr
  | cons e rest ih =>
    obtain ⟨he, hlt, hw⟩ := (Table.wf_cons d).mp ht
    refine (Table.wf_cons d).mpr ⟨he, fun x hx => ?_, ih hw fun x hx => h x (by simp [hx])⟩
    rcases List.mem_append.mp hx with hx | hx
    · exact hlt x hx
    · exact h e (by simp) x hx

end

theorem started_ne_idle (b : List Byte) : (⟨.started, b⟩ : Chan) ≠ Chan.idle := by simp [Chan.idle]

theorem State.chan_setChan_started (s : State) (p : Pid) (b : List Byte) :
    (s.setChan p ⟨.started, b⟩).chan p = ⟨.started, b⟩ :=
  Table.read_write_value _ _ _ (started_ne_idle b)

/-- A record written over a Started one stands as if it had been written alone. -/
theorem State.setChan_setChan_started (s : State) (p : Pid) (b : List Byte) (c : Chan) :
    (s.setChan p ⟨.started, b⟩).setChan p c = s.setChan p c := by
  simp only [State.setChan, Table.write_write _ _ _ c (started_ne_idle b)]

/-! ### The frame of a placed unit -/

/-- A frame's bytes as FB holds them after the last one: its head at 0 and its tail at the end of the frame. -/
theorem placed_frame_read (head tail : List Byte) (k : Nat) (hk : tail.length = k) (h0 : 1 ≤ k)
    (hh : head.length + k ≤ 188) :
    let fb := (Memory.ofBytes 0 head ++ Memory.ofBytes (188 - k) tail.dropLast).write 187 (byteAt tail (k - 1))
    (∀ j, j < head.length → fb.read j = byteAt head j) ∧ ∀ i, i < k → fb.read (188 - k + i) = byteAt tail i := by
  intro fb
  have sh := Memory.ofBytes_spec head 0
  have st := Memory.ofBytes_spec tail.dropLast (188 - k)
  simp only [List.length_dropLast] at st
  constructor
  · intro j hj
    have e : fb.read j = (Memory.ofBytes 0 head).read j :=
      (Memory.read_write_ne _ _ (by omega)).trans
        (Table.read_append_left _ _ _ _ fun e he => by have := st.1 e he; omega)
    rw [e, Memory.read_ofBytes head 0 j (by omega) (by omega)]
    rfl
  · intro i hi
    by_cases hl : i = k - 1
    · rw [hl, show 188 - k + (k - 1) = 187 by omega]
      exact Memory.read_write_same _ _ _ (Table.wf_append _ _ _ sh.2 st.2 fun x hx y hy => by
        have := sh.1 x hx; have := st.1 y hy; omega)
    · have e : fb.read (188 - k + i) = (Memory.ofBytes (188 - k) tail.dropLast).read (188 - k + i) :=
        (Memory.read_write_ne _ _ (by omega)).trans
          (Table.read_append_right _ _ _ _ fun e he => by have := sh.1 e he; omega)
      rw [e, Memory.read_ofBytes _ _ _ (by simp; omega) (by omega), show 188 - k + i - (188 - k) = i by omega]
      simp only [byteAt, List.getD_eq_getElem?_getD, List.getElem?_dropLast]
      rw [if_pos (by omega)]
      rfl

/-- The step of a placed unit: a TS.AP frame of PID 0 is completed, its `PKT` event is out, and the channel stage has
appended the rest of the unit, in a state `u` on which the frame step writes the channel stage's result and counts the
frame. -/
theorem step_placeUnit (s : State) (m : Mode) (unit : List Byte) (hm : m ≠ .off) (hu : 1 ≤ unit.length) :
    ∃ u : State, u.run = .run ∧ framePid u.fb = 0#13 ∧ u.modeOf 0#13 = m ∧ u.chan 0#13 = ⟨.started, unit⟩ ∧
      (∃ pkt, pkt.pid = 0#13 ∧ u.ev = s.ev ++ [.pkt pkt]) ∧
      ∀ c es, (if m = .sec then Except.ok (drain 0#13 ⟨.started, unit⟩) else tryDecode 0#13 ⟨.started, unit⟩) =
          .ok (c, es) →
        step (s.placeUnit m unit) = .next (u.commitChan 0#13 (.ok (c, es))).countFrame := by
  have hk : 1 ≤ min 14 unit.length := by omega
  have hk' : min 14 unit.length ≤ 14 := by omega
  have htl : (unit.drop (unit.length - min 14 unit.length)).length = min 14 unit.length := by simp; omega
  have happ := List.take_append_drop (unit.length - min 14 unit.length) unit
  generalize hkd : min 14 unit.length = k at *
  generalize hfd : unit.take (unit.length - k) = front at *
  generalize htd : unit.drop (unit.length - k) = tail at *
  have hw : wordBytes (encodeFrame true true false ⟨false, false, 0#13, 0#2, 0#4⟩) = [0x47#8, 0#8, 0#8, 0x30#8] := by
    decide
  have hr := placed_frame_read [0x47#8, 0#8, 0#8, 0x30#8, BitVec.ofNat 8 (183 - k)] tail k htl hk (by simp; omega)
  simp only at hr
  generalize hfb : (Memory.ofBytes 0 [0x47#8, 0#8, 0#8, 0x30#8, BitVec.ofNat 8 (183 - k)] ++
    Memory.ofBytes (188 - k) tail.dropLast).write 187 (byteAt tail (k - 1)) = fb at hr
  obtain ⟨hh, ht⟩ := hr
  have r0 : fb.read 0 = 0x47#8 := hh 0 (by simp)
  have r1 : fb.read 1 = 0#8 := hh 1 (by simp)
  have r2 : fb.read 2 = 0#8 := hh 2 (by simp)
  have r3 : fb.read 3 = 0x30#8 := hh 3 (by simp)
  have r4 : (fb.read 4).toNat = 183 - k := by
    rw [hh 4 (by simp)]
    simp only [byteAt, List.getD_eq_getElem?_getD, List.getElem?_cons_succ, List.getElem?_cons_zero, Option.getD_some,
      BitVec.toNat_ofNat]
    omega
  have hword : headerWord fb = 0x47000030#32 := by rw [headerWord, r0, r1, r2, r3]; decide
  have hops : tsOperandsOf 0x47000030#32 = ⟨false, false, 0#13, 0#2, 0#4⟩ := by decide
  have hbytes : fb.readBytes (188 - k) k = tail := by
    apply List.ext_getElem
    · simp [htl]
    · intro i h1 h2
      rw [htl] at h2
      simp only [Memory.readBytes, List.getElem_map, List.getElem_range', Nat.one_mul]
      rw [ht i h2]
      simp [byteAt, h2, htl]
  have hbody : frameBody true true fb =
      some ⟨true, fb.read 4, fb.readBytes 5 (fb.read 4).toNat, tail⟩ := by
    unfold frameBody payloadOffset Config.frameLen
    simp only [if_true, r4]
    rw [if_neg (by omega), show 5 + (183 - k) = 188 - k by omega, show 188 - (188 - k) = k by omega, hbytes]
  -- the state when the last byte is stored
  let v : State := { (s.setMode 0#13 m).setChan 0#13 ⟨.started, front⟩ with
    run := .run, faultCode := none, faultFrame := 0#32, faultPid := 0#13, fb := fb, byteCnt := 0 }
  have hstep : step (s.placeUnit m unit) = .next (packetStep true true false ⟨false, false, 0#13, 0#2, 0#4⟩ v) := by
    have e : step (s.placeUnit m unit) = frameStep v := by
      have hd : decodeSymbol (encodeSymbol false (byteAt tail (k - 1))) = .inByte (byteAt tail (k - 1)) := by
        have hb := (byteAt tail (k - 1)).isLt
        have e0 := toNat_encodeSymbol false (byteAt tail (k - 1))
        simp only [Bool.toNat_false] at e0
        simp only [decodeSymbol]
        rw [getLsbD_of_toNat (b := false) (by rw [e0]; simp; omega),
          extractLsb'_of_toNat (y := byteAt tail (k - 1)) (by rw [e0]; omega)]
        simp
      have hp : s.placeUnit m unit = ((s.setMode 0#13 m).setChan 0#13 ⟨.started, front⟩).placeFrame
          (Memory.ofBytes 0 [0x47#8, 0#8, 0#8, 0x30#8, BitVec.ofNat 8 (183 - k)] ++
            Memory.ofBytes (188 - k) tail.dropLast) (byteAt tail (k - 1)) := by
        simp only [State.placeUnit, hkd, hfd, htd, hw, List.cons_append, List.nil_append]
      have hf : (s.placeUnit m unit).fetch = .operation (.inByte (byteAt tail (k - 1))) := by
        rw [hp, ← hd]
        rfl
      have hc : (s.placeUnit m unit).consume.storeByte (byteAt tail (k - 1)) = v := by
        rw [hp]
        simp only [v, ← hfb, State.storeByte, State.consume, State.placeFrame, List.tail_cons]
        rw [show (187 : Fin 188) + 1 = 0 by decide]
        rfl
      have hr : (s.placeUnit m unit).consume.run = .run := by rw [hp]; rfl
      have hb : (s.placeUnit m unit).consume.byteCnt.val = 187 := by rw [hp]; rfl
      simp only [step, hf]
      rcases inByte_cases (byteAt tail (k - 1)) (s.placeUnit m unit).consume with ⟨h, _⟩ | ⟨_, h, _⟩ | ⟨_, _, _, h⟩
      · exact absurd hr h
      · omega
      · rw [h, hc]
    rw [e, frameStep_eq_exec]
    show exec (decodeFrame (headerWord fb)) v = _
    rw [hword, show decodeFrame 0x47000030#32 = .tsAP ⟨false, false, 0#13, 0#2, 0#4⟩ by decide]
    rfl
  have hmode : v.modeOf 0#13 = m := Table.read_write_value _ _ _ hm
  have hchan : v.chan 0#13 = ⟨.started, front⟩ := Table.read_write_value _ _ _ (started_ne_idle front)
  refine ⟨(v.emit [.pkt (packetOf true true false ⟨false, false, 0#13, 0#2, 0#4⟩
    ⟨true, fb.read 4, fb.readBytes 5 (fb.read 4).toNat, tail⟩ v)]).setChan 0#13 ⟨.started, unit⟩, rfl, ?_, hmode,
    State.chan_setChan_started _ _ _, ⟨_, rfl, rfl⟩, ?_⟩
  · show framePid fb = _
    rw [framePid, hword, hops]
  · intro c es hce
    have hcs : channelStage (v.modeOf 0#13) 0#13 false tail (v.chan 0#13) = .ok (c, es) := by
      rw [hmode, hchan, ← hce]
      cases m with
      | off => exact absurd rfl hm
      | sec => simp [channelStage, secSubmit, happ]
      | pes => simp [channelStage, pesSubmit, happ]
    rw [hstep, packetStep, show v.fb = fb from rfl, hbody]
    simp only [hcs, finishFrame, State.commitChan, State.setChan_setChan_started]

/-! ### The units that a word begins -/

/-- A placed section word is the front of its unit, which is exactly as long as that front declares (R86, R199). -/
theorem sectionUnit_front (x : BitVec 24) :
    decodeSection (sectionWord (sectionUnit x)) = decodeSection x ∧
      (sectionUnit x).length =
        (if decodeSection x = .secStuff then 1 else wholeLength (sectionLength (sectionUnit x))) := by
  by_cases h : x.extractLsb' 16 8 = Config.stuff
  · have e : decodeSection x = .secStuff := by simp [decodeSection, h]
    have e1 : sectionUnit x = [Config.stuff] := by simp [sectionUnit, h]
    rw [e, e1]
    decide
  · have e : decodeSection x = .secUnit (x.extractLsb' 16 8) (x.extractLsb' 12 4) (x.extractLsb' 0 12) := by
      simp [decodeSection, h]
    have e1 : sectionWord (sectionUnit x) = x := by
      apply BitVec.eq_of_toNat_eq
      rw [toNat_sectionWord]
      simp only [sectionUnit, h, if_false, byteAt, List.cons_append, List.nil_append, List.getD_cons_zero,
        List.getD_cons_succ, toNat_field]
      have := x.isLt
      omega
    rw [e1]
    refine ⟨rfl, ?_⟩
    rw [e, if_neg (by simp), sectionLength, e1]
    simp [sectionUnit, h, wholeLength]

/-- A placed PES word is the front of its unit, which holds the whole header, and the timestamp where one is flagged
(R87, R88). -/
theorem pesUnit_front (x : BitVec 72) :
    prefixWord (pesUnit x) = x ∧ pesHeaderLength (byteAt (pesUnit x) 8) ≤ (pesUnit x).length ∧
      ((byteAt (pesUnit x) 7).getLsbD 7 = true → 14 ≤ (pesUnit x).length) := by
  have hb : ∀ i, i < 9 → byteAt (pesUnit x) i = x.extractLsb' (8 * (8 - i)) 8 := by
    intro i hi
    simp only [byteAt, pesUnit, List.getD_eq_getElem?_getD]
    rw [List.getElem?_append_left (by simp; omega)]
    simp [hi]
  have hl : (pesUnit x).length = 9 + max (x.extractLsb' 0 8).toNat (if x.getLsbD 15 then 5 else 0) := by simp [pesUnit]
  have e7 : (byteAt (pesUnit x) 7).getLsbD 7 = x.getLsbD 15 := by
    rw [hb 7 (by omega), bit_eq, bit_eq, toNat_field, decide_eq_decide]
    omega
  refine ⟨?_, ?_, fun h => ?_⟩
  · have k : ∀ j, x.toNat % 2 ^ (8 * (j + 1)) =
        x.toNat % 2 ^ (8 * j) + 2 ^ (8 * j) * (x.toNat / 2 ^ (8 * j) % 2 ^ 8) := by
      intro j
      rw [show 8 * (j + 1) = 8 * j + 8 by omega, Nat.pow_add, Nat.mod_mul]
    have k8 := k 8
    rw [Nat.mod_eq_of_lt (by simpa using x.isLt)] at k8
    apply BitVec.eq_of_toNat_eq
    rw [toNat_prefixWord, hb 0 (by omega), hb 1 (by omega), hb 2 (by omega), hb 3 (by omega), hb 4 (by omega),
      hb 5 (by omega), hb 6 (by omega), hb 7 (by omega), hb 8 (by omega)]
    simp only [toNat_field]
    conv_rhs => rw [k8, k 7, k 6, k 5, k 4, k 3, k 2, k 1, k 0]
    simp [Nat.mod_one]
    ring
  · rw [hl, hb 8 (by omega)]
    simp [pesHeaderLength, Config.pesPrefixLen]
  · rw [hl]
    rw [e7] at h
    rw [h]
    simp
    omega

end Sys2Proof.Machine
end

