-- ==== Sys2Proof/Laws/Step.lean ====
section
/-! SUPPORT. What one step can do, said once: nothing, a reset, a host command, a discarded symbol, a stored byte, the end
of the stream, or a frame. -/

namespace Sys2Proof.Machine

/-- What a host command or an access that is no operation may change: crc, ch_sel, the value returned, and the mode and
the record of the selected PID (R260 to R272, R45). -/
structure HostEffect (s t : State) : Prop where
  same : t = { s with crc := t.crc, chSel := t.chSel, mode := t.mode, ch := t.ch, resp := t.resp }
  channels : (t.mode = s.mode ∧ t.ch = s.ch) ∨ (t.mode = s.mode ∧ t.ch = (s.resetChan s.chSel).ch) ∨
    (∃ m, t.mode = (s.setMode s.chSel m).mode ∧ t.ch = (s.resetChan s.chSel).ch)

theorem HostEffect.refl (s : State) : HostEffect s s := ⟨rfl, .inl ⟨rfl, rfl⟩⟩

theorem accessNothing_effect (s : State) (r : Reject) : HostEffect s (s.accessNothing r) := by
  cases r <;> exact ⟨rfl, .inl ⟨rfl, rfl⟩⟩

/-- A word of format REG decodes to a host command, and that command resets, or has no more than a host effect (R91,
R262). -/
theorem exec_command {w : BitVec 41} {i : Instr} (h : decodeCommand w = .ok i) (s : State) :
    (∃ d, i = .wrCtrl d ∧ d.getLsbD 0 = true ∧ exec i s = .next s.resetAll) ∨
    ((∀ d, i = .wrCtrl d → d.getLsbD 0 = false) ∧ (∀ b, i ≠ .inByte b) ∧ (∀ x, i ≠ .inEos x) ∧
      ∃ t, exec i s = .next t ∧ HostEffect s t) := by
  unfold decodeCommand at h
  split at h <;> simp only [Except.ok.injEq, reduceCtorEq] at h <;> subst h
  · generalize w.extractLsb' 0 32 = d
    cases hd : d.getLsbD 0
    · right
      refine ⟨?_, ?_, ?_, s, ?_, HostEffect.refl s⟩
      · intro d' e
        cases e
        exact hd
      · simp
      · simp
      · simp only [exec, execWrCtrl, hd]
        rfl
    · left
      refine ⟨d, rfl, hd, ?_⟩
      simp only [exec, execWrCtrl, hd]
      rfl
  all_goals right; refine ⟨by simp, by simp, by simp, ?_⟩
  case h_10 =>
    generalize w.extractLsb' 0 32 = d
    cases hd : d.getLsbD 0
    · exact ⟨s, by simp only [exec, execWrChCmd, hd]; rfl, HostEffect.refl s⟩
    · exact ⟨s.resetChan s.chSel, by simp only [exec, execWrChCmd, hd]; rfl, ⟨rfl, .inr (.inl ⟨rfl, rfl⟩)⟩⟩
  case h_8 => exact ⟨_, rfl, ⟨rfl, .inr (.inr ⟨_, rfl, rfl⟩)⟩⟩
  all_goals exact ⟨_, rfl, ⟨rfl, .inl ⟨rfl, rfl⟩⟩⟩

/-- The ways a step can go (R11, R141, R144, R146, R160, R262, R348, R360). -/
theorem step_effect (s : State) :
    (s.fetch = .idle ∧ step s = .next s) ∨
    ((s.fetch = .reset ∨ ∃ d, s.fetch = .operation (.wrCtrl d) ∧ d.getLsbD 0 = true) ∧
      step s = .next s.consume.resetAll) ∨
    (s.fetch ≠ .reset ∧ (∀ d, s.fetch = .operation (.wrCtrl d) → d.getLsbD 0 = false) ∧
      ∃ t, step s = .next t ∧ HostEffect s.consume t) ∨
    (s.run ≠ .run ∧ step s = .next s.consume) ∨
    (∃ b, s.fetch = .operation (.inByte b) ∧ s.run = .run ∧ s.byteCnt.val < 187 ∧
      step s = .next (s.consume.storeByte b)) ∨
    (∃ x, s.fetch = .operation (.inEos x) ∧ s.run = .run ∧
      step s =
        .next { s.consume.emit [.endOfStream (BitVec.ofNat 8 s.byteCnt.val)] with run := .done }) ∨
    (∃ b, s.fetch = .operation (.inByte b) ∧ s.run = .run ∧ s.byteCnt.val = 187 ∧
      (s.consume.storeByte b).byteCnt = 0 ∧ step s = frameStep (s.consume.storeByte b)) := by
  unfold step
  cases hp : s.pending with
  | nil =>
    have hf : s.fetch = .idle := by simp [State.fetch, hp]
    left
    rw [hf]
    exact ⟨rfl, rfl⟩
  | cons x rest =>
    right
    cases x with
    | resetPin =>
      have hf : s.fetch = .reset := by simp [State.fetch, hp]
      left
      rw [hf]
      exact ⟨.inl rfl, rfl⟩
    | command w =>
      cases hw : decodeCommand w with
      | error r =>
        have hf : s.fetch = .noOperation r := by simp [State.fetch, hp, hw]
        right
        left
        rw [hf]
        exact ⟨by simp, by simp, _, rfl, accessNothing_effect _ r⟩
      | ok i =>
        have hf : s.fetch = .operation i := by simp [State.fetch, hp, hw]
        rw [hf]
        rcases exec_command hw s.consume with ⟨d, rfl, hd, he⟩ | ⟨h1, _, _, t, he, ht⟩
        · left
          exact ⟨.inr ⟨d, rfl, hd⟩, he⟩
        · right
          left
          refine ⟨by simp, ?_, t, he, ht⟩
          intro d e
          simp only [Fetched.operation.injEq] at e
          exact h1 d e
    | input w =>
      have hf : s.fetch = .operation (decodeSymbol w) := by simp [State.fetch, hp]
      rw [hf]
      right
      right
      have hx : (∃ x, decodeSymbol w = .inEos x) ∨ ∃ b, decodeSymbol w = .inByte b := by
        unfold decodeSymbol
        split
        · exact .inl ⟨_, rfl⟩
        · exact .inr ⟨_, rfl⟩
      rcases hx with ⟨x, hx⟩ | ⟨b, hx⟩
      · rw [hx]
        by_cases hr : s.run = .run
        · right
          right
          left
          exact ⟨x, rfl, hr, if_pos hr⟩
        · left
          exact ⟨hr, if_neg hr⟩
      · rw [hx]
        rcases inByte_cases b s.consume with ⟨hr, he⟩ | ⟨hr, hb, he⟩ | ⟨hr, hb, h0, he⟩
        · exact .inl ⟨hr, he⟩
        · exact .inr (.inl ⟨b, rfl, hr, hb, he⟩)
        · exact .inr (.inr (.inr ⟨b, rfl, hr, hb, h0, he⟩))

end Sys2Proof.Machine
end

