-- ==== Sys2Proof/Tests/Slice0.lean ====
section
/-! SUPPORT. Tests of the model. Every expected value is from spec/95_test_vectors.md (V-...), from the examples of the
rules, or from the table printed at the end of spec/40_crc32.md. After them, for every obligation with hypotheses, a state
and operands that meet the hypotheses. -/

namespace Sys2Proof.Tests

open Sys2Proof.Machine Sys2Proof.Statement

/-! ## Helpers -/

/-- The next state of an outcome satisfies a test. -/
def nextIs (o : Host.Outcome State Fault Refusal) (p : State → Bool) : Bool :=
  match o with
  | .next t => p t
  | .fault _ => false
  | .refused _ => false

theorem next_of_nextIs {o : Host.Outcome State Fault Refusal} {p : State → Bool} (h : nextIs o p = true) :
    ∃ t, o = .next t ∧ p t = true := by
  cases o with
  | next t => exact ⟨t, rfl, h⟩
  | fault r => cases r
  | refused r => simp [nextIs] at h

/-- A state whose FB holds a frame: its first bytes, then a fill byte. -/
def withFrame (s : State) (front : List Byte) (fill : Byte) : State :=
  { s with fb := Memory.ofBytes 0 (front ++ List.replicate (188 - front.length) fill) }

/-- After reset, with one PID routed and its channel record set. -/
def routed (p : Pid) (m : Mode) (c : Chan) : State := (State.reset.setMode p m).setChan p c

/-- The fault record as STATUS, FAULT_INFO and FAULT_PID show it. -/
def faulted (t : State) (code : Cause) (frame : Word) (pid : Pid) : Bool :=
  t.run = .fault && t.faultCode = some code && t.faultFrame = frame && t.faultPid = pid &&
    t.ev.getLast? = some (.fault code frame pid)

/-- The fields of the first event, a `PKT`: frame, pid, afc, af_len, and the payload. -/
def firstPkt (t : State) (pid : Pid) (afc : BitVec 2) (afLen : Byte) (payload : List Byte) : Bool :=
  match t.ev with
  | .pkt k :: _ => k.frame = 0#32 && k.pid = pid && k.afc = afc && k.afLen = afLen && k.payload = payload
  | _ => false

/-- What follows the `PKT` event. -/
def afterPkt (t : State) : List Event := t.ev.tail

/-! ## Well-formedness: one ill-formed term for each check -/

theorem test_wf_tsBad_sync : Instr.wf (.tsBad 0x47#8 0x000111#24) = false := by decide

theorem test_wf_secUnit_stuffing : Instr.wf (.secUnit 0xFF#8 0xB#4 0x00D#12) = false := by decide

theorem test_wf_pesHdrPts_flag :
    Instr.wf (.pesHdrPts ⟨0x000001#24, 0xE0#8, 0#16, 0#5, true, 0#2, 1#2, 0#6, 0#8⟩) = false := by decide

theorem test_wf_pesHdrNopts_flag :
    Instr.wf (.pesHdrNopts ⟨0x000001#24, 0xE0#8, 0#16, 0#5, true, 0#2, 2#2, 0#6, 0#8⟩) = false := by decide

/-! ## Decoding: words written out from R81, R86, R87, R90, R91 -/

theorem test_decode_symbols :
    decodeTableWord 9 0b000001111 = some (.inByte 0x0F#8) ∧ decodeTableWord 16 0b000001111 = some (.inByte 0x0F#8) ∧
      decodeTableWord 9 0b101000111 = some (.inEos 0x47#8) ∧ decodeTableWord 9 0b1000000000 = none := by decide

/-- The example frames of R170 to R178 and V-PKT-2. -/
theorem test_decode_frames :
    decodeTableWord 32 0x47010015 = some (.tsP ⟨false, false, 0x100#13, 0#2, 5#4⟩) ∧
      decodeTableWord 32 0x47400010 = some (.tsPS ⟨false, false, 0#13, 0#2, 0#4⟩) ∧
      decodeTableWord 32 0x47010036 = some (.tsAP ⟨false, false, 0x100#13, 0#2, 6#4⟩) ∧
      decodeTableWord 32 0x47410130 = some (.tsAPS ⟨false, false, 0x101#13, 0#2, 0#4⟩) ∧
      decodeTableWord 32 0x47010027 = some (.tsA ⟨false, false, 0x100#13, 0#2, 7#4⟩) ∧
      decodeTableWord 32 0x47401120 = some (.tsAS ⟨false, false, 0x11#13, 0#2, 0#4⟩) ∧
      decodeTableWord 32 0x4701000C = some (.tsN ⟨false, false, 0x100#13, 0#2, 12#4⟩) ∧
      decodeTableWord 32 0x47401100 = some (.tsNS ⟨false, false, 0x11#13, 0#2, 0#4⟩) ∧
      decodeTableWord 32 0x48000000 = some (.tsBad 0x48#8 0#24) ∧
      decodeTableWord 32 0x47FFFFDF = some (.tsPS ⟨true, true, 0x1FFF#13, 3#2, 15#4⟩) := by decide

theorem test_decode_section :
    decodeTableWord 24 0x42F000 = some (.secUnit 0x42#8 0xF#4 0#12) ∧
      decodeTableWord 24 0xFF0000 = some .secStuff ∧ decodeTableWord 8 0xFF = some .secStuff := by decide

/-- The prefix of V-PES-7 to V-PES-10. -/
theorem test_decode_pes :
    decodeTableWord 72 0x000001E0123404400A =
        some (.pesHdrNopts ⟨0x000001#24, 0xE0#8, 0x1234#16, 0#5, true, 0#2, 1#2, 0#6, 10#8⟩) ∧
      decodeTableWord 72 0x000001E0123404800A =
        some (.pesHdrPts ⟨0x000001#24, 0xE0#8, 0x1234#16, 0#5, true, 0#2, 2#2, 0#6, 10#8⟩) := by decide

theorem test_decode_writes :
    decodeTableWord 41 0x10000000001 = some (.wrCtrl 1#32) ∧ decodeTableWord 41 0x11400000011 = some (.wrChSel 0x11#32) ∧
      decodeTableWord 41 0x11800000002 = some (.wrChMode 2#32) ∧ decodeTableWord 48 0x11C00000001 = some (.wrChCmd 1#32) ∧
      decodeTableWord 41 0x12412345678 = some (.wrCrcInit 0x12345678#32) ∧
      decodeTableWord 41 0x12800000047 = some (.wrCrcData 0x47#32) := by decide

theorem test_decode_reads :
    decodeTableWord 41 0x00400000000 = some (.rdStatus 0#32) ∧ decodeTableWord 41 0x00800000000 = some (.rdFrameCnt 0#32) ∧
      decodeTableWord 41 0x00C00000000 = some (.rdFaultInfo 0#32) ∧
      decodeTableWord 41 0x01000000000 = some (.rdFaultPid 0#32) ∧ decodeTableWord 41 0x01400000000 = some (.rdChSel 0#32) ∧
      decodeTableWord 41 0x01800000000 = some (.rdChMode 0#32) ∧ decodeTableWord 41 0x02000000000 = some (.rdChState 0#32) ∧
      decodeTableWord 41 0x02C00000000 = some (.rdCrcValue 0#32) := by decide

/-- V-HOST-6, V-HOST-7 and V-HOST-8: no operations. -/
theorem test_decode_no_operation :
    decodeTableWord 41 0x03000000000 = none ∧ decodeTableWord 41 0x00500000000 = none ∧
      decodeTableWord 41 0x00000000000 = none ∧ decodeTableWord 41 0x02400000000 = none ∧
      decodeTableWord 41 0x104FFFFFFFF = none ∧ decodeTableWord 41 0x13000000001 = none := by decide

/-! ## Placing a word and stepping -/

theorem test_step_runs_placed_symbol :
    nextIs (step (State.reset.withFetchWord 9 0x047)) (fun t => t.byteCnt = 1 && t.fb.read 0 = 0x47#8) = true := by decide

theorem test_step_runs_placed_command :
    nextIs (step (State.reset.withFetchWord 41 0x02C00000000)) (fun t => t.resp = [0xFFFFFFFF#32]) = true := by decide

/-- TS.P of V-PKT-1, its payload bytes zero here. -/
theorem test_step_runs_placed_frame :
    nextIs (step (State.reset.withFetchWord 32 0x47010017))
      (fun t => firstPkt t 0x100#13 1#2 0#8 (List.replicate 184 0#8) && t.frameCnt = 1#32) = true := by decide +kernel

theorem test_step_runs_placed_section :
    nextIs (step (State.reset.withFetchWord 24 0x42F000))
      (fun t => afterPkt t = [.sectionDone 0#13 [0x42#8, 0xF0#8, 0x00#8]]) = true := by decide +kernel

/-! ## Stream symbols -/

theorem test_inByte_stores :
    nextIs (exec (.inByte 0x47#8) State.reset)
      (fun t => t.byteCnt = 1 && t.fb = [(0, 0x47#8)] && t.ev = [] && t.frameCnt = 0#32) = true := by decide

/-- R145: the first byte is not compared with 0x47; a written 0 leaves no entry behind. -/
theorem test_inByte_zero :
    nextIs (exec (.inByte 0x00#8) { State.reset with fb := [(0, 0x47#8)] }) (fun t => t.fb = [] && t.run = .run) = true := by
  decide

/-- V-IN-1. -/
theorem test_inEos_first :
    nextIs (exec (.inEos 0#8) State.reset) (fun t => t.ev = [.endOfStream 0#8] && t.statusWord = 0x00000001#32) = true := by
  decide

/-- V-IN-5: the residual. -/
theorem test_inEos_residual :
    nextIs (exec (.inEos 0#8) { State.reset with byteCnt := 100 })
      (fun t => t.ev = [.endOfStream 100#8] && t.statusWord = 0x00006401#32) = true := by decide

/-! ## Frame classes -/

/-- R176 example. -/
theorem test_tsN :
    nextIs (exec (.tsN ⟨false, false, 0x100#13, 0#2, 12#4⟩) (withFrame State.reset [0x47, 0x01, 0x00, 0x0C] 0xFF#8))
      (fun t => firstPkt t 0x100#13 0#2 0#8 [] && afterPkt t = [] && t.run = .run) = true := by decide +kernel

/-- R177 example: an empty load on a PES channel. -/
theorem test_tsNS_pes :
    nextIs (exec (.tsNS ⟨false, false, 0x11#13, 0#2, 0#4⟩)
        (withFrame (routed 0x11#13 .pes Chan.idle) [0x47, 0x40, 0x11, 0x00] 0xFF#8))
      (fun t => afterPkt t = [] && t.chan 0x11#13 = ⟨.started, []⟩) = true := by decide +kernel

/-- V-SEC-10. -/
theorem test_tsNS_sec :
    nextIs (exec (.tsNS ⟨false, false, 0x11#13, 0#2, 0#4⟩)
        (withFrame (routed 0x11#13 .sec Chan.idle) [0x47, 0x40, 0x11, 0x00] 0xFF#8))
      (fun t => firstPkt t 0x11#13 0#2 0#8 [] && faulted t .pointerOverrun 0#32 0x11#13 && t.frameCnt = 0#32) = true := by
  decide +kernel

/-- R170 example. -/
theorem test_tsP :
    nextIs (exec (.tsP ⟨false, false, 0x100#13, 0#2, 5#4⟩)
        (withFrame State.reset [0x47, 0x01, 0x00, 0x15, 0xAA, 0xBB] 0xFF#8))
      (fun t => firstPkt t 0x100#13 1#2 0#8 (0xAA#8 :: 0xBB#8 :: List.replicate 182 0xFF#8) && afterPkt t = []) = true := by
  decide +kernel

/-- R195 example: the continuation completes a section, then stuffing. -/
theorem test_tsP_continuation :
    nextIs (exec (.tsP ⟨false, false, 0x11#13, 0#2, 1#4⟩)
        (withFrame (routed 0x11#13 .sec ⟨.started, [0x00, 0xB0, 0x05, 0x11, 0x22]⟩)
          [0x47, 0x00, 0x11, 0x11, 0x33, 0x44, 0x55] 0xFF#8))
      (fun t => afterPkt t = [.sectionDone 0x11#13 [0x00, 0xB0, 0x05, 0x11, 0x22, 0x33, 0x44, 0x55]] &&
        t.chan 0x11#13 = ⟨.notStarted, []⟩) = true := by decide +kernel

/-- V-SEC-2: two sections in one packet. -/
theorem test_tsPS_sections :
    nextIs (exec (.tsPS ⟨false, false, 0x11#13, 0#2, 1#4⟩)
        (withFrame (routed 0x11#13 .sec Chan.idle)
          [0x47, 0x40, 0x11, 0x11, 0x00, 0x42, 0xF0, 0x00, 0x00, 0xB0, 0x01, 0x99] 0xFF#8))
      (fun t => afterPkt t =
          [.sectionDone 0x11#13 [0x42, 0xF0, 0x00], .sectionDone 0x11#13 [0x00, 0xB0, 0x01, 0x99]] &&
        t.chan 0x11#13 = ⟨.notStarted, []⟩) = true := by decide +kernel

/-- V-PES-2: header and first data. -/
theorem test_tsPS_pes :
    nextIs (exec (.tsPS ⟨false, false, 0x101#13, 0#2, 1#4⟩)
        (withFrame (routed 0x101#13 .pes Chan.idle)
          [0x47, 0x41, 0x01, 0x11, 0x00, 0x00, 0x01, 0xC0, 0x00, 0x00, 0x84, 0x80, 0x05, 0x21, 0x00, 0x05, 0xBF, 0x21, 0xAA]
          0xFF#8))
      (fun t => afterPkt t =
          [.pesHdr ⟨0x101#13, 0x000001#24, 0xC0#8, 0#16, true, 2#2, 5#8, true, 90000#33⟩,
            .pesData 0x101#13 (0xAA#8 :: List.replicate 169 0xFF#8)] &&
        t.chan 0x101#13 = ⟨.headerParsed, []⟩) = true := by decide +kernel

/-- R174 example. -/
theorem test_tsA :
    nextIs (exec (.tsA ⟨false, false, 0x100#13, 0#2, 7#4⟩)
        (withFrame State.reset [0x47, 0x01, 0x00, 0x27, 0xB7] 0x00#8))
      (fun t => firstPkt t 0x100#13 2#2 183#8 [] && afterPkt t = []) = true := by decide +kernel

/-- V-PKT-10: af_len = 184. -/
theorem test_tsA_overrun :
    nextIs (exec (.tsA ⟨false, false, 0x33#13, 0#2, 1#4⟩)
        (withFrame State.reset [0x47, 0x00, 0x33, 0x21, 0xB8] 0xFF#8))
      (fun t => t.ev = [.fault .adaptationOverrun 0#32 0x33#13] && t.statusWord = 0x00000022#32) = true := by
  decide +kernel

/-- R175 example. -/
theorem test_tsAS :
    nextIs (exec (.tsAS ⟨false, false, 0x11#13, 0#2, 0#4⟩)
        (withFrame (routed 0x11#13 .sec Chan.idle) [0x47, 0x40, 0x11, 0x20, 0xB7] 0xFF#8))
      (fun t => firstPkt t 0x11#13 2#2 183#8 [] && faulted t .pointerOverrun 0#32 0x11#13) = true := by decide +kernel

/-- V-PES-11, the second frame: the header ends here, R226 example. -/
theorem test_tsAP_pes :
    nextIs (exec (.tsAP ⟨false, false, 0x100#13, 0#2, 0#4⟩)
        (withFrame (routed 0x100#13 .pes ⟨.started, [0x00, 0x00, 0x01, 0xE0, 0x00, 0x00]⟩)
          ([0x47, 0x01, 0x00, 0x30, 178#8] ++ List.replicate 178 0x00#8 ++ [0x80, 0x00, 0x00, 0x11, 0x22]) 0x00#8))
      (fun t => afterPkt t =
          [.pesHdr ⟨0x100#13, 0x000001#24, 0xE0#8, 0#16, false, 0#2, 0#8, false, 0#33⟩,
            .pesData 0x100#13 [0x11, 0x22]] &&
        (t.chan 0x100#13).stateWord = 0x00000002#32) = true := by decide +kernel

/-- V-PKT-5: an adaptation field of one byte. -/
theorem test_tsAP_short_field :
    nextIs (exec (.tsAP ⟨false, false, 0x101#13, 0#2, 4#4⟩)
        (withFrame State.reset [0x47, 0x01, 0x01, 0x34, 0x00] 0x55#8))
      (fun t => firstPkt t 0x101#13 3#2 0#8 (List.replicate 183 0x55#8)) = true := by decide +kernel

/-- V-SEC-11: pointer 5 of a five-byte payload. -/
theorem test_tsAPS_pointer_beyond :
    nextIs (exec (.tsAPS ⟨false, false, 0x11#13, 0#2, 0#4⟩)
        (withFrame (routed 0x11#13 .sec Chan.idle)
          ([0x47, 0x40, 0x11, 0x30, 178#8] ++ List.replicate 178 0x00#8 ++ [5, 1, 2, 3, 4]) 0x00#8))
      (fun t => faulted t .pointerOverrun 0#32 0x11#13 && t.chan 0x11#13 = Chan.idle) = true := by decide +kernel

/-- V-PES-15: 13 bytes, flags 2. -/
theorem test_tsAPS_pts_overrun :
    nextIs (exec (.tsAPS ⟨false, false, 0x100#13, 0#2, 0#4⟩)
        (withFrame (routed 0x100#13 .pes Chan.idle)
          ([0x47, 0x41, 0x00, 0x30, 170#8] ++ List.replicate 170 0x00#8 ++
            [0x00, 0x00, 0x01, 0xE0, 0x00, 0x00, 0x80, 0x80, 0x04, 0x21, 0x00, 0x05, 0xBF]) 0x00#8))
      (fun t => faulted t .ptsOverrun 0#32 0x100#13 && t.chan 0x100#13 = Chan.idle &&
        t.statusWord = 0x00000042#32) = true := by decide +kernel

/-- R178 example; nothing is decoded. -/
theorem test_tsBad :
    nextIs (exec (.tsBad 0x48#8 0#24) (withFrame State.reset [0x48] 0x00#8))
      (fun t => t.ev = [.fault .framingError 0#32 0#13] && t.statusWord = 0x00000012#32) = true := by decide

/-- R144: outside RUN a symbol is discarded. -/
theorem test_inByte_discarded :
    nextIs (exec (.inByte 0x47#8) { State.reset with run := .fault, faultCode := some .framingError })
      (fun t => t.byteCnt = 0 && t.fb = [] && t.ev = []) = true := by decide

/-! ## Section and PES operations, PID 0 and an FB of zeros -/

/-- The first section of V-SEC-2. -/
theorem test_secUnit :
    nextIs (exec (.secUnit 0x42#8 0xF#4 0#12)
        (routed 0#13 .sec ⟨.started, [0x42, 0xF0, 0x00, 0x00, 0xB0, 0x01, 0x99]⟩))
      (fun t => t.ev = [.sectionDone 0#13 [0x42, 0xF0, 0x00]] &&
        t.chan 0#13 = ⟨.started, [0x00, 0xB0, 0x01, 0x99]⟩) = true := by decide

/-- R199 example. -/
theorem test_secStuff :
    nextIs (exec .secStuff (routed 0#13 .sec ⟨.started, [0xFF, 0xFF, 0xFF]⟩))
      (fun t => t.ev = [] && t.chan 0#13 = ⟨.notStarted, []⟩) = true := by decide

/-- V-PES-16: the timestamp bytes lie beyond the declared header and are data too. -/
theorem test_pesHdrPts_beyond :
    nextIs (exec (.pesHdrPts ⟨0x000001#24, 0xE0#8, 0#16, 16#5, false, 0#2, 2#2, 0#6, 0#8⟩)
        (routed 0#13 .pes
          ⟨.started, [0x00, 0x00, 0x01, 0xE0, 0x00, 0x00, 0x80, 0x80, 0x00, 0x21, 0x00, 0x05, 0xBF, 0x21]⟩))
      (fun t => t.ev =
        [.pesHdr ⟨0#13, 0x000001#24, 0xE0#8, 0#16, false, 2#2, 0#8, true, 90000#33⟩,
          .pesData 0#13 [0x21, 0x00, 0x05, 0xBF, 0x21]]) = true := by decide

/-- V-PES-14: nine bytes, flags 2. -/
theorem test_pesHdrPts_overrun :
    nextIs (exec (.pesHdrPts ⟨0x000001#24, 0xE0#8, 0#16, 16#5, false, 0#2, 2#2, 0#6, 0#8⟩)
        (routed 0#13 .pes ⟨.started, [0x00, 0x00, 0x01, 0xE0, 0x00, 0x00, 0x80, 0x80, 0x00]⟩))
      (fun t => faulted t .ptsOverrun 0#32 0#13 && (t.chan 0#13).buf.length = 9) = true := by decide

/-- V-PES-13, the second header: nothing beyond it. -/
theorem test_pesHdrNopts :
    nextIs (exec (.pesHdrNopts ⟨0x000001#24, 0xBD#8, 0#16, 16#5, false, 0#2, 0#2, 0#6, 0#8⟩)
        (routed 0#13 .pes ⟨.started, [0x00, 0x00, 0x01, 0xBD, 0x00, 0x00, 0x80, 0x00, 0x00]⟩))
      (fun t => t.ev = [.pesHdr ⟨0#13, 0x000001#24, 0xBD#8, 0#16, false, 0#2, 0#8, false, 0#33⟩] &&
        t.chan 0#13 = ⟨.headerParsed, []⟩) = true := by decide

/-- The PTS field values under V-PES-20. -/
theorem test_pts_values :
    ptsOf 0x21 0x00 0x05 0xBF 0x21 = 90000#33 ∧ ptsOf 0x21 0x00 0x0B 0x7E 0x41 = 180000#33 ∧
      ptsOf 0x21 0x00 0x01 0x00 0x03 = 1#33 ∧ ptsOf 0x29 0x00 0x01 0x00 0x01 = 4294967296#33 ∧
      ptsOf 0x0E 0xFF 0xFE 0xFF 0xFE = 8589934591#33 ∧ ptsOf 0xF1 0x00 0x01 0x00 0x01 = 0#33 := by decide

/-! ## CRC unit -/

/-- V-CRC-13, the first write: its datum is ignored. -/
theorem test_wrCrcInit :
    nextIs (exec (.wrCrcInit 0x12345678#32) { State.reset with crc := 0#32 }) (fun t => t.crc = 0xFFFFFFFF#32) = true := by
  decide

/-- V-CRC-4 and V-CRC-12. -/
theorem test_wrCrcData :
    nextIs (exec (.wrCrcData 0x47#32) State.reset) (fun t => t.crc = 0x64C99FC6#32) = true ∧
      nextIs (exec (.wrCrcData 0xFFFFFF01#32) { State.reset with crc := 0#32 }) (fun t => t.crc = 0x04C11DB7#32) = true := by
  decide

/-- V-CRC-14. -/
theorem test_rdCrcValue :
    nextIs (exec (.rdCrcValue 0#32) State.reset) (fun t => t.resp = [0xFFFFFFFF#32]) = true := by decide

/-- V-CRC-5, V-CRC-7, V-CRC-8. -/
theorem test_crc32_vectors :
    crc32 [0x31, 0x32, 0x33, 0x34, 0x35, 0x36, 0x37, 0x38, 0x39] = 0x0376E6E7#32 ∧
      crc32 [0xFF, 0xFF, 0xFF, 0xFF] = 0#32 ∧
      crc32 [0x00, 0xB0, 0x0D, 0x00, 0x01, 0xC1, 0x00, 0x00, 0x00, 0x01, 0xF0, 0x00, 0x2A, 0xB1, 0x04, 0xB2] = 0#32 := by
  decide +kernel

/-! ## CRCTAB: the 256 values printed at the end of spec/40_crc32.md -/

theorem test_crcTab_0 :
    ((List.range 64).map fun i => crcTab (BitVec.ofNat 8 (0 + i))) =
      [0x00000000, 0x04C11DB7, 0x09823B6E, 0x0D4326D9, 0x130476DC, 0x17C56B6B, 0x1A864DB2, 0x1E475005] ++
      [0x2608EDB8, 0x22C9F00F, 0x2F8AD6D6, 0x2B4BCB61, 0x350C9B64, 0x31CD86D3, 0x3C8EA00A, 0x384FBDBD] ++
      [0x4C11DB70, 0x48D0C6C7, 0x4593E01E, 0x4152FDA9, 0x5F15ADAC, 0x5BD4B01B, 0x569796C2, 0x52568B75] ++
      [0x6A1936C8, 0x6ED82B7F, 0x639B0DA6, 0x675A1011, 0x791D4014, 0x7DDC5DA3, 0x709F7B7A, 0x745E66CD] ++
      [0x9823B6E0, 0x9CE2AB57, 0x91A18D8E, 0x95609039, 0x8B27C03C, 0x8FE6DD8B, 0x82A5FB52, 0x8664E6E5] ++
      [0xBE2B5B58, 0xBAEA46EF, 0xB7A96036, 0xB3687D81, 0xAD2F2D84, 0xA9EE3033, 0xA4AD16EA, 0xA06C0B5D] ++
      [0xD4326D90, 0xD0F37027, 0xDDB056FE, 0xD9714B49, 0xC7361B4C, 0xC3F706FB, 0xCEB42022, 0xCA753D95] ++
      [0xF23A8028, 0xF6FB9D9F, 0xFBB8BB46, 0xFF79A6F1, 0xE13EF6F4, 0xE5FFEB43, 0xE8BCCD9A, 0xEC7DD02D] := by
  decide +kernel

theorem test_crcTab_1 :
    ((List.range 64).map fun i => crcTab (BitVec.ofNat 8 (64 + i))) =
      [0x34867077, 0x30476DC0, 0x3D044B19, 0x39C556AE, 0x278206AB, 0x23431B1C, 0x2E003DC5, 0x2AC12072] ++
      [0x128E9DCF, 0x164F8078, 0x1B0CA6A1, 0x1FCDBB16, 0x018AEB13, 0x054BF6A4, 0x0808D07D, 0x0CC9CDCA] ++
      [0x7897AB07, 0x7C56B6B0, 0x71159069, 0x75D48DDE, 0x6B93DDDB, 0x6F52C06C, 0x6211E6B5, 0x66D0FB02] ++
      [0x5E9F46BF, 0x5A5E5B08, 0x571D7DD1, 0x53DC6066, 0x4D9B3063, 0x495A2DD4, 0x44190B0D, 0x40D816BA] ++
      [0xACA5C697, 0xA864DB20, 0xA527FDF9, 0xA1E6E04E, 0xBFA1B04B, 0xBB60ADFC, 0xB6238B25, 0xB2E29692] ++
      [0x8AAD2B2F, 0x8E6C3698, 0x832F1041, 0x87EE0DF6, 0x99A95DF3, 0x9D684044, 0x902B669D, 0x94EA7B2A] ++
      [0xE0B41DE7, 0xE4750050, 0xE9362689, 0xEDF73B3E, 0xF3B06B3B, 0xF771768C, 0xFA325055, 0xFEF34DE2] ++
      [0xC6BCF05F, 0xC27DEDE8, 0xCF3ECB31, 0xCBFFD686, 0xD5B88683, 0xD1799B34, 0xDC3ABDED, 0xD8FBA05A] := by
  decide +kernel

theorem test_crcTab_2 :
    ((List.range 64).map fun i => crcTab (BitVec.ofNat 8 (128 + i))) =
      [0x690CE0EE, 0x6DCDFD59, 0x608EDB80, 0x644FC637, 0x7A089632, 0x7EC98B85, 0x738AAD5C, 0x774BB0EB] ++
      [0x4F040D56, 0x4BC510E1, 0x46863638, 0x42472B8F, 0x5C007B8A, 0x58C1663D, 0x558240E4, 0x51435D53] ++
      [0x251D3B9E, 0x21DC2629, 0x2C9F00F0, 0x285E1D47, 0x36194D42, 0x32D850F5, 0x3F9B762C, 0x3B5A6B9B] ++
      [0x0315D626, 0x07D4CB91, 0x0A97ED48, 0x0E56F0FF, 0x1011A0FA, 0x14D0BD4D, 0x19939B94, 0x1D528623] ++
      [0xF12F560E, 0xF5EE4BB9, 0xF8AD6D60, 0xFC6C70D7, 0xE22B20D2, 0xE6EA3D65, 0xEBA91BBC, 0xEF68060B] ++
      [0xD727BBB6, 0xD3E6A601, 0xDEA580D8, 0xDA649D6F, 0xC423CD6A, 0xC0E2D0DD, 0xCDA1F604, 0xC960EBB3] ++
      [0xBD3E8D7E, 0xB9FF90C9, 0xB4BCB610, 0xB07DABA7, 0xAE3AFBA2, 0xAAFBE615, 0xA7B8C0CC, 0xA379DD7B] ++
      [0x9B3660C6, 0x9FF77D71, 0x92B45BA8, 0x9675461F, 0x8832161A, 0x8CF30BAD, 0x81B02D74, 0x857130C3] := by
  decide +kernel

theorem test_crcTab_3 :
    ((List.range 64).map fun i => crcTab (BitVec.ofNat 8 (192 + i))) =
      [0x5D8A9099, 0x594B8D2E, 0x5408ABF7, 0x50C9B640, 0x4E8EE645, 0x4A4FFBF2, 0x470CDD2B, 0x43CDC09C] ++
      [0x7B827D21, 0x7F436096, 0x7200464F, 0x76C15BF8, 0x68860BFD, 0x6C47164A, 0x61043093, 0x65C52D24] ++
      [0x119B4BE9, 0x155A565E, 0x18197087, 0x1CD86D30, 0x029F3D35, 0x065E2082, 0x0B1D065B, 0x0FDC1BEC] ++
      [0x3793A651, 0x3352BBE6, 0x3E119D3F, 0x3AD08088, 0x2497D08D, 0x2056CD3A, 0x2D15EBE3, 0x29D4F654] ++
      [0xC5A92679, 0xC1683BCE, 0xCC2B1D17, 0xC8EA00A0, 0xD6AD50A5, 0xD26C4D12, 0xDF2F6BCB, 0xDBEE767C] ++
      [0xE3A1CBC1, 0xE760D676, 0xEA23F0AF, 0xEEE2ED18, 0xF0A5BD1D, 0xF464A0AA, 0xF9278673, 0xFDE69BC4] ++
      [0x89B8FD09, 0x8D79E0BE, 0x803AC667, 0x84FBDBD0, 0x9ABC8BD5, 0x9E7D9662, 0x933EB0BB, 0x97FFAD0C] ++
      [0xAFB010B1, 0xAB710D06, 0xA6322BDF, 0xA2F33668, 0xBCB4666D, 0xB8757BDA, 0xB5365D03, 0xB1F740B4] := by
  decide +kernel

/-! ## Host commands -/

/-- V-HOST-10: SRST clears selection and routing. -/
theorem test_wrCtrl_srst :
    nextIs (exec (.wrCtrl 1#32) { routed 0x1FC8#13 .pes Chan.idle with chSel := 0x1FC8#13, run := .fault })
      (fun t => t = State.reset) = true := by decide

/-- V-HOST-9. -/
theorem test_wrCtrl_zero :
    nextIs (exec (.wrCtrl 0#32) (routed 0x1FC8#13 .pes Chan.idle)) (fun t => t.modeOf 0x1FC8#13 = .pes) = true := by decide

/-- R263 examples and V-PES-14. -/
theorem test_rdStatus :
    nextIs (exec (.rdStatus 0#32) { State.reset with byteCnt := 3 }) (fun t => t.resp = [0x00000300#32]) = true ∧
      nextIs (exec (.rdStatus 0#32) { State.reset with run := .fault, faultCode := some .ptsOverrun })
        (fun t => t.resp = [0x00000042#32]) = true := by decide

/-- R264 and R265 examples. -/
theorem test_rdFrameCnt_rdFaultInfo :
    nextIs (exec (.rdFrameCnt 0#32) { State.reset with frameCnt := 2#32 }) (fun t => t.resp = [2#32]) = true ∧
      nextIs (exec (.rdFaultInfo 0#32) { State.reset with faultFrame := 2#32 }) (fun t => t.resp = [2#32]) = true := by
  decide

/-- R266 example. -/
theorem test_rdFaultPid :
    nextIs (exec (.rdFaultPid 0#32) { State.reset with faultPid := 0x11#13 }) (fun t => t.resp = [0x11#32]) = true := by
  decide

/-- V-HOST-3. -/
theorem test_wrChSel_rdChSel :
    nextIs (exec (.wrChSel 0xFFFF1FC8#32) State.reset)
      (fun t => nextIs (exec (.rdChSel 0#32) t) (fun u => u.resp = [0x00001FC8#32])) = true := by decide

/-- V-HOST-4 and V-HOST-5. -/
theorem test_wrChMode_rdChMode :
    nextIs (exec (.wrChMode 3#32) State.reset)
        (fun t => nextIs (exec (.rdChMode 0#32) t) (fun u => u.resp = [0#32] && u.mode = [])) = true ∧
      nextIs (exec (.wrChMode 0xFFFFFFFE#32) State.reset)
        (fun t => nextIs (exec (.rdChMode 0#32) t) (fun u => u.resp = [2#32])) = true := by decide

/-- V-HOST-12: rewriting the same mode drops the bytes held back. -/
theorem test_wrChMode_drops :
    nextIs (exec (.wrChMode 1#32)
        { routed 0x11#13 .sec ⟨.started, [0x00, 0xB0, 0x10, 0x01, 0x02]⟩ with chSel := 0x11#13 })
      (fun t => (t.chan 0x11#13).stateWord = 0#32 && t.modeOf 0x11#13 = .sec && t.ev = []) = true := by decide

/-- R269 example. -/
theorem test_wrChCmd :
    nextIs (exec (.wrChCmd 1#32) { routed 0x101#13 .pes ⟨.headerParsed, []⟩ with chSel := 0x101#13 })
      (fun t => (t.chan 0x101#13).stateWord = 0#32 && t.modeOf 0x101#13 = .pes) = true := by decide

/-- R272 example. -/
theorem test_rdChState :
    nextIs (exec (.rdChState 0#32)
        { routed 0x11#13 .sec ⟨.started, [0x00, 0xB0, 0x05, 0x11, 0x22]⟩ with chSel := 0x11#13 })
      (fun t => t.resp = [0x00050001#32]) = true := by decide

/-- V-HOST-6: an unmapped address reads 0. -/
theorem test_unmapped_read :
    nextIs (step { State.reset with pending := [.command 0x03000000000#41] })
      (fun t => t.resp = [0#32] && t.pending = []) = true := by decide

/-- R99: `chstate` is a selection followed by a read, and `crc32` of nothing returns the seed. -/
theorem test_pseudo_operations :
    chstate 0x11#13 = [.command 0x11400000011#41, .command 0x02000000000#41] ∧
      crcSteps [] = [.command 0x12400000000#41, .command 0x02C00000000#41] ∧
      route 0x11#13 .sec = [.command 0x11400000011#41, .command 0x11800000001#41] := by decide

/-- R98: the frame of the R172 example. -/
theorem test_tsFrame :
    tsFrame (some [0x00]) (some [0xAA]) false ⟨false, false, 0x100#13, 0#2, 6#4⟩ 0xFF#8 =
      [0x47, 0x01, 0x00, 0x36, 0x01, 0x00, 0xAA] ++ List.replicate 181 0xFF#8 := by decide +kernel

/-! ## Witnesses: hypotheses of the obligations met by concrete states and operands -/

/-- PID 0x11 routed to SEC, Accumulating, five bytes of an eight-byte section held back; the frame in FB is of PID 0x11. -/
def secState : State :=
  withFrame (routed 0x11#13 .sec ⟨.started, [0x00, 0xB0, 0x05, 0x11, 0x22]⟩) [0x47, 0x00, 0x11, 0x11, 0x33, 0x44, 0x55] 0x00#8

/-- PID 0 routed to SEC and Accumulating, with a buffer; FB is as after reset, so its frame is of PID 0. -/
def secZero (buf : List Byte) : State := routed 0#13 .sec ⟨.started, buf⟩

/-- PID 0 routed to PES, with a channel record. -/
def pesZero (c : Chan) : State := routed 0#13 .pes c

/-- A state stopped by a fault, one symbol presented. -/
def stopped : State :=
  { State.reset with
    run := .fault, faultCode := some .framingError, ev := [.fault .framingError 0#32 0#13], pending := [.input 0x047#9] }

theorem witness_StepRunsPresentedOperation :
    decodeCommand 0x10000000001#41 = .ok (.wrCtrl 1#32) ∧
      decodeCommand 0x00500000000#41 = .error (.noReadableRegister 0x05#8) ∧
      decodeCommand 0x10400000000#41 = .error (.noWritableRegister 0x04#8) := by decide

theorem witness_DecodeOfEncode :
    Instr.wf (.tsBad 0x48#8 0xFFFFFF#24) = true ∧ Instr.wf (.secUnit 0xFE#8 0xF#4 0xFFF#12) = true ∧
      Instr.wf (.pesHdrPts ⟨0#24, 0#8, 0#16, 31#5, true, 3#2, 2#2, 63#6, 255#8⟩) = true ∧
      Instr.wf (.pesHdrNopts ⟨0#24, 0#8, 0#16, 31#5, true, 3#2, 1#2, 63#6, 255#8⟩) = true ∧
      Instr.wf (.tsAPS ⟨true, true, 0x1FFF#13, 3#2, 15#4⟩) = true ∧ Instr.wf (.rdCrcValue 0xFFFFFFFF#32) = true := by
  decide

theorem witness_EncodeOfDecode :
    (24 ∈ [9, 24, 32, 41, 72] ∧ decodeTableWord 24 0xFF1234 = some .secStuff) ∧
      (41 ∈ [9, 24, 32, 41, 72] ∧ decodeTableWord 41 0x1FFFFFFFFFF = none) ∧
      (41 ∈ [9, 24, 32, 41, 72] ∧ decodeTableWord 41 0x12800000047 = some (.wrCrcData 0x47#32)) ∧
      (9 ∈ [9, 24, 32, 41, 72] ∧ decodeTableWord 9 0x1FF = some (.inEos 0xFF#8)) ∧
      255 < 2 ^ 8 ∧ 2 ^ 8 ≤ 256 := by decide

theorem witness_PlacedWordRuns :
    (9 ∈ [9, 16, 41, 48] ∧ decodeTableWord 9 0x047 = some (.inByte 0x47#8)) ∧
      (48 ∈ [9, 16, 41, 48] ∧ decodeTableWord 48 0x02C00000000 = some (.rdCrcValue 0#32)) ∧
      decodeTableWord 32 0x48000111 = some (.tsBad 0x48#8 0x000111#24) ∧
      (8 ∈ [8, 24] ∧ decodeTableWord 8 0xFF = some .secStuff) ∧
      (24 ∈ [8, 24] ∧ decodeTableWord 24 0xFEFFFF = some (.secUnit 0xFE#8 0xF#4 0xFFF#12)) ∧
      (decodeTableWord 72 0x000001E00000800000 =
          some (.pesHdrNopts ⟨0x000001#24, 0xE0#8, 0#16, 16#5, false, 0#2, 0#2, 0#6, 0#8⟩)) ∧
      decodeTableWord 72 0x000001E00000808000 =
        some (.pesHdrPts ⟨0x000001#24, 0xE0#8, 0#16, 16#5, false, 0#2, 2#2, 0#6, 0#8⟩) := by decide

theorem witness_ByteInsideFrameStored :
    (State.reset.run = .run ∧ State.reset.byteCnt.val < 187 ∧ State.reset.fb.wf = true) ∧
      ({ State.reset with byteCnt := 186 } : State).byteCnt.val < 187 := by decide

theorem witness_LastByteRunsFrameClass :
    ({ State.reset with byteCnt := 187 } : State).run = .run ∧
      ({ State.reset with byteCnt := 187 } : State).byteCnt.val = 187 ∧
      ({ State.reset with byteCnt := 187 } : State).fb.wf = true := by decide

theorem witness_InputDiscardedOutsideRun :
    stopped.run ≠ .run ∧ ({ State.reset with run := .done } : State).run ≠ .run := by decide

theorem witness_EndOfStreamResult : State.reset.run = .run ∧ stopped.run ≠ .run := by decide

/-- The payload offsets at both ends of their range, 4 and 188, and one between. -/
theorem witness_OffChannelFrameReported :
    (State.reset.run = .run ∧ State.reset.modeOf 0x100#13 = .off ∧ Table.wf Chan.idle State.reset.ch = true ∧
      4 = (if false then 5 + (State.reset.fb.read 4).toNat else 4) ∧ 4 ≤ 188) ∧
    (188 = (if true then 5 + ((withFrame State.reset [0x47, 0x01, 0x01, 0x33, 183#8] 0#8).fb.read 4).toNat else 4) ∧
      188 ≤ 188) ∧
    (5 = (if true then 5 + (State.reset.fb.read 4).toNat else 4) ∧ 5 ≤ 188) := by decide

theorem witness_AdaptationOverrunTraps :
    (withFrame State.reset [0x47, 0x00, 0x33, 0x21, 184#8] 0#8).run = .run ∧
      ((withFrame State.reset [0x47, 0x00, 0x33, 0x21, 184#8] 0#8).fb.read 4).toNat > 183 := by decide

theorem witness_BadSyncTraps : State.reset.run = .run := by decide

/-- The least pointer that overruns, 184 of a 184-byte payload, and an empty payload. -/
theorem witness_PointerOverrunTraps :
    (∃ body, (withFrame secState [0x47, 0x40, 0x11, 0x11, 184#8] 0#8).run = .run ∧
      (withFrame secState [0x47, 0x40, 0x11, 0x11, 184#8] 0#8).modeOf 0x11#13 = .sec ∧
      frameBody false true (withFrame secState [0x47, 0x40, 0x11, 0x11, 184#8] 0#8).fb = some body ∧
      (byteAt body.payload 0).toNat + 1 > body.payload.length) ∧
    (∃ body, frameBody true true (withFrame secState [0x47, 0x40, 0x11, 0x31, 183#8] 0#8).fb = some body ∧
      body.payload.length = 0) :=
  ⟨⟨_, by decide, by decide, rfl, by decide +kernel⟩, ⟨_, rfl, by decide +kernel⟩⟩

theorem witness_UnitStartWithoutPayloadTraps :
    secState.run = .run ∧ secState.modeOf 0x11#13 = .sec ∧
      (true = true → ((withFrame secState [0x47, 0x40, 0x11, 0x21, 183#8] 0#8).fb.read 4).toNat ≤ 183) := by decide

/-- The greatest legal pointer, 183 of a 184-byte payload. -/
theorem witness_SectionUnitStartLoads :
    ∃ body, secState.run = .run ∧ secState.modeOf 0x11#13 = .sec ∧ Table.wf Chan.idle secState.ch = true ∧
      frameBody false true (withFrame secState [0x47, 0x40, 0x11, 0x11, 183#8] 0#8).fb = some body ∧
      body.payload.length ≠ 0 ∧ (byteAt body.payload 0).toNat + 1 ≤ body.payload.length :=
  ⟨_, by decide, by decide, by decide, rfl, by decide +kernel, by decide +kernel⟩

theorem witness_SectionContinuationAppends :
    ∃ body, secState.run = .run ∧ secState.modeOf 0x11#13 = .sec ∧ Table.wf Chan.idle secState.ch = true ∧
      frameBody false true secState.fb = some body := ⟨_, by decide, by decide, by decide, rfl⟩

theorem witness_ParsedPesChannelPassesThrough :
    ∃ body, (pesZero ⟨.headerParsed, []⟩).run = .run ∧ (pesZero ⟨.headerParsed, []⟩).modeOf 0#13 = .pes ∧
      Table.wf Chan.idle (pesZero ⟨.headerParsed, []⟩).ch = true ∧
      frameBody false true (pesZero ⟨.headerParsed, []⟩).fb = some body ∧
      ((pesZero ⟨.headerParsed, []⟩).chan 0#13).st = .headerParsed := ⟨_, by decide, by decide, by decide, rfl, by decide⟩

theorem witness_UnstartedPesChannelIgnores :
    ∃ body, (pesZero Chan.idle).run = .run ∧ (pesZero Chan.idle).modeOf 0#13 = .pes ∧
      Table.wf Chan.idle (pesZero Chan.idle).ch = true ∧ frameBody false true (pesZero Chan.idle).fb = some body ∧
      ((pesZero Chan.idle).chan 0#13).st = .notStarted := ⟨_, by decide, by decide, by decide, rfl, by decide⟩

/-- A load in NotStarted, a reload in Started, and a continuation in Started. -/
theorem witness_PesBufferLoadedThenDecoded :
    ∃ body, (pesZero ⟨.started, [0x00, 0x00]⟩).run = .run ∧ (pesZero ⟨.started, [0x00, 0x00]⟩).modeOf 0#13 = .pes ∧
      Table.wf Chan.idle (pesZero ⟨.started, [0x00, 0x00]⟩).ch = true ∧
      frameBody false true (pesZero ⟨.started, [0x00, 0x00]⟩).fb = some body ∧
      (true = true ∧ ((pesZero Chan.idle).chan 0#13).st ≠ .headerParsed ∧ body.payload = body.payload) ∧
      (true = true ∧ ((pesZero ⟨.started, [0x00, 0x00]⟩).chan 0#13).st ≠ .headerParsed) ∧
      (false = false ∧ ((pesZero ⟨.started, [0x00, 0x00]⟩).chan 0#13).st = .started) :=
  ⟨_, by decide, by decide, by decide, rfl, ⟨rfl, by decide, rfl⟩, ⟨rfl, by decide⟩, ⟨rfl, by decide⟩⟩

/-- Both outcomes of the attempt: it waits, and it overruns. -/
theorem witness_PesBufferLoadedThenDecoded_outcomes :
    tryDecode 0#13 ⟨.started, [0x00, 0x00, 0x01]⟩ = .ok (⟨.started, [0x00, 0x00, 0x01]⟩, []) ∧
      tryDecode 0#13 ⟨.started, [0x00, 0x00, 0x01, 0xE0, 0x00, 0x00, 0x80, 0x80, 0x00]⟩ = .error .ptsOverrun :=
  ⟨rfl, rfl⟩

theorem witness_PacketHeaderReserializes :
    (withFrame State.reset [0x47, 0x41, 0x01, 0x33, 183#8] 0#8).run = .run ∧
      (withFrame State.reset [0x47, 0x41, 0x01, 0x33, 183#8] 0#8).fb.read 0 = Config.sync ∧
      (((withFrame State.reset [0x47, 0x41, 0x01, 0x33, 183#8] 0#8).fb.read 3).getLsbD 5 = true →
        ((withFrame State.reset [0x47, 0x41, 0x01, 0x33, 183#8] 0#8).fb.read 4).toNat ≤ 183) := by decide

theorem witness_FrameTouchesOnlyItsChannel :
    (∃ t, (∃ af pl pusi o, Instr.tsP ⟨false, false, 0x11#13, 0#2, 1#4⟩ = frameInstr af pl pusi o ∧ 0x11#13 = o.pid) ∧
      exec (.tsP ⟨false, false, 0x11#13, 0#2, 1#4⟩) secState = .next t) ∧
    (∃ t, (∃ sync x, Instr.tsBad 0#8 0#24 = .tsBad sync x) ∧ exec (.tsBad 0#8 0#24) secState = .next t) :=
  ⟨⟨_, ⟨false, true, false, _, rfl, rfl⟩, rfl⟩, ⟨_, ⟨_, _, rfl⟩, rfl⟩⟩

/-- Two states that differ in the mode of another PID and in ch_sel. -/
theorem witness_OtherChannelsDoNotMatter :
    ∃ t v, secState.run = ({ secState.setMode 0x12#13 .pes with chSel := 5#13 } : State).run ∧
      secState.fb = ({ secState.setMode 0x12#13 .pes with chSel := 5#13 } : State).fb ∧
      secState.modeOf 0x11#13 = ({ secState.setMode 0x12#13 .pes with chSel := 5#13 } : State).modeOf 0x11#13 ∧
      secState.chan 0x11#13 = ({ secState.setMode 0x12#13 .pes with chSel := 5#13 } : State).chan 0x11#13 ∧
      Table.wf Chan.idle secState.ch = true ∧
      exec (frameInstr false true false ⟨false, false, 0x11#13, 0#2, 1#4⟩) secState = .next t ∧
      exec (frameInstr false true false ⟨false, false, 0x11#13, 0#2, 1#4⟩)
        { secState.setMode 0x12#13 .pes with chSel := 5#13 } = .next v :=
  ⟨_, _, rfl, rfl, by decide, by decide, by decide, rfl, rfl⟩

/-- The buffer holds exactly the W bytes. -/
theorem witness_SectionOperationsResult :
    (secZero [0x42, 0xF0, 0x00]).run = .run ∧ 0#13 = framePid (secZero [0x42, 0xF0, 0x00]).fb ∧
      (secZero [0x42, 0xF0, 0x00]).modeOf 0#13 = .sec ∧
      (secZero [0x42, 0xF0, 0x00]).chan 0#13 = ⟨.started, [0x42, 0xF0, 0x00]⟩ ∧ (0#12).toNat + 3 ≤ 3 := by decide

theorem witness_DrainTurnIsSectionOperation :
    (secZero [0xFF]).run = .run ∧ 0#13 = framePid (secZero [0xFF]).fb ∧ (secZero [0xFF]).modeOf 0#13 = .sec ∧
      Table.wf Chan.idle (secZero [0xFF]).ch = true ∧ (secZero [0xFF]).chan 0#13 = ⟨.started, [0xFF]⟩ ∧
      decodeSection (sectionWord [0xFF]) = .secStuff ∧
      decodeSection (sectionWord [0x00, 0xB0, 0x01, 0x99]) = .secUnit 0x00#8 0xB#4 1#12 ∧ (1#12).toNat + 3 ≤ 4 := by decide

/-- The section 00 B0 01 EE of V-SEC-8, cut after its second byte, with an empty packet and stuffing; and the cut part. -/
theorem witness_SectionSplitInvariance :
    ([0x00, 0xB0, 0x01, 0xEE] : List Byte).length = (sectionLength [0x00, 0xB0, 0x01, 0xEE]).toNat + 3 ∧
      byteAt [0x00, 0xB0, 0x01, 0xEE] 0 ≠ 0xFF#8 ∧ ([0x00, 0xB0] : List Byte).length ≤ 183 ∧
      (∀ k ∈ ([[], [0x01, 0xEE, 0xFF]] : List (List Byte)), k.length ≤ 184) ∧ (∀ b ∈ ([0xFF] : List Byte), b = 0xFF#8) ∧
      ([0x00, 0xB0] : List Byte) ++ ([[], [0x01, 0xEE, 0xFF]] : List (List Byte)).flatten =
        [0x00, 0xB0, 0x01, 0xEE] ++ [0xFF] ∧
      ([0x00, 0xB0] : List Byte) ++ ([[], [0x01]] : List (List Byte)).flatten <+: [0x00, 0xB0, 0x01, 0xEE] ∧
      (([0x00, 0xB0] : List Byte) ++ ([[], [0x01]] : List (List Byte)).flatten).length < 4 := by decide

/-- Buffers of 14 and of 13 bytes with header_data_length 4: both clauses of the timestamp, at their boundary. -/
theorem witness_PesHeaderOperationsResult :
    (pesZero ⟨.started, List.replicate 14 0#8⟩).run = .run ∧
      0#13 = framePid (pesZero ⟨.started, List.replicate 14 0#8⟩).fb ∧
      (pesZero ⟨.started, List.replicate 14 0#8⟩).modeOf 0#13 = .pes ∧
      ((pesZero ⟨.started, List.replicate 14 0#8⟩).chan 0#13).st = .started ∧
      ((pesZero ⟨.started, List.replicate 13 0#8⟩).chan 0#13).st = .started ∧
      9 + (4#8).toNat ≤ (List.replicate 13 0#8).length ∧ (List.replicate 13 0#8).length < 14 ∧
      14 ≤ (List.replicate 14 0#8).length := by decide

/-- Buffers of 8 bytes, of 9 bytes whose header needs 10, and of 9 bytes whose header is complete. -/
theorem witness_DecodeAttemptIsHeaderOperation :
    (pesZero ⟨.started, List.replicate 9 0#8⟩).run = .run ∧
      0#13 = framePid (pesZero ⟨.started, List.replicate 9 0#8⟩).fb ∧
      (pesZero ⟨.started, List.replicate 9 0#8⟩).modeOf 0#13 = .pes ∧
      (pesZero ⟨.started, List.replicate 9 0#8⟩).chan 0#13 = ⟨.started, List.replicate 9 0#8⟩ ∧
      (List.replicate 8 0#8).length < 9 ∧
      (List.replicate 8 0#8 ++ [1#8]).length < 9 + (byteAt (List.replicate 8 0#8 ++ [1#8]) 8).toNat ∧
      9 ≤ (List.replicate 9 0#8).length ∧
      9 + (byteAt (List.replicate 9 0#8) 8).toNat ≤ (List.replicate 9 0#8).length := by decide

/-- The three packets: ignored, a header with one byte beyond it, passed through. -/
theorem witness_PesHeaderOncePerArming :
    ∃ c es, pesFeed 0x100#13 Chan.idle
      [(false, [0x99]), (true, [0x00, 0x00, 0x01, 0xE0, 0x00, 0x00, 0x80, 0x00, 0x00, 0x11]), (true, [0x22])] =
        .ok (c, es) ∧ c = ⟨.headerParsed, []⟩ ∧ es.length = 3 := ⟨_, _, rfl, by decide, by decide⟩

theorem witness_CrcUnitIndependent :
    (∃ t, exec (.inByte 0x47#8) State.reset = .next t) ∧ (∃ t, exec (.wrCtrl 1#32) State.reset = .next t) ∧
      ∃ t, exec (.wrCrcData 0x47#32) State.reset = .next t ∧ ∃ d, Instr.wrCrcData 0x47#32 = .wrCrcData d :=
  ⟨⟨_, rfl⟩, ⟨_, rfl⟩, ⟨_, rfl, _, rfl⟩⟩

theorem witness_ReadCommandsResult : (secState.chan secState.chSel).buf.length < 2 ^ 13 := by decide

theorem witness_ControlWriteResult : (1#32).getLsbD 0 = true ∧ (0xFFFFFFFE#32).getLsbD 0 = false := by decide

theorem witness_ChannelWritesResult :
    Table.wf .off secState.mode = true ∧ Table.wf Chan.idle secState.ch = true ∧ (1#32).getLsbD 0 = true ∧
      (0xFFFFFFFE#32).getLsbD 0 = false := by decide

theorem witness_CommandsLeaveTheStreamSide :
    isCommand (.wrChMode 1#32) = true ∧ isSoftReset (.wrChMode 1#32) = false ∧ isSoftReset (.wrCtrl 0#32) = false := by
  decide

theorem witness_CommandCommutesWithByteInsideFrame :
    isCommand (.wrChMode 1#32) = true ∧ isSoftReset (.wrChMode 1#32) = false ∧
      (∀ d, Instr.wrChMode 1#32 ≠ .rdStatus d) ∧ ({ State.reset with byteCnt := 186 } : State).byteCnt.val < 187 :=
  ⟨rfl, rfl, fun _ => by simp, by decide⟩

/-- One address for each clause: not a multiple of 4, above the map, write-only, read-only. -/
theorem witness_UnmappedAccessHarmless :
    (0x05#8).toNat % 4 ≠ 0 ∧ (0x30#8).toNat > 0x2C ∧ (0x2D#8).toNat > 0x2C ∧
      0x28#8 ∈ [0x00#8, 0x1C#8, 0x24#8, 0x28#8] ∧ 0x2C#8 ∈ [0x04#8, 0x08#8, 0x0C#8, 0x10#8, 0x20#8, 0x2C#8] := by decide

theorem witness_SelectionInvisibleToStream : ∃ t, exec (decodeSymbol 0x047#9) State.reset = .next t := ⟨_, rfl⟩

theorem witness_FaultIsSticky : ∃ t, stopped.run = .fault ∧ step stopped = .next t ∧ ¬ ResetNext stopped := by
  refine ⟨_, rfl, rfl, ?_⟩
  rintro (h | ⟨i, h, hi⟩)
  · exact absurd h (by decide)
  · have e : stopped.fetch = .operation (.inByte 0x47#8) := rfl
    rw [e] at h
    cases h
    exact absurd hi (by decide)

theorem witness_RunStateTransitions :
    ∃ t, step { State.reset with pending := [.input 0x100#9] } = .next t ∧ t.run = .done := ⟨_, rfl, rfl⟩

theorem witness_StepEventsFollowRunState :
    (∃ t, step { State.reset with pending := [.input 0x100#9] } = .next t) ∧
      ∃ t, step { withFrame State.reset [0x48] 0#8 with pending := [.input 0x000#9], byteCnt := 187 } = .next t ∧
        decide (t.ev = [.fault .framingError 0#32 0#13]) = true :=
  ⟨⟨_, rfl⟩, next_of_nextIs (p := fun t => decide (t.ev = [.fault .framingError 0#32 0#13])) (by decide +kernel)⟩

theorem witness_ResetInputIsSoftReset : (0xFFFFFFFF#32).getLsbD 0 = true := by decide

/-- A state with a section held back meets the invariant. -/
theorem secZero_inv : (secZero [0x00, 0xB0, 0x05, 0x11, 0x22]).Inv := by
  refine ⟨by decide, by decide, by decide, by decide, by decide, by decide,
    ⟨by decide, by decide, by decide, by decide⟩, ?_⟩
  intro p
  by_cases h : p = 0#13
  · subst h
    exact .inr ⟨by decide, .inr (by decide)⟩
  · have hm : (secZero [0x00, 0xB0, 0x05, 0x11, 0x22]).modeOf p = .off :=
      (State.modeOf_setMode_ne State.reset .sec h).trans rfl
    have hc : (secZero [0x00, 0xB0, 0x05, 0x11, 0x22]).chan p = Chan.idle :=
      (State.chan_setChan_ne (State.reset.setMode 0#13 .sec) _ h).trans rfl
    rw [hm, hc]
    rfl

theorem witness_StepKeepsInv :
    ∃ s t, State.Inv s ∧ step s = .next t ∧ s.pending = [.input 0x047#9] ∧ t.byteCnt = 1 :=
  ⟨{ secZero [0x00, 0xB0, 0x05, 0x11, 0x22] with pending := [.input 0x047#9] }, _,
    secZero_inv.of_ports ⟨_, _, _, _, _, rfl⟩, rfl, rfl, rfl⟩

theorem witness_StepEmitsLegalEvents :
    ∃ s t, State.Inv s ∧ step s = .next t ∧ t.ev = [.endOfStream 0#8] :=
  ⟨{ secZero [0x00, 0xB0, 0x05, 0x11, 0x22] with pending := [.input 0x100#9] }, _,
    secZero_inv.of_ports ⟨_, _, _, _, _, rfl⟩, rfl, rfl⟩

theorem witness_BufferBounds :
    (secZero [0x00, 0xB0, 0x05, 0x11, 0x22]).Inv ∧ (List.replicate 184 0#8).length ≤ 184 ∧
      (secZero [0x00, 0xB0, 0x05, 0x11, 0x22]).modeOf 0#13 = .sec ∧
      (secZero [0x00, 0xB0, 0x05, 0x11, 0x22]).modeOf 1#13 = .off := ⟨secZero_inv, List.length_replicate.le, by decide, by decide⟩

/-- Two states that differ in FB[1], byte_cnt being 1. -/
theorem witness_StaleFrameBytesUnobservable :
    SameButStaleBytes { State.reset with byteCnt := 1, fb := [(0, 0x47#8)] }
      { State.reset with byteCnt := 1, fb := [(0, 0x47#8), (1, 0x5A#8)] } := by
  refine ⟨rfl, by decide, by decide, ?_⟩
  intro a h
  have : a = 0 := by
    have h' : a < 1 := h
    omega
  subst this
  rfl

end Sys2Proof.Tests
end

section
/-! SUPPORT. The step of each kind of presented port step, and with it the statement on what a step runs. -/

namespace Sys2Proof.Machine

/-! ## What is fetched, by the oldest presented port step (R11, R90, R91, R360) -/

theorem State.fetch_nil (s : State) : State.fetch { s with pending := [] } = .idle := rfl

theorem State.fetch_resetPin (s : State) (rest : List PortStep) :
    State.fetch { s with pending := .resetPin :: rest } = .reset := rfl

theorem State.fetch_input (s : State) (w : BitVec 9) (rest : List PortStep) :
    State.fetch { s with pending := .input w :: rest } = .operation (decodeSymbol w) := rfl

theorem State.fetch_command_ok {w : BitVec 41} {i : Instr} (h : decodeCommand w = .ok i) (s : State)
    (rest : List PortStep) : State.fetch { s with pending := .command w :: rest } = .operation i := by
  simp only [State.fetch, h]

theorem State.fetch_command_error {w : BitVec 41} {r : Reject} (h : decodeCommand w = .error r) (s : State)
    (rest : List PortStep) : State.fetch { s with pending := .command w :: rest } = .noOperation r := by
  simp only [State.fetch, h]

/-! ## What a step does with what is fetched -/

theorem step_of_fetch_idle {s : State} (h : s.fetch = .idle) : step s = .next s := by
  simp only [step, h]

theorem step_of_fetch_reset {s : State} (h : s.fetch = .reset) : step s = .next s.consume.resetAll := by
  simp only [step, h]

theorem step_of_fetch_operation {s : State} {i : Instr} (h : s.fetch = .operation i) :
    step s = exec i s.consume := by
  simp only [step, h]

theorem step_of_fetch_noOperation {s : State} {r : Reject} (h : s.fetch = .noOperation r) :
    step s = .next (s.consume.accessNothing r) := by
  simp only [step, h]

end Sys2Proof.Machine

namespace Sys2Proof.Statement

open Sys2Proof.Machine

/-- Settles O1, one conjunct for each kind of port step: what is fetched fixes what the step does (R11), and taking the
oldest port step leaves `rest` presented. -/
theorem stepRunsPresentedOperation : Obligations.StepRunsPresentedOperation := by
  unfold Obligations.StepRunsPresentedOperation
  intro s rest
  refine ⟨?input, ?command, ?readNothing, ?writeNothing, ?resetPin, ?idle⟩
  case input =>
    intro w
    exact step_of_fetch_operation (State.fetch_input s w rest)
  case command =>
    intro w i hw
    exact step_of_fetch_operation (State.fetch_command_ok hw s rest)
  case readNothing =>
    intro w a hw
    exact step_of_fetch_noOperation (State.fetch_command_error hw s rest)
  case writeNothing =>
    intro w a hw
    exact step_of_fetch_noOperation (State.fetch_command_error hw s rest)
  case resetPin => exact step_of_fetch_reset (State.fetch_resetPin s rest)
  case idle => exact step_of_fetch_idle (State.fetch_nil s)

end Sys2Proof.Statement
end

section
/-! SUPPORT. The results that a step can have, as one inductive, and with it the statements on the invariant: the reset
values meet it, and every step keeps it. -/

namespace Sys2Proof.Machine

open Sys2Proof.Statement

/-- The results of a step; on a 188th byte the frame step runs with that byte stored and byte_cnt back at 0 (R11, R141,
R146, R160, R260, R360). -/
inductive StepResult (s : State) : State → Prop where
  | idle : StepResult s s
  | reset (hreset : ResetNext s) : StepResult s s.consume.resetAll
  | host {t : State} (heffect : HostEffect s.consume t) : StepResult s t
  | discarded (hrun : s.run ≠ .run) : StepResult s s.consume
  | stored {b : Byte} (hfetch : s.fetch = .operation (.inByte b)) (hrun : s.run = .run) :
      StepResult s (s.consume.storeByte b)
  | ended {x : BitVec 8} (hfetch : s.fetch = .operation (.inEos x)) (hrun : s.run = .run) :
      StepResult s { s.consume.emit [.endOfStream (BitVec.ofNat 8 s.byteCnt.val)] with run := .done }
  | badSync {b : Byte} (hfetch : s.fetch = .operation (.inByte b)) (hrun : s.run = .run) (hlast : s.byteCnt.val = 187)
      (hzero : (s.consume.storeByte b).byteCnt = 0) :
      StepResult s ((s.consume.storeByte b).raiseFault .framingError 0#13)
  | packet {b : Byte} {af pl pusi : Bool} {o : TsOperands} (hfetch : s.fetch = .operation (.inByte b))
      (hrun : s.run = .run) (hlast : s.byteCnt.val = 187) (hzero : (s.consume.storeByte b).byteCnt = 0)
      (hsync : (s.consume.storeByte b).fb.read 0 = Config.sync) :
      StepResult s (packetStep af pl pusi o (s.consume.storeByte b))

theorem stepResult_of_step {s t : State} (h : step s = .next t) : StepResult s t := by
  rcases step_effect s with ⟨_, e⟩ | ⟨hr, e⟩ | ⟨_, _, t', e, he⟩ | ⟨hr, e⟩ | ⟨b, hf, hr, _, e⟩ | ⟨x, hf, hr, e⟩ |
    ⟨b, hf, hr, hb, h0, e⟩ <;> rw [e] at h
  · cases h
    exact .idle
  · cases h
    exact .reset (hr.imp id fun ⟨d, hd, hbit⟩ => ⟨_, hd, hbit⟩)
  · cases h
    exact .host he
  · cases h
    exact .discarded hr
  · cases h
    exact .stored hf hr
  · cases h
    exact .ended hf hr
  · rcases frameStep_cases (s.consume.storeByte b) hr with ⟨_, e'⟩ | ⟨hs, e'⟩ <;> rw [e'] at h <;> cases h
    · exact .badSync hf hr hb h0
    · exact .packet hf hr hb h0 hs

/-! ## Operations that keep the invariant -/

/-- The invariant holds after reset (R54). -/
theorem State.Inv.reset : State.reset.Inv :=
  ⟨by decide, by simp [State.reset], by decide, by simp [State.reset], by decide, by simp [State.reset],
    ⟨by decide, by decide, by decide, by decide⟩, fun _ => rfl⟩

theorem State.Inv.resetAll (s : State) : s.resetAll.Inv := State.Inv.reset.of_ports ⟨_, _, _, _, _, rfl⟩

theorem State.Inv.consume {s : State} (hi : s.Inv) : s.consume.Inv := hi.of_ports ⟨_, _, _, _, _, rfl⟩

theorem State.Inv.resetChan {s : State} (hi : s.Inv) (p : Pid) : (s.resetChan p).Inv := hi.setChan (idle_legal _)

/-- A new mode with its channel reset keeps the invariant; the record held under the old mode need not (R268). -/
theorem State.Inv.setMode_resetChan {s : State} (hi : s.Inv) (p : Pid) (m : Mode) :
    ((s.setMode p m).resetChan p).Inv := by
  have hc := hi.resetChan p
  refine ⟨hi.fb_wf, hi.fb_range, Table.wf_write _ _ _ _ hi.mode_wf, Table.range_write _ _ _ _ _ p.isLt hi.mode_range,
    hc.ch_wf, hc.ch_range,
    ⟨hi.fault_ok.fault_iff, hi.fault_ok.no_fault, hi.fault_ok.framing_pid, hi.fault_ok.at_boundary⟩, ?_⟩
  intro q
  by_cases hq : q = p
  · subst hq
    have hidle : ((s.setMode q m).resetChan q).chan q = Chan.idle := State.chan_setChan_same _ _ _ hi.ch_wf
    rw [hidle]
    exact idle_legal _
  · have hmode : ((s.setMode p m).resetChan p).modeOf q = s.modeOf q := State.modeOf_setMode_ne s m hq
    rw [hmode]
    exact hc.chan_legal q

/-- A host effect is that of a command on the channel file, but for ports, crc and ch_sel (R260). -/
theorem HostEffect.cases {s t : State} (h : HostEffect s t) :
    ∃ u, t = { u with crc := t.crc, chSel := t.chSel, resp := t.resp } ∧
      (u = s ∨ u = s.resetChan s.chSel ∨ ∃ m, u = (s.setMode s.chSel m).resetChan s.chSel) := by
  obtain ⟨hsame, ⟨hm, hc⟩ | ⟨hm, hc⟩ | ⟨m, hm, hc⟩⟩ := h <;> rw [hm, hc] at hsame
  · exact ⟨_, hsame, .inl rfl⟩
  · exact ⟨_, hsame, .inr (.inl rfl)⟩
  · exact ⟨_, hsame, .inr (.inr ⟨m, rfl⟩)⟩

theorem State.Inv.of_hostEffect {s t : State} (hi : s.Inv) (h : HostEffect s t) : t.Inv := by
  obtain ⟨u, ht, hu⟩ := h.cases
  have hiu : u.Inv := by
    rcases hu with rfl | rfl | ⟨m, rfl⟩
    · exact hi
    · exact hi.resetChan _
    · exact hi.setMode_resetChan _ m
  exact hiu.of_ports ⟨_, _, _, _, _, ht⟩

theorem State.Inv.countFrame {s : State} (hi : s.Inv) (hr : s.run = .run) : s.countFrame.Inv := by
  refine ⟨hi.fb_wf, hi.fb_range, hi.mode_wf, hi.mode_range, hi.ch_wf, hi.ch_range,
    ⟨hi.fault_ok.fault_iff, hi.fault_ok.no_fault, hi.fault_ok.framing_pid, ?_⟩, hi.chan_legal⟩
  intro h
  rw [State.countFrame_run, hr] at h
  cases h

/-- The end of the stream: no fault is recorded in RUN, and none is in DONE (R31, R146). -/
theorem State.Inv.done {s : State} (hi : s.Inv) (hr : s.run = .run) : State.Inv { s with run := .done } := by
  have hnone : s.faultCode = none := by
    by_contra h
    rw [hi.fault_ok.fault_iff.mpr h] at hr
    cases hr
  exact ⟨hi.fb_wf, hi.fb_range, hi.mode_wf, hi.mode_range, hi.ch_wf, hi.ch_range,
    ⟨by simp [hnone], hi.fault_ok.no_fault, hi.fault_ok.framing_pid, nofun⟩, hi.chan_legal⟩

/-- No cause raised by a channel stage is a FramingError (R333, R334). -/
theorem channelStage_error_ne_framing {m : Mode} {p : Pid} {pusi : Bool} {payload : List Byte} {c : Chan} {code : Cause}
    (h : channelStage m p pusi payload c = .error code) : code ≠ .framingError := by
  rcases channelStage_error h with ⟨_, _, rfl⟩ | ⟨_, rfl⟩ <;> decide

/-- At a frame boundary in RUN a packet keeps the invariant, by each of its three ways. -/
theorem State.Inv.packetStep {s : State} (hi : s.Inv) (hr : s.run = .run) (h0 : s.byteCnt = 0) (af pl pusi : Bool)
    (o : TsOperands) : (packetStep af pl pusi o s).Inv := by
  rcases packetStep_cases af pl pusi o s with ⟨_, e⟩ | ⟨_, code, _, hc, e⟩ | ⟨_, c, es, _, hc, e⟩ <;> rw [e]
  · exact hi.raiseFault h0 nofun
  · exact (hi.emit _).raiseFault h0 fun h => absurd h (channelStage_error_ne_framing hc)
  · have hlegal : c.Legal (s.modeOf o.pid) := channelStage_legal (hi.chan_legal o.pid) hc
    exact (((hi.emit _).setChan hlegal).emit es).countFrame hr

/-- Every step keeps the invariant. -/
theorem State.Inv.step {s t : State} (hi : s.Inv) (h : StepResult s t) : t.Inv := by
  cases h with
  | idle => exact hi
  | reset => exact State.Inv.resetAll _
  | host heffect => exact hi.consume.of_hostEffect heffect
  | discarded => exact hi.consume
  | stored _ hrun => exact hi.consume.storeByte hrun _
  | ended _ hrun => exact (hi.consume.emit _).done hrun
  | badSync _ hrun _ hzero => exact (hi.consume.storeByte hrun _).raiseFault hzero fun _ => rfl
  | packet _ hrun _ hzero _ => exact (hi.consume.storeByte hrun _).packetStep hrun hzero _ _ _ _

end Sys2Proof.Machine

namespace Sys2Proof.Statement

open Sys2Proof.Machine

/-- Settles O53, by cases on the result of the step. -/
theorem stepKeepsInv : Obligations.StepKeepsInv := by
  unfold Obligations.StepKeepsInv
  intro s t hi h
  exact hi.step (stepResult_of_step h)

/-- Settles O52. -/
theorem invHoldsAtReset : Obligations.InvHoldsAtReset := State.Inv.reset

/-- Settles O51: each element is read off `State.reset`, and the two empty tables give their defaults for every PID. -/
theorem resetValues : Obligations.ResetValues := by
  unfold Obligations.ResetValues
  exact ⟨rfl, rfl, rfl, rfl, rfl, rfl, rfl, rfl, fun _ => rfl, fun _ => rfl⟩

end Sys2Proof.Statement
end

section
/-! SUPPORT. The events of a step and the run state after it, and with them the statements on legal events, the sticky
fault and the changes of the run state. -/

namespace Sys2Proof.Machine

open Sys2Proof.Statement

/-! ## Legal events (R48 to R53) -/

/-- `t` has the events of `s` and after them legal ones only. -/
def AppendsLegal (s t : State) : Prop := ∃ es, t.ev = s.ev ++ es ∧ ∀ e ∈ es, e.Legal

theorem AppendsLegal.of_ev_eq {s t : State} (h : t.ev = s.ev) : AppendsLegal s t := ⟨[], by simp [h], by simp⟩

theorem HostEffect.ev_eq {s t : State} (h : HostEffect s t) : t.ev = s.ev := by rw [h.same]

/-- The `PKT` event of a frame with a good sync byte has the ranges of R48. -/
theorem packetOf_legal {af pl : Bool} (pusi : Bool) (o : TsOperands) {s : State} {body : FrameBody}
    (hs : s.fb.read 0 = Config.sync) (hb : frameBody af pl s.fb = some body) :
    (Event.pkt (packetOf af pl pusi o body s)).Legal := by
  rcases frameBody_cases af pl s.fb with ⟨h, _⟩ | ⟨b, h, hpay, haf, hlen, hpres, hnoaf, hnopl⟩ <;> rw [hb] at h <;> cases h
  have hafc : (BitVec.ofBool af ++ BitVec.ofBool pl).getLsbD 1 = af ∧
      (BitVec.ofBool af ++ BitVec.ofBool pl).getLsbD 0 = pl := by
    cases af <;> cases pl <;> decide
  have hhead : (s.fb.readBytes 0 Config.frameLen).head? = some (s.fb.read 0) := rfl
  refine ⟨Memory.length_readBytes _ _ _, hhead.trans (congrArg some hs), hpay, haf, hlen, ?_, ?_, ?_⟩
  · exact hpres.trans hafc.1.symm
  · exact fun h => hnoaf (hpres.symm.trans h)
  · exact fun h => hnopl (hafc.2.symm.trans h)

/-- A packet under the invariant appends its `PKT` event, then those of its channel stage or the `FAULT` of one. -/
theorem packetStep_appendsLegal {s : State} (hi : s.Inv) (hs : s.fb.read 0 = Config.sync) (af pl pusi : Bool)
    (o : TsOperands) : AppendsLegal s (packetStep af pl pusi o s) := by
  rcases packetStep_cases af pl pusi o s with ⟨_, e⟩ | ⟨body, code, hb, hc, e⟩ | ⟨body, c, es, hb, hc, e⟩ <;> rw [e]
  · refine ⟨[.fault .adaptationOverrun s.frameCnt o.pid], rfl, List.forall_mem_singleton.mpr ?_⟩
    exact nofun
  · refine ⟨[.pkt (packetOf af pl pusi o body s), .fault code s.frameCnt o.pid], by simp, ?_⟩
    have hfault : (Event.fault code s.frameCnt o.pid).Legal := fun h => absurd h (channelStage_error_ne_framing hc)
    simp only [List.forall_mem_cons]
    exact ⟨packetOf_legal pusi o hs hb, hfault, by simp⟩
  · refine ⟨.pkt (packetOf af pl pusi o body s) :: es, by simp [State.countFrame, State.emit, State.setChan], ?_⟩
    have hpkt := packetOf_legal pusi o hs hb
    obtain ⟨_, _, hpay, _⟩ := id hpkt
    exact List.forall_mem_cons.mpr ⟨hpkt, channelStage_events (hi.chan_legal o.pid) hpay hc⟩

theorem StepResult.appendsLegal {s t : State} (hi : s.Inv) (h : StepResult s t) : AppendsLegal s t := by
  cases h with
  | idle => exact .of_ev_eq rfl
  | reset => exact .of_ev_eq rfl
  | host heffect => exact .of_ev_eq heffect.ev_eq
  | discarded => exact .of_ev_eq rfl
  | stored => exact .of_ev_eq rfl
  | ended =>
    refine ⟨_, rfl, List.forall_mem_singleton.mpr ?_⟩
    have hlt := s.byteCnt.isLt
    show (BitVec.ofNat 8 s.byteCnt.val).toNat ≤ 187
    rw [BitVec.toNat_ofNat]
    omega
  | badSync =>
    refine ⟨_, rfl, List.forall_mem_singleton.mpr ?_⟩
    exact fun _ => rfl
  | packet _ hrun _ _ hsync => exact packetStep_appendsLegal (hi.consume.storeByte hrun _) hsync _ _ _ _

/-! ## Events and run state of a frame (R47, R53, R338) -/

/-- An event that is neither `END` nor `FAULT`. -/
def Event.Plain (e : Event) : Prop := (∀ r, e ≠ .endOfStream r) ∧ ∀ code frame pid, e ≠ .fault code frame pid

/-- A frame from `s` to `t` appends the plain events `es` and goes on, or enters a fault after them. -/
def FrameResult (s t : State) (es : List Event) : Prop :=
  (∀ e ∈ es, e.Plain) ∧
    ((t.run = s.run ∧ t.ev = s.ev ++ es) ∨
      ∃ code pid, t.run = .fault ∧ t.faultCode = some code ∧ t.faultFrame = s.frameCnt ∧ t.faultPid = pid ∧
        t.ev = s.ev ++ es ++ [.fault code s.frameCnt pid])

theorem raiseFault_frameResult (s : State) (code : Cause) (p : Pid) : FrameResult s (s.raiseFault code p) [] :=
  ⟨by simp, .inr ⟨code, p, rfl, rfl, rfl, rfl, by simp⟩⟩

theorem packetStep_frameResult (af pl pusi : Bool) (o : TsOperands) (s : State) :
    ∃ es, FrameResult s (packetStep af pl pusi o s) es := by
  have hpkt : ∀ p, (Event.pkt p).Plain := fun p => ⟨nofun, nofun⟩
  rcases packetStep_cases af pl pusi o s with ⟨_, e⟩ | ⟨body, code, _, _, e⟩ | ⟨body, c, es, _, hc, e⟩ <;> rw [e]
  · exact ⟨_, raiseFault_frameResult s _ _⟩
  · exact ⟨[.pkt (packetOf af pl pusi o body s)], List.forall_mem_singleton.mpr (hpkt _),
      .inr ⟨code, o.pid, rfl, rfl, rfl, rfl, rfl⟩⟩
  · exact ⟨.pkt (packetOf af pl pusi o body s) :: es,
      List.forall_mem_cons.mpr ⟨hpkt _, channelStage_events_plain hc⟩,
      .inl ⟨rfl, by simp [State.countFrame, State.emit, State.setChan]⟩⟩

theorem FrameResult.run_eq {s t : State} {es : List Event} (h : FrameResult s t es) : t.run = s.run ∨ t.run = .fault := by
  obtain ⟨_, ⟨hrun, _⟩ | ⟨_, _, hrun, _⟩⟩ := h
  · exact .inl hrun
  · exact .inr hrun

theorem HostEffect.stream_eq {s t : State} (h : HostEffect s t) :
    t.run = s.run ∧ t.faultCode = s.faultCode ∧ t.faultFrame = s.faultFrame ∧ t.faultPid = s.faultPid ∧
      t.frameCnt = s.frameCnt ∧ t.byteCnt = s.byteCnt ∧ t.fb = s.fb ∧ t.ev = s.ev := by
  rw [h.same]
  exact ⟨rfl, rfl, rfl, rfl, rfl, rfl, rfl, rfl⟩

end Sys2Proof.Machine

namespace Sys2Proof.Statement

open Sys2Proof.Machine

/-- The operation presented when a reset is next is the reset. -/
theorem ResetNext.isSoftReset {s : State} (h : ResetNext s) {i : Instr} (hf : s.fetch = .operation i) :
    isSoftReset i = true := by
  rcases h with h | ⟨j, hj, hreset⟩
  · rw [hf] at h
    cases h
  · rw [hf] at hj
    cases hj
    exact hreset

theorem not_resetNext_of_inByte {s : State} {b : Byte} (hf : s.fetch = .operation (.inByte b)) : ¬ ResetNext s :=
  fun h => Bool.noConfusion (h.isSoftReset hf)

/-- What O48 says of the events `es` that a step from `s` to `t` emits. -/
def EventsFollowRun (s t : State) (es : List Event) : Prop :=
  t.ev = s.ev ++ es ∧
    (s.run ≠ .run ∨ ResetNext s → es = []) ∧
    (∀ r, .endOfStream r ∈ es → es = [.endOfStream r] ∧ r = BitVec.ofNat 8 s.byteCnt.val ∧ t.run = .done) ∧
    (∀ code frame pid, .fault code frame pid ∈ es →
      es.getLast? = some (.fault code frame pid) ∧ t.run = .fault ∧ t.faultCode = some code ∧
        t.faultFrame = frame ∧ t.faultPid = pid ∧ frame = s.frameCnt) ∧
    (t.run = .fault → s.run = .run → ∃ code frame pid, .fault code frame pid ∈ es)

/-- A step that emits nothing and does not go from RUN to FAULT. -/
theorem EventsFollowRun.silent {s t : State} (hev : t.ev = s.ev) (hrun : t.run = .fault → s.run ≠ .run) :
    EventsFollowRun s t [] :=
  ⟨by simp [hev], fun _ => rfl, nofun, nofun, fun ht hs => absurd hs (hrun ht)⟩

/-- A frame of a step in RUN that is no reset: the plain events are neither `END` nor `FAULT`, so the one `FAULT` is the
last event. -/
theorem eventsFollowRun_of_frameResult {s u t : State} {es : List Event} (hs : s.run = .run) (hreset : ¬ ResetNext s)
    (hev : u.ev = s.ev) (hrun : u.run = s.run) (hcnt : u.frameCnt = s.frameCnt) (h : FrameResult u t es) :
    ∃ es, EventsFollowRun s t es := by
  have hsilent : ∀ {es' : List Event}, s.run ≠ .run ∨ ResetNext s → es' = [] :=
    fun h => (h.elim (· hs) hreset).elim
  obtain ⟨hplain, ⟨htrun, htev⟩ | ⟨code, pid, htrun, hcode, hframe, hpid, htev⟩⟩ := h
  · refine ⟨es, by rw [htev, hev], hsilent, ?_, ?_, ?_⟩
    · exact fun r hr => absurd rfl ((hplain _ hr).1 r)
    · exact fun code frame pid hf => absurd rfl ((hplain _ hf).2 code frame pid)
    · intro hfault
      rw [htrun, hrun, hs] at hfault
      cases hfault
  · refine ⟨es ++ [.fault code s.frameCnt pid], by rw [htev, hev, hcnt, List.append_assoc], hsilent, ?_, ?_, ?_⟩
    · intro r hr
      rcases List.mem_append.mp hr with hr | hr
      · exact absurd rfl ((hplain _ hr).1 r)
      · cases List.mem_singleton.mp hr
    · intro code' frame' pid' hf
      rcases List.mem_append.mp hf with hf | hf
      · exact absurd rfl ((hplain _ hf).2 code' frame' pid')
      · cases List.mem_singleton.mp hf
        exact ⟨by simp, htrun, hcode, hframe.trans hcnt, hpid, rfl⟩
    · exact fun _ _ => ⟨code, s.frameCnt, pid, by simp⟩

/-- Settles O54, by cases on the result of the step. -/
theorem stepEmitsLegalEvents : Obligations.StepEmitsLegalEvents := by
  unfold Obligations.StepEmitsLegalEvents
  intro s t hi h
  exact (stepResult_of_step h).appendsLegal hi

/-- Settles O46, by cases on the result of the step: the results of a symbol in RUN cannot be, and a reset is excluded. -/
theorem faultIsSticky : Obligations.FaultIsSticky := by
  unfold Obligations.FaultIsSticky
  intro s t hfault h hreset
  have hout : s.run ≠ .run := by
    rw [hfault]
    decide
  cases stepResult_of_step h with
  | idle => exact ⟨hfault, rfl, rfl, rfl, rfl, rfl, rfl, rfl⟩
  | reset hr => exact absurd hr hreset
  | host heffect =>
    obtain ⟨hrun, hrest⟩ := heffect.stream_eq
    exact ⟨hrun.trans hfault, hrest⟩
  | discarded => exact ⟨hfault, rfl, rfl, rfl, rfl, rfl, rfl, rfl⟩
  | stored _ hrun => exact absurd hrun hout
  | ended _ hrun => exact absurd hrun hout
  | badSync _ hrun => exact absurd hrun hout
  | packet _ hrun => exact absurd hrun hout

/-- Settles O47, by cases on the result of the step. -/
theorem runStateTransitions : Obligations.RunStateTransitions := by
  unfold Obligations.RunStateTransitions
  intro s t h
  cases stepResult_of_step h with
  | idle => exact .inl rfl
  | reset hreset => exact .inr (.inr (.inr ⟨rfl, hreset⟩))
  | host heffect => exact .inl heffect.stream_eq.1
  | discarded => exact .inl rfl
  | stored => exact .inl rfl
  | ended hfetch hrun => exact .inr (.inl ⟨hrun, rfl, _, hfetch⟩)
  | badSync hfetch hrun hlast => exact .inr (.inr (.inl ⟨hrun, rfl, hlast, _, hfetch⟩))
  | packet hfetch hrun hlast =>
    obtain ⟨_, hframe⟩ := packetStep_frameResult _ _ _ _ _
    rcases hframe.run_eq with hsame | hfault
    · exact .inl hsame
    · exact .inr (.inr (.inl ⟨hrun, hfault, hlast, _, hfetch⟩))

/-- Settles O48, by cases on the result of the step: only the end of the stream and a frame emit events. -/
theorem stepEventsFollowRunState : Obligations.StepEventsFollowRunState := by
  unfold Obligations.StepEventsFollowRunState
  intro s t h
  show ∃ es, EventsFollowRun s t es
  have hne : Run.fault ≠ .run := by decide
  cases stepResult_of_step h with
  | idle => exact ⟨[], .silent rfl fun hfault => hfault ▸ hne⟩
  | reset => exact ⟨[], .silent rfl nofun⟩
  | host heffect =>
    obtain ⟨hrun, _⟩ := heffect.stream_eq
    exact ⟨[], .silent heffect.ev_eq fun hfault => hrun.symm.trans hfault ▸ hne⟩
  | discarded hrun => exact ⟨[], .silent rfl fun _ => hrun⟩
  | stored _ hrun => exact ⟨[], .silent rfl fun hfault => hfault ▸ hne⟩
  | ended hfetch hrun =>
    refine ⟨_, rfl, ?_, ?_, ?_, nofun⟩
    · rintro (hout | hreset)
      · exact absurd hrun hout
      · exact Bool.noConfusion (hreset.isSoftReset hfetch)
    · intro r hr
      cases List.mem_singleton.mp hr
      exact ⟨rfl, rfl, rfl⟩
    · intro code frame pid hf
      cases List.mem_singleton.mp hf
  | badSync hfetch hrun =>
    exact eventsFollowRun_of_frameResult hrun (not_resetNext_of_inByte hfetch) rfl rfl rfl (raiseFault_frameResult _ _ _)
  | packet hfetch hrun =>
    obtain ⟨_, hframe⟩ := packetStep_frameResult _ _ _ _ _
    exact eventsFollowRun_of_frameResult hrun (not_resetNext_of_inByte hfetch) rfl rfl rfl hframe

end Sys2Proof.Statement
end

section
/-! SUPPORT. What a frame depends on and what it leaves alone, and with it the statements on other channels, on ch_sel and
on the stale bytes of FB. -/

namespace Sys2Proof.Machine

open Sys2Proof.Statement

/-! ## What a frame leaves alone (R30, R129) -/

/-- A packet writes the run state, the fault record, frame_cnt, the channel file and EV, and nothing else. -/
theorem packetStep_same (af pl pusi : Bool) (o : TsOperands) (s : State) :
    ∃ r code frame pid cnt ch ev, packetStep af pl pusi o s =
      { s with
        run := r, faultCode := code, faultFrame := frame, faultPid := pid, frameCnt := cnt, ch := ch, ev := ev } := by
  rcases packetStep_cases af pl pusi o s with ⟨_, e⟩ | ⟨_, _, _, _, e⟩ | ⟨_, _, _, _, _, e⟩ <;>
    exact ⟨_, _, _, _, _, _, _, e⟩

theorem packetStep_chan_ne (af pl pusi : Bool) (o : TsOperands) (s : State) {q : Pid} (hq : q ≠ o.pid) :
    (packetStep af pl pusi o s).chan q = s.chan q := by
  rcases packetStep_cases af pl pusi o s with ⟨_, e⟩ | ⟨_, _, _, _, e⟩ | ⟨_, c, _, _, _, e⟩ <;> rw [e]
  · rfl
  · rfl
  · exact State.chan_setChan_ne s c hq

theorem exec_frameInstr (af pl pusi : Bool) (o : TsOperands) (s : State) :
    exec (frameInstr af pl pusi o) s = s.whenRunning (packetStep af pl pusi o s) := by
  cases af <;> cases pl <;> cases pusi <;> rfl

/-- A stream operation is executed in RUN and discarded otherwise (R144). -/
theorem whenRunning_eq_next {s u t : State} (h : s.whenRunning u = .next t) :
    (s.run = .run ∧ t = u) ∨ (s.run ≠ .run ∧ t = s) := by
  unfold State.whenRunning at h
  split at h <;> cases h
  · exact .inl ⟨‹_›, rfl⟩
  · exact .inr ⟨‹_›, rfl⟩

/-! ## What a frame depends on (R29, R30) -/

/-- Two states that a frame of PID `p` cannot tell apart. -/
structure AgreeOn (p : Pid) (s u : State) : Prop where
  run        : s.run = u.run
  faultCode  : s.faultCode = u.faultCode
  faultFrame : s.faultFrame = u.faultFrame
  faultPid   : s.faultPid = u.faultPid
  frameCnt   : s.frameCnt = u.frameCnt
  fb         : s.fb = u.fb
  modeOf     : s.modeOf p = u.modeOf p
  chan       : s.chan p = u.chan p

theorem AgreeOn.emit {p : Pid} {s u : State} (h : AgreeOn p s u) (es : List Event) : AgreeOn p (s.emit es) (u.emit es) :=
  ⟨h.run, h.faultCode, h.faultFrame, h.faultPid, h.frameCnt, h.fb, h.modeOf, h.chan⟩

theorem AgreeOn.raiseFault {p : Pid} {s u : State} (h : AgreeOn p s u) (code : Cause) (q : Pid) :
    AgreeOn p (s.raiseFault code q) (u.raiseFault code q) :=
  ⟨rfl, rfl, h.frameCnt, rfl, h.frameCnt, h.fb, h.modeOf, h.chan⟩

theorem AgreeOn.countFrame {p : Pid} {s u : State} (h : AgreeOn p s u) : AgreeOn p s.countFrame u.countFrame :=
  ⟨h.run, h.faultCode, h.faultFrame, h.faultPid, congrArg (· + 1#32) h.frameCnt, h.fb, h.modeOf, h.chan⟩

theorem AgreeOn.setChan {p : Pid} {s u : State} (h : AgreeOn p s u) (hs : Table.wf Chan.idle s.ch = true)
    (hu : Table.wf Chan.idle u.ch = true) (c : Chan) : AgreeOn p (s.setChan p c) (u.setChan p c) :=
  ⟨h.run, h.faultCode, h.faultFrame, h.faultPid, h.frameCnt, h.fb, h.modeOf,
    (State.chan_setChan_same s p c hs).trans (State.chan_setChan_same u p c hu).symm⟩

/-- A packet leaves two states that agree on its PID in agreement, and appends the same events to both. -/
theorem AgreeOn.packetStep {o : TsOperands} {s u : State} (h : AgreeOn o.pid s u) (hs : Table.wf Chan.idle s.ch = true)
    (hu : Table.wf Chan.idle u.ch = true) (af pl pusi : Bool) :
    AgreeOn o.pid (packetStep af pl pusi o s) (packetStep af pl pusi o u) ∧
      ∃ es, (packetStep af pl pusi o s).ev = s.ev ++ es ∧ (packetStep af pl pusi o u).ev = u.ev ++ es := by
  have hpacket : ∀ body, packetOf af pl pusi o body u = packetOf af pl pusi o body s := by
    intro body
    simp only [packetOf, h.frameCnt, h.fb]
  unfold Machine.packetStep
  rw [← h.fb, ← h.modeOf, ← h.chan]
  cases frameBody af pl s.fb with
  | none =>
    refine ⟨h.raiseFault _ _, [.fault .adaptationOverrun s.frameCnt o.pid], rfl, ?_⟩
    simp only [State.raiseFault_ev, h.frameCnt]
  | some body =>
    simp only [hpacket]
    cases channelStage (s.modeOf o.pid) o.pid pusi body.payload (s.chan o.pid) with
    | error code =>
      refine ⟨(h.emit _).raiseFault _ _,
        [.pkt (packetOf af pl pusi o body s), .fault code s.frameCnt o.pid], ?_, ?_⟩ <;>
        simp [finishFrame, State.commitChan, h.frameCnt]
    | ok ce =>
      refine ⟨(((h.emit _).setChan hs hu ce.1).emit ce.2).countFrame,
        .pkt (packetOf af pl pusi o body s) :: ce.2, ?_, ?_⟩ <;>
        simp [finishFrame, State.commitChan]

/-! ## Frames of two states that differ in ch_sel and in the representation of FB -/

/-- A packet depends on the bytes 0 to 187 that FB reads as and not on ch_sel. -/
theorem packetStep_replace (af pl pusi : Bool) (o : TsOperands) {s : State} {m : Memory} (q : Pid)
    (hm : ∀ a, a < 188 → m.read a = s.fb.read a) :
    packetStep af pl pusi o { s with fb := m, chSel := q } =
      { packetStep af pl pusi o s with fb := m, chSel := q } := by
  have hbody : frameBody af pl m = frameBody af pl s.fb := frameBody_congr af pl hm
  have hpacket : ∀ body, packetOf af pl pusi o body { s with fb := m, chSel := q } = packetOf af pl pusi o body s := by
    intro body
    have hraw : m.readBytes 0 Config.frameLen = s.fb.readBytes 0 Config.frameLen :=
      Memory.readBytes_congr fun j _ hj => hm j (by omega)
    simp only [packetOf, hraw]
  unfold packetStep
  simp only [hbody, hpacket]
  cases frameBody af pl s.fb with
  | none => rfl
  | some body =>
    show finishFrame _ _ (channelStage (s.modeOf o.pid) o.pid pusi body.payload (s.chan o.pid)) =
      { finishFrame _ _ (channelStage (s.modeOf o.pid) o.pid pusi body.payload (s.chan o.pid)) with fb := m, chSel := q }
    cases channelStage (s.modeOf o.pid) o.pid pusi body.payload (s.chan o.pid) <;> rfl

/-- The frame step of two such states, which keeps FB, byte_cnt and ch_sel in both. -/
theorem frameStep_replace {s : State} (hr : s.run = .run) {m : Memory} (q : Pid)
    (hm : ∀ a, a < 188 → m.read a = s.fb.read a) :
    ∃ t, frameStep s = .next t ∧ frameStep { s with fb := m, chSel := q } = .next { t with fb := m, chSel := q } ∧
      t.fb = s.fb ∧ t.byteCnt = s.byteCnt ∧ t.chSel = s.chSel := by
  have h0 : m.read 0 = s.fb.read 0 := hm 0 (by omega)
  rcases frameStep_cases s hr with ⟨hs, e⟩ | ⟨hs, e⟩ <;>
    rcases frameStep_cases { s with fb := m, chSel := q } hr with ⟨hs', e'⟩ | ⟨hs', e'⟩
  · exact ⟨_, e, e', rfl, rfl, rfl⟩
  · exact absurd (h0.symm.trans hs') hs
  · exact absurd (h0.trans hs) hs'
  · have hword : headerWord m = headerWord s.fb := headerWord_congr hm
    simp only [hword, packetStep_replace _ _ _ _ q hm] at e'
    obtain ⟨_, _, _, _, _, _, _, hsame⟩ := packetStep_same ((headerWord s.fb).getLsbD 5) ((headerWord s.fb).getLsbD 4)
      ((headerWord s.fb).getLsbD 22) (tsOperandsOf (headerWord s.fb)) s
    exact ⟨_, e, e', by rw [hsame], by rw [hsame], by rw [hsame]⟩

/-! ## Stream symbols, by the state they meet (R141, R144, R146) -/

theorem exec_inByte_of_not_run (b : Byte) {s : State} (hr : s.run ≠ .run) : exec (.inByte b) s = .next s := if_neg hr

theorem exec_inByte_of_lt (b : Byte) {s : State} (hr : s.run = .run) (hb : s.byteCnt.val < 187) :
    exec (.inByte b) s = .next (s.storeByte b) := (if_pos hr).trans (if_pos hb)

theorem exec_inByte_of_last (b : Byte) {s : State} (hr : s.run = .run) (hb : ¬ s.byteCnt.val < 187) :
    exec (.inByte b) s = frameStep (s.storeByte b) := (if_pos hr).trans (if_neg hb)

theorem exec_inEos_of_not_run (x : BitVec 8) {s : State} (hr : s.run ≠ .run) : exec (.inEos x) s = .next s := if_neg hr

theorem exec_inEos_of_run (x : BitVec 8) {s : State} (hr : s.run = .run) : exec (.inEos x) s =
    .next { s.emit [.endOfStream (BitVec.ofNat 8 s.byteCnt.val)] with run := .done } := if_pos hr

theorem decodeSymbol_cases (w : BitVec 9) : (∃ b, decodeSymbol w = .inByte b) ∨ ∃ x, decodeSymbol w = .inEos x := by
  unfold decodeSymbol
  split
  · exact .inr ⟨_, rfl⟩
  · exact .inl ⟨_, rfl⟩

/-- What a port step presents as an operation was decoded from a symbol or from a command (R90, R91). -/
theorem fetch_operation_cases {s : State} {i : Instr} (h : s.fetch = .operation i) :
    (∃ w, i = decodeSymbol w) ∨ ∃ w, decodeCommand w = .ok i := by
  unfold State.fetch at h
  split at h
  · cases h
  · cases h
  · cases h
    exact .inl ⟨_, rfl⟩
  · split at h <;> cases h
    exact .inr ⟨_, ‹_›⟩

end Sys2Proof.Machine

namespace Sys2Proof.Statement

open Sys2Proof.Machine

theorem sameOutsideChannel_refl (p : Pid) (s : State) : SameOutsideChannel p s s :=
  ⟨rfl, rfl, rfl, rfl, rfl, fun _ => rfl, fun _ => rfl, fun _ _ => rfl⟩

theorem packetStep_sameOutsideChannel (af pl pusi : Bool) (o : TsOperands) (s : State) :
    SameOutsideChannel o.pid s (packetStep af pl pusi o s) := by
  have hchan : ∀ q, q ≠ o.pid → (packetStep af pl pusi o s).chan q = s.chan q :=
    fun q hq => packetStep_chan_ne af pl pusi o s hq
  obtain ⟨_, _, _, _, _, _, _, hsame⟩ := packetStep_same af pl pusi o s
  rw [hsame] at hchan ⊢
  exact ⟨rfl, rfl, rfl, rfl, rfl, fun _ => rfl, fun _ => rfl, hchan⟩

/-- Settles O22: a packet writes no channel but its own, and the trap entry of TS.BAD none at all. -/
theorem frameTouchesOnlyItsChannel : Obligations.FrameTouchesOnlyItsChannel := by
  unfold Obligations.FrameTouchesOnlyItsChannel
  rintro i p s t (⟨af, pl, pusi, o, rfl, rfl⟩ | ⟨sync, x, rfl⟩) h
  · rw [exec_frameInstr] at h
    rcases whenRunning_eq_next h with ⟨_, rfl⟩ | ⟨_, rfl⟩
    · exact packetStep_sameOutsideChannel af pl pusi o s
    · exact sameOutsideChannel_refl _ _
  · rcases whenRunning_eq_next (show s.whenRunning (s.raiseFault .framingError 0#13) = .next t from h) with
      ⟨_, rfl⟩ | ⟨_, rfl⟩
    · exact ⟨rfl, rfl, rfl, rfl, rfl, fun _ => rfl, fun _ => rfl, fun _ _ => rfl⟩
    · exact sameOutsideChannel_refl _ _

/-- Settles O23: the premises are agreement on the PID, which a packet keeps. -/
theorem otherChannelsDoNotMatter : Obligations.OtherChannelsDoNotMatter := by
  unfold Obligations.OtherChannelsDoNotMatter
  intro af pl pusi o s u t v hrun hcode hframe hpid hcnt hfb hmode hchan hs hu ht hv
  have hagree : AgreeOn o.pid s u := ⟨hrun, hcode, hframe, hpid, hcnt, hfb, hmode, hchan⟩
  have hresult : AgreeOn o.pid t v ∧ ∃ es, t.ev = s.ev ++ es ∧ v.ev = u.ev ++ es := by
    rw [exec_frameInstr] at ht hv
    rcases whenRunning_eq_next ht with ⟨hr, rfl⟩ | ⟨hr, rfl⟩ <;>
      rcases whenRunning_eq_next hv with ⟨hr', rfl⟩ | ⟨hr', rfl⟩
    · exact hagree.packetStep hs hu af pl pusi
    · exact absurd (hrun.symm.trans hr) hr'
    · exact absurd (hrun.trans hr') hr
    · exact ⟨hagree, [], by simp, by simp⟩
  obtain ⟨h, hev⟩ := hresult
  exact ⟨h.run, h.faultCode, h.faultFrame, h.faultPid, h.frameCnt, h.chan, hev⟩

/-- Settles O44, by the symbol and by what the state lets it do. -/
theorem selectionInvisibleToStream : Obligations.SelectionInvisibleToStream := by
  unfold Obligations.SelectionInvisibleToStream
  intro w p s t h
  rcases decodeSymbol_cases w with ⟨b, hw⟩ | ⟨x, hw⟩ <;> rw [hw] at h ⊢ <;> by_cases hr : s.run = .run
  · by_cases hb : s.byteCnt.val < 187
    · rw [exec_inByte_of_lt b hr hb] at h
      cases h
      exact exec_inByte_of_lt b hr hb
    · rw [exec_inByte_of_last b hr hb] at h
      obtain ⟨t', e, e', hfb, _⟩ := frameStep_replace (s := s.storeByte b) hr p fun _ _ => rfl
      rw [h] at e
      cases e
      have ht : ({ t with chSel := p } : State) = { t with fb := (s.storeByte b).fb, chSel := p } := by rw [← hfb]
      rw [ht]
      exact (exec_inByte_of_last (s := { s with chSel := p }) b hr hb).trans e'
  · rw [exec_inByte_of_not_run b hr] at h
    cases h
    exact exec_inByte_of_not_run b hr
  · rw [exec_inEos_of_run x hr] at h
    cases h
    exact exec_inEos_of_run x hr
  · rw [exec_inEos_of_not_run x hr] at h
    cases h
    exact exec_inEos_of_not_run x hr

/-! ## Stale bytes of FB (R25) -/

theorem SameButStaleBytes.eq_replace {s u : State} (h : SameButStaleBytes s u) : ∃ m, u = { s with fb := m } := ⟨_, h.1⟩

theorem SameButStaleBytes.refl {s : State} (h : s.fb.wf = true) : SameButStaleBytes s s := ⟨rfl, h, h, fun _ _ => rfl⟩

/-- The two states go on differing in stale bytes only while a step keeps FB and byte_cnt. -/
theorem SameButStaleBytes.of_kept {s u t : State} (h : SameButStaleBytes s u) (hfb : t.fb = s.fb)
    (hcnt : t.byteCnt = s.byteCnt) : SameButStaleBytes t { t with fb := u.fb } := by
  obtain ⟨_, hs, hu, hread⟩ := h
  refine ⟨rfl, hfb ▸ hs, hu, ?_⟩
  rw [hfb, hcnt]
  exact hread

/-- Storing a byte at byte_cnt makes the bytes agree up to and including it. -/
theorem SameButStaleBytes.read_storeByte {s u : State} (h : SameButStaleBytes s u) (b : Byte) {a : Nat}
    (ha : a ≤ s.byteCnt.val) : (u.storeByte b).fb.read a = (s.storeByte b).fb.read a := by
  obtain ⟨m, rfl⟩ := h.eq_replace
  obtain ⟨_, hswf, hmwf, hread⟩ := h
  show (m.write s.byteCnt.val b).read a = (s.fb.write s.byteCnt.val b).read a
  by_cases hlast : a = s.byteCnt.val
  · rw [hlast, Memory.read_write_same _ _ _ hmwf, Memory.read_write_same _ _ _ hswf]
  · rw [Memory.read_write_ne _ _ hlast, Memory.read_write_ne _ _ hlast]
    exact hread a (by omega)

/-- The outcomes of two states are next states that differ at most in stale bytes. -/
def BothNext (x y : Host.Outcome State Fault Refusal) : Prop :=
  ∃ t v, x = .next t ∧ y = .next v ∧ SameButStaleBytes t v

theorem SameButStaleBytes.ite {c : Prop} [Decidable c] {s u s' u' : State} (h : SameButStaleBytes s u)
    (h' : SameButStaleBytes s' u') : SameButStaleBytes (if c then s else s') (if c then u else u') := by
  split
  · exact h
  · exact h'

/-- A host command reads no byte of FB: it resets both states alike, or keeps FB and byte_cnt in both (R260). The two
with a condition are WR.CTRL and WR.CH_CMD. -/
theorem SameButStaleBytes.exec_command {s u : State} (h : SameButStaleBytes s u) {w : BitVec 41} {i : Instr}
    (hw : decodeCommand w = .ok i) : BothNext (exec i s) (exec i u) := by
  obtain ⟨m, rfl⟩ := h.eq_replace
  unfold decodeCommand at hw
  split at hw <;> cases hw
  case h_1 => exact ⟨_, _, rfl, rfl, .ite (.refl rfl) (h.of_kept rfl rfl)⟩
  case h_10 => exact ⟨_, _, rfl, rfl, .ite (h.of_kept rfl rfl) (h.of_kept rfl rfl)⟩
  all_goals exact ⟨_, _, rfl, rfl, h.of_kept rfl rfl⟩

theorem SameButStaleBytes.storeByte {s u : State} (h : SameButStaleBytes s u) (b : Byte) (hb : s.byteCnt.val < 187) :
    SameButStaleBytes (s.storeByte b) (u.storeByte b) := by
  have hnext : (s.byteCnt + 1).val = s.byteCnt.val + 1 := by
    rw [Fin.val_add]
    exact Nat.mod_eq_of_lt (by simp; omega)
  obtain ⟨m, rfl⟩ := h.eq_replace
  obtain ⟨_, hswf, hmwf, _⟩ := id h
  refine ⟨rfl, Memory.wf_write _ _ _ hswf, Memory.wf_write _ _ _ hmwf, ?_⟩
  intro a ha
  change a < (s.byteCnt + 1).val at ha
  exact h.read_storeByte b (by omega)

/-- After the 188th byte no byte of the frame is stale, and byte_cnt is 0 (R160). -/
theorem SameButStaleBytes.frameStep {s u : State} (h : SameButStaleBytes s u) (b : Byte) (hr : s.run = .run)
    (hb : s.byteCnt.val = 187) : BothNext (frameStep (s.storeByte b)) (frameStep (u.storeByte b)) := by
  have hread : ∀ a, a < 188 → (u.storeByte b).fb.read a = (s.storeByte b).fb.read a :=
    fun a ha => h.read_storeByte b (by omega)
  obtain ⟨m, rfl⟩ := h.eq_replace
  obtain ⟨_, hswf, hmwf, _⟩ := h
  obtain ⟨t, e, e', hfb, hcnt, hsel⟩ := frameStep_replace (s := s.storeByte b) hr s.chSel hread
  have hzero : t.byteCnt.val = 0 := by
    rw [hcnt]
    show (s.byteCnt + 1).val = 0
    rw [Fin.val_add, hb]
    rfl
  refine ⟨t, _, e, e', ?_, ?_, Memory.wf_write _ _ _ hmwf, ?_⟩
  · rw [← show t.chSel = s.chSel from hsel]
  · rw [hfb]
    exact Memory.wf_write _ _ _ hswf
  · intro a ha
    omega

theorem SameButStaleBytes.exec_inByte {s u : State} (h : SameButStaleBytes s u) (b : Byte) :
    BothNext (exec (.inByte b) s) (exec (.inByte b) u) := by
  have hrun : u.run = s.run := by rw [h.1]
  have hcnt : u.byteCnt = s.byteCnt := by rw [h.1]
  have hlt := s.byteCnt.isLt
  by_cases hr : s.run = .run
  · by_cases hb : s.byteCnt.val < 187
    · exact ⟨_, _, exec_inByte_of_lt b hr hb, exec_inByte_of_lt b (hrun.trans hr) (hcnt ▸ hb), h.storeByte b hb⟩
    · rw [exec_inByte_of_last b hr hb, exec_inByte_of_last b (hrun.trans hr) (hcnt ▸ hb)]
      exact h.frameStep b hr (by omega)
  · exact ⟨_, _, exec_inByte_of_not_run b hr, exec_inByte_of_not_run b (hrun ▸ hr), h⟩

theorem SameButStaleBytes.exec_inEos {s u : State} (h : SameButStaleBytes s u) (x : BitVec 8) :
    BothNext (exec (.inEos x) s) (exec (.inEos x) u) := by
  obtain ⟨m, rfl⟩ := h.eq_replace
  by_cases hr : s.run = .run
  · exact ⟨_, _, exec_inEos_of_run x hr, exec_inEos_of_run x hr, h.of_kept rfl rfl⟩
  · exact ⟨_, _, exec_inEos_of_not_run x hr, exec_inEos_of_not_run x hr, h⟩

/-- Settles O56, by what is presented: only a stored byte and a frame touch FB. -/
theorem staleFrameBytesUnobservable : Obligations.StaleFrameBytesUnobservable := by
  unfold Obligations.StaleFrameBytesUnobservable
  intro s u h
  show BothNext (step s) (step u)
  obtain ⟨m, rfl⟩ := h.eq_replace
  have hconsume : SameButStaleBytes s.consume (State.consume { s with fb := m }) := h.of_kept (t := s.consume) rfl rfl
  cases hf : s.fetch with
  | idle => exact ⟨_, _, step_of_fetch_idle hf, step_of_fetch_idle hf, h⟩
  | reset => exact ⟨_, _, step_of_fetch_reset hf, step_of_fetch_reset hf, .refl rfl⟩
  | operation i =>
    rw [step_of_fetch_operation hf, step_of_fetch_operation (s := { s with fb := m }) hf]
    rcases fetch_operation_cases hf with ⟨w, rfl⟩ | ⟨w, hw⟩
    · rcases decodeSymbol_cases w with ⟨b, hw⟩ | ⟨x, hw⟩ <;> rw [hw]
      · exact hconsume.exec_inByte b
      · exact hconsume.exec_inEos x
    · exact hconsume.exec_command hw
  | noOperation r =>
    refine ⟨_, _, step_of_fetch_noOperation hf, step_of_fetch_noOperation hf, ?_⟩
    cases r
    · exact hconsume.of_kept rfl rfl
    all_goals exact hconsume

end Sys2Proof.Statement
end

section
/-! SUPPORT. The accesses that are no operation, and with them the statement on unmapped addresses. -/

namespace Sys2Proof.Machine

/-- A read of an address that holds no readable register decodes to no operation (R32, R45). -/
theorem decodeCommand_read_error {a : Byte} (d : Word) (ha : a.toNat ∉ [0x04, 0x08, 0x0C, 0x10, 0x14, 0x18, 0x20, 0x2C]) :
    decodeCommand (encodeCommand false a d) = .error (.noReadableRegister a) := by
  obtain ⟨hrw, haddr, _⟩ := fields_encodeCommand false a d
  unfold decodeCommand
  rw [hrw, haddr]
  split <;> simp_all

/-- A write to an address that holds no writable register decodes to no operation (R32, R45). -/
theorem decodeCommand_write_error {a : Byte} (d : Word) (ha : a.toNat ∉ [0x00, 0x14, 0x18, 0x1C, 0x24, 0x28]) :
    decodeCommand (encodeCommand true a d) = .error (.noWritableRegister a) := by
  obtain ⟨hrw, haddr, _⟩ := fields_encodeCommand true a d
  unfold decodeCommand
  rw [hrw, haddr]
  split <;> simp_all

/-- An address that is unaligned, above the map or among `others` is none of the `mapped` ones. -/
theorem toNat_notMem_of_unmapped {a : Byte} {others : List Byte} {mapped : List Nat}
    (hmapped : ∀ n ∈ mapped, n % 4 = 0 ∧ n ≤ 0x2C) (hothers : ∀ b ∈ others, b.toNat ∉ mapped)
    (ha : a.toNat % 4 ≠ 0 ∨ a.toNat > 0x2C ∨ a ∈ others) : a.toNat ∉ mapped := by
  intro hmem
  obtain ⟨hmod, hle⟩ := hmapped _ hmem
  rcases ha with ha | ha | ha
  · exact ha hmod
  · omega
  · exact hothers a ha hmem

end Sys2Proof.Machine

namespace Sys2Proof.Statement

open Sys2Proof.Machine

/-- Settles O43: the addresses of each clause hold no register of its direction, so the access is no operation. -/
theorem unmappedAccessHarmless : Obligations.UnmappedAccessHarmless := by
  unfold Obligations.UnmappedAccessHarmless
  intro s rest a d
  constructor
  · intro ha
    have herror := decodeCommand_read_error d (toNat_notMem_of_unmapped (by decide) (by decide) ha)
    exact step_of_fetch_noOperation (State.fetch_command_error herror s rest)
  · intro ha
    have herror := decodeCommand_write_error d (toNat_notMem_of_unmapped (by decide) (by decide) ha)
    exact step_of_fetch_noOperation (State.fetch_command_error herror s rest)

end Sys2Proof.Statement
end

section
/-! SUPPORT. What a drain does with the bytes of the buffer: each is emitted, left, or dropped after a stuffing marker. -/

namespace Sys2Proof.Machine

open Sys2Proof.Statement

/-- A drain splits the buffer into the sections it emits, the remainder it leaves and the tail it drops; only a stuffing
marker at a section boundary drops anything, and then the channel is idle (R198, R199). -/
theorem drain_conserves (p : Pid) (c : Chan) : ∃ lost : List Byte,
    dataBytes (drain p c).2 ++ (drain p c).1.buf ++ lost = c.buf ∧
    (lost = [] ∨ ((drain p c).1 = ⟨.notStarted, []⟩ ∧ byteAt lost 0 = Config.stuff)) := by
  induction c using drain_induction with
  | step c ih =>
    rcases drain_cases p c with ⟨hdrain, _⟩ | ⟨_, hstuff, hdrain⟩ | ⟨_, _, hW, hdrain⟩
    · exact ⟨[], by simp [hdrain, dataBytes], .inl rfl⟩
    · exact ⟨c.buf, by simp [hdrain, dataBytes], .inr ⟨by rw [hdrain], hstuff⟩⟩
    · have hpos := three_le_wholeLength (sectionLength c.buf)
      obtain ⟨lost, hsplit, hlost⟩ :=
        ih ⟨c.st, c.buf.drop (wholeLength (sectionLength c.buf))⟩ (by rw [List.length_drop]; omega)
      refine ⟨lost, ?_, by rwa [hdrain]⟩
      rw [hdrain, dataBytes, List.append_assoc, List.append_assoc, ← List.append_assoc (dataBytes _), hsplit,
        List.take_append_drop]

end Sys2Proof.Machine

namespace Sys2Proof.Statement

open Sys2Proof.Machine

/-- Settles O26: the bytes by induction along the drain loop, the form of each event by `drain_events`. -/
theorem drainConservesBytes : Obligations.DrainConservesBytes := by
  unfold Obligations.DrainConservesBytes
  intro p buf
  obtain ⟨lost, hsplit, hlost⟩ := drain_conserves p ⟨.started, buf⟩
  exact ⟨lost, hsplit, hlost, drain_events p ⟨.started, buf⟩⟩

end Sys2Proof.Statement
end

section
/-! SUPPORT. Decoder and encoder as inverses, format by format: what each format's decoder reads from the word that the
encoder wrote, and the word that the encoder writes from what the decoder read. With them the statements on decoding and
encoding. -/

namespace Sys2Proof

open Sys2Proof.Statement

/-! ## An instruction and its word -/

/-- `w` is the `n`-bit word of the well-formed instruction `i`, as spec/opcode_table.json numbers it (R80). -/
structure Instr.HasWord (i : Instr) (n w : Nat) : Prop where
  wf : i.wf = true
  width_eq : i.width = n
  encode_eq : encode i = w

/-! ## Format IN (R90) -/

theorem decodeTableWord_symbol (x : BitVec 9) : decodeTableWord 9 x.toNat = some (decodeSymbol x) :=
  decodeTableWord_eq_some.mpr (decodeWord_symbol x)

/-- The decoder reads the two fields of a symbol that the encoder wrote. -/
theorem fields_encodeSymbol (eos : Bool) (b : Byte) :
    (encodeSymbol eos b).getLsbD 8 = eos ∧ (encodeSymbol eos b).extractLsb' 0 8 = b := by
  have hword := toNat_encodeSymbol eos b
  have := toNat_ofBool_lt eos
  have := b.isLt
  exact ⟨getLsbD_of_toNat (by rw [hword]; omega), extractLsb'_of_toNat (by rw [hword]; omega)⟩

theorem encodeSymbol_fields (x : BitVec 9) : encodeSymbol (x.getLsbD 8) (x.extractLsb' 0 8) = x := by
  apply BitVec.eq_of_toNat_eq
  rw [toNat_encodeSymbol, toNat_getLsbD, toNat_field]
  have := x.isLt
  omega

theorem decodeSymbol_encodeSymbol (eos : Bool) (b : Byte) :
    decodeSymbol (encodeSymbol eos b) = if eos then .inEos b else .inByte b := by
  obtain ⟨heos, hdata⟩ := fields_encodeSymbol eos b
  rw [decodeSymbol, heos, hdata]

theorem decodeSymbol_hasWord (x : BitVec 9) : (decodeSymbol x).HasWord 9 x.toNat := by
  have hword := encodeSymbol_fields x
  unfold decodeSymbol
  cases heos : x.getLsbD 8 <;> rw [heos] at hword
  · exact ⟨rfl, rfl, congrArg BitVec.toNat hword⟩
  · exact ⟨rfl, rfl, congrArg BitVec.toNat hword⟩

/-! ## Format TS (R81, R83) -/

theorem decodeTableWord_frame (x : Word) : decodeTableWord 32 x.toNat = some (decodeFrame x) :=
  decodeTableWord_eq_some.mpr (decodeWord_frame x)

/-- With the sync byte, the class is that of the bits afc[1], afc[0] and pusi. -/
theorem decodeFrame_of_sync {h : Word} (hsync : h.extractLsb' 24 8 = Config.sync) :
    decodeFrame h = frameInstr (h.getLsbD 5) (h.getLsbD 4) (h.getLsbD 22) (tsOperandsOf h) :=
  if_pos hsync

theorem decodeFrame_of_ne_sync {h : Word} (hsync : h.extractLsb' 24 8 ≠ Config.sync) :
    decodeFrame h = .tsBad (h.extractLsb' 24 8) (h.extractLsb' 0 24) := if_neg hsync

theorem frameInstr_hasWord (af pl pusi : Bool) (o : TsOperands) :
    (frameInstr af pl pusi o).HasWord 32 (encodeFrame af pl pusi o).toNat := by
  cases af <;> cases pl <;> cases pusi <;> exact ⟨rfl, rfl, rfl⟩

theorem decodeFrame_encodeFrame (af pl pusi : Bool) (o : TsOperands) :
    decodeFrame (encodeFrame af pl pusi o) = frameInstr af pl pusi o := by
  obtain ⟨hsync, haf, hpl, hpusi, hops⟩ := fields_encodeFrame af pl pusi o
  rw [decodeFrame_of_sync hsync, haf, hpl, hpusi, hops]

theorem decodeFrame_append {sync : Byte} (hsync : sync ≠ Config.sync) (x : BitVec 24) :
    decodeFrame (sync ++ x : BitVec 32) = .tsBad sync x := by
  have hfirst : (sync ++ x : BitVec 32).extractLsb' 24 8 = sync := BitVec.extractLsb'_append_eq_left
  have hrest : (sync ++ x : BitVec 32).extractLsb' 0 24 = x := BitVec.extractLsb'_append_eq_right
  rw [decodeFrame_of_ne_sync (by rwa [hfirst]), hfirst, hrest]

theorem decodeFrame_hasWord (x : Word) : (decodeFrame x).HasWord 32 x.toNat := by
  by_cases hsync : x.extractLsb' 24 8 = Config.sync
  · have hword := frameInstr_hasWord (x.getLsbD 5) (x.getLsbD 4) (x.getLsbD 22) (tsOperandsOf x)
    rwa [encodeFrame_fields x hsync, ← decodeFrame_of_sync hsync] at hword
  · rw [decodeFrame_of_ne_sync hsync]
    refine ⟨by simpa [Instr.wf] using hsync, rfl, ?_⟩
    simp only [encode, toNat_cat, toNat_field]
    have := x.isLt
    omega

/-! ## Format SEC (R86) -/

theorem decodeTableWord_section (x : BitVec 24) : decodeTableWord 24 x.toNat = some (decodeSection x) :=
  decodeTableWord_eq_some.mpr (decodeWord_section x)

/-- The decoder reads the three fields of a section head that the encoder wrote. -/
theorem fields_encodeSection (t : Byte) (x : BitVec 4) (len : BitVec 12) :
    (encodeSection t x len).extractLsb' 16 8 = t ∧ (encodeSection t x len).extractLsb' 12 4 = x ∧
      (encodeSection t x len).extractLsb' 0 12 = len := by
  have hword := toNat_encodeSection t x len
  have := t.isLt
  have := x.isLt
  have := len.isLt
  refine ⟨extractLsb'_of_toNat ?_, extractLsb'_of_toNat ?_, extractLsb'_of_toNat ?_⟩ <;> (rw [hword]; omega)

theorem decodeSection_of_stuff {x : BitVec 24} (hstuff : x.extractLsb' 16 8 = Config.stuff) :
    decodeSection x = .secStuff := if_pos hstuff

theorem decodeSection_of_ne_stuff {x : BitVec 24} (hstuff : x.extractLsb' 16 8 ≠ Config.stuff) :
    decodeSection x = .secUnit (x.extractLsb' 16 8) (x.extractLsb' 12 4) (x.extractLsb' 0 12) := if_neg hstuff

theorem decodeSection_encodeSection {t : Byte} (ht : t ≠ Config.stuff) (x : BitVec 4) (len : BitVec 12) :
    decodeSection (encodeSection t x len) = .secUnit t x len := by
  obtain ⟨htable, hignored, hlen⟩ := fields_encodeSection t x len
  rw [decodeSection_of_ne_stuff (by rwa [htable]), htable, hignored, hlen]

theorem decodeSection_hasWord {x : BitVec 24} (hstuff : x.extractLsb' 16 8 ≠ Config.stuff) :
    (decodeSection x).HasWord 24 x.toNat := by
  rw [decodeSection_of_ne_stuff hstuff]
  exact ⟨by simpa [Instr.wf] using hstuff, rfl, congrArg BitVec.toNat (encodeSection_fields x)⟩

/-! ## Format PES (R87, R92) -/

theorem decodeTableWord_pes (x : BitVec 72) : decodeTableWord 72 x.toNat = some (decodePes x) :=
  decodeTableWord_eq_some.mpr (decodeWord_pes x)

theorem decodePes_encodePes (h : PesPrefix) :
    decodePes (encodePes h) = if h.ptsDtsFlags.getLsbD 1 then .pesHdrPts h else .pesHdrNopts h := by
  obtain ⟨hfields, hflag⟩ := fields_encodePes h
  rw [decodePes, hfields, hflag]

/-- The flag that selects the header operation is the upper bit of the operand pts_dts_flags. -/
theorem ptsDtsFlags_pesPrefixOf (x : BitVec 72) : (pesPrefixOf x).ptsDtsFlags.getLsbD 1 = x.getLsbD 15 := by
  simp [pesPrefixOf]

theorem decodePes_hasWord (x : BitVec 72) : (decodePes x).HasWord 72 x.toNat := by
  have hflag := ptsDtsFlags_pesPrefixOf x
  have hword := congrArg BitVec.toNat (encodePes_fields x)
  unfold decodePes
  cases hbit : x.getLsbD 15 <;> rw [hbit] at hflag
  · exact ⟨congrArg Bool.not hflag, rfl, hword⟩
  · exact ⟨hflag, rfl, hword⟩

/-! ## Format REG (R91) -/

theorem decodeTableWord_command {x : BitVec 41} {i : Instr} :
    decodeTableWord 41 x.toNat = some i ↔ decodeCommand x = .ok i := by
  rw [decodeTableWord_eq_some, decodeWord_command]

/-- The register access of a host command: its direction, its address and its datum (R91, R92). -/
def Instr.access : Instr → Option (Bool × Byte × Word)
  | .wrCtrl d => some (true, 0x00#8, d)
  | .rdStatus d => some (false, 0x04#8, d)
  | .rdFrameCnt d => some (false, 0x08#8, d)
  | .rdFaultInfo d => some (false, 0x0C#8, d)
  | .rdFaultPid d => some (false, 0x10#8, d)
  | .wrChSel d => some (true, 0x14#8, d)
  | .rdChSel d => some (false, 0x14#8, d)
  | .wrChMode d => some (true, 0x18#8, d)
  | .rdChMode d => some (false, 0x18#8, d)
  | .wrChCmd d => some (true, 0x1C#8, d)
  | .rdChState d => some (false, 0x20#8, d)
  | .wrCrcInit d => some (true, 0x24#8, d)
  | .wrCrcData d => some (true, 0x28#8, d)
  | .rdCrcValue d => some (false, 0x2C#8, d)
  | _ => none

/-- A command is encoded as its access. -/
theorem hasWord_of_access {i : Instr} {rw : Bool} {a : Byte} {d : Word} (h : i.access = some (rw, a, d)) :
    i.HasWord 41 (encodeCommand rw a d).toNat := by
  cases i <;> cases h <;> exact ⟨rfl, rfl, rfl⟩

/-- A word of the format decodes to the command whose access its fields are, if there is one. -/
theorem decodeCommand_eq_ok_iff {x : BitVec 41} {i : Instr} :
    decodeCommand x = .ok i ↔ i.access = some (x.getLsbD 40, x.extractLsb' 32 8, x.extractLsb' 0 32) := by
  constructor
  · intro h
    unfold decodeCommand at h
    split at h <;> cases h <;> rename_i hrw haddr <;>
      exact congrArg some (Prod.ext hrw.symm (Prod.ext (BitVec.eq_of_toNat_eq haddr.symm) rfl))
  · intro h
    cases i <;> simp only [Instr.access, Option.some.injEq, Prod.mk.injEq, reduceCtorEq] at h <;>
      (obtain ⟨hrw, haddr, hdata⟩ := h; rw [decodeCommand, ← hrw, ← haddr, ← hdata]; rfl)

theorem decodeCommand_of_access {i : Instr} {rw : Bool} {a : Byte} {d : Word} (h : i.access = some (rw, a, d)) :
    decodeCommand (encodeCommand rw a d) = .ok i := by
  obtain ⟨hrw, haddr, hdata⟩ := fields_encodeCommand rw a d
  rw [decodeCommand_eq_ok_iff, hrw, haddr, hdata, h]

theorem decodeCommand_hasWord {x : BitVec 41} {i : Instr} (h : decodeCommand x = .ok i) : i.HasWord 41 x.toNat := by
  have hword := hasWord_of_access (decodeCommand_eq_ok_iff.mp h)
  rwa [encodeCommand_fields] at hword

/-! ## The decoder over all formats -/

theorem decodeTableWord_frameInstr (af pl pusi : Bool) (o : TsOperands) :
    decodeTableWord 32 (encodeFrame af pl pusi o).toNat = some (frameInstr af pl pusi o) := by
  rw [decodeTableWord_frame, decodeFrame_encodeFrame]

theorem decodeTableWord_encodePes (h : PesPrefix) : decodeTableWord 72 (encodePes h).toNat =
    some (if h.ptsDtsFlags.getLsbD 1 then .pesHdrPts h else .pesHdrNopts h) := by
  rw [decodeTableWord_pes, decodePes_encodePes]

theorem decodeTableWord_encodeSymbol (eos : Bool) (b : Byte) :
    decodeTableWord 9 (encodeSymbol eos b).toNat = some (if eos then .inEos b else .inByte b) := by
  rw [decodeTableWord_symbol, decodeSymbol_encodeSymbol]

theorem decodeTableWord_of_access {i : Instr} {rw : Bool} {a : Byte} {d : Word} (h : i.access = some (rw, a, d)) :
    decodeTableWord i.width (encode i) = some i := by
  obtain ⟨_, hwidth, hencode⟩ := hasWord_of_access h
  rw [hwidth, hencode, decodeTableWord_command]
  exact decodeCommand_of_access h

/-- The decoder gives back the instruction whose word it reads, by the format of its row. -/
theorem decodeTableWord_encode {i : Instr} (hwf : i.wf = true) : decodeTableWord i.width (encode i) = some i := by
  cases i with
  | inByte b => exact decodeTableWord_encodeSymbol false b
  | inEos x => exact decodeTableWord_encodeSymbol true x
  | tsN o => exact decodeTableWord_frameInstr false false false o
  | tsNS o => exact decodeTableWord_frameInstr false false true o
  | tsP o => exact decodeTableWord_frameInstr false true false o
  | tsPS o => exact decodeTableWord_frameInstr false true true o
  | tsA o => exact decodeTableWord_frameInstr true false false o
  | tsAS o => exact decodeTableWord_frameInstr true false true o
  | tsAP o => exact decodeTableWord_frameInstr true true false o
  | tsAPS o => exact decodeTableWord_frameInstr true true true o
  | tsBad sync x =>
    exact (decodeTableWord_frame _).trans (congrArg some (decodeFrame_append (bne_iff_ne.mp hwf) x))
  | secUnit t x len =>
    exact (decodeTableWord_section _).trans (congrArg some (decodeSection_encodeSection (bne_iff_ne.mp hwf) x len))
  | secStuff => decide
  | pesHdrPts h => exact (decodeTableWord_encodePes h).trans (congrArg some (if_pos hwf))
  | pesHdrNopts h =>
    have hflag : h.ptsDtsFlags.getLsbD 1 = false := (Bool.not_eq_true' _).mp hwf
    exact (decodeTableWord_encodePes h).trans (congrArg some (by rw [hflag]; rfl))
  | wrCtrl d => exact decodeTableWord_of_access rfl
  | rdStatus d => exact decodeTableWord_of_access rfl
  | rdFrameCnt d => exact decodeTableWord_of_access rfl
  | rdFaultInfo d => exact decodeTableWord_of_access rfl
  | rdFaultPid d => exact decodeTableWord_of_access rfl
  | wrChSel d => exact decodeTableWord_of_access rfl
  | rdChSel d => exact decodeTableWord_of_access rfl
  | wrChMode d => exact decodeTableWord_of_access rfl
  | rdChMode d => exact decodeTableWord_of_access rfl
  | wrChCmd d => exact decodeTableWord_of_access rfl
  | rdChState d => exact decodeTableWord_of_access rfl
  | wrCrcInit d => exact decodeTableWord_of_access rfl
  | wrCrcData d => exact decodeTableWord_of_access rfl
  | rdCrcValue d => exact decodeTableWord_of_access rfl

/-- What decodes has no bit above the width of its format (R80). -/
theorem lt_two_pow_of_decodeTableWord {n w : Nat} {i : Instr} (hn : n ∈ [8, 9, 24, 32, 41, 72])
    (h : decodeTableWord n w = some i) : w < 2 ^ n := by
  rw [decodeTableWord_eq_some] at h
  by_contra hw
  simp only [List.mem_cons, List.not_mem_nil, or_false] at hn
  rcases hn with rfl | rfl | rfl | rfl | rfl | rfl <;> simp only [decodeWord, if_neg hw, reduceCtorEq] at h

/-- What decodes from `n` bits is the number of an `n`-bit word. -/
theorem exists_toNat_of_decodeTableWord {n w : Nat} {i : Instr} (hn : n ∈ [8, 9, 24, 32, 41, 72])
    (h : decodeTableWord n w = some i) : ∃ x : BitVec n, w = x.toNat :=
  ⟨BitVec.ofNatLT w (lt_two_pow_of_decodeTableWord hn h), rfl⟩

/-- A word of a table width is the word of the instruction it decodes to, but for the stuffing marker with two more
bytes, whose instruction is the first byte alone (R86). -/
theorem hasWord_of_decodeTableWord {n w : Nat} {i : Instr} (hn : n ∈ [9, 24, 32, 41, 72])
    (h : decodeTableWord n w = some i) : i.HasWord n w ∨ (n = 24 ∧ i = .secStuff ∧ w / 2 ^ 16 = 0xFF) := by
  obtain ⟨x, rfl⟩ := exists_toNat_of_decodeTableWord (List.mem_cons_of_mem 8 hn) h
  simp only [List.mem_cons, List.not_mem_nil, or_false] at hn
  rcases hn with rfl | rfl | rfl | rfl | rfl
  · obtain rfl := Option.some.inj ((decodeTableWord_symbol x).symm.trans h)
    exact .inl (decodeSymbol_hasWord x)
  · obtain rfl := Option.some.inj ((decodeTableWord_section x).symm.trans h)
    by_cases hstuff : x.extractLsb' 16 8 = Config.stuff
    · have hfirst := congrArg BitVec.toNat hstuff
      rw [toNat_field, Nat.mod_eq_of_lt (by have := x.isLt; omega)] at hfirst
      exact .inr ⟨rfl, decodeSection_of_stuff hstuff, hfirst⟩
    · exact .inl (decodeSection_hasWord hstuff)
  · obtain rfl := Option.some.inj ((decodeTableWord_frame x).symm.trans h)
    exact .inl (decodeFrame_hasWord x)
  · exact .inl (decodeCommand_hasWord (decodeTableWord_command.mp h))
  · obtain rfl := Option.some.inj ((decodeTableWord_pes x).symm.trans h)
    exact .inl (decodePes_hasWord x)

/-- Symbols and commands in whole bytes are decoded as in their own widths (log entry 10). -/
theorem decodeWord_whole_bytes (w : Nat) : decodeWord 16 w = decodeWord 9 w ∧ decodeWord 48 w = decodeWord 41 w := by
  simp only [decodeWord, and_self]

/-- A byte is decoded as a section word whose other two bytes are 0 (log entry 10). -/
theorem decodeTableWord_byte (x : Byte) : decodeTableWord 8 x.toNat = some (decodeSection (x ++ 0#16)) := by
  rw [decodeTableWord_eq_some]
  simp only [decodeWord, if_pos x.isLt, BitVec.ofNat_toNat, BitVec.setWidth_eq]

theorem decodeTableWord_byte_eq_section {w : Nat} (hw : w < 2 ^ 8) :
    decodeTableWord 8 w = decodeTableWord 24 (w * 2 ^ 16) := by
  obtain ⟨x, rfl⟩ : ∃ x : Byte, w = x.toNat := ⟨BitVec.ofNatLT w hw, rfl⟩
  have hword : (x ++ 0#16 : BitVec 24).toNat = x.toNat * 2 ^ 16 := by
    rw [toNat_cat, BitVec.toNat_ofNat, Nat.zero_mod, Nat.add_zero]
  rw [decodeTableWord_byte, ← hword, decodeTableWord_section]

end Sys2Proof

namespace Sys2Proof.Statement

open Sys2Proof.Machine

/-- Settles O3: the fields that the encoder of a format wrote are those that its decoder reads. -/
theorem decodeOfEncode : Obligations.DecodeOfEncode := by
  unfold Obligations.DecodeOfEncode
  intro i hwf
  exact decodeTableWord_encode hwf

/-- Settles O4: what a format's decoder read is written back as the same word; the other widths are read as 9, 41 or 24
bits. -/
theorem encodeOfDecode : Obligations.EncodeOfDecode := by
  unfold Obligations.EncodeOfDecode
  constructor
  · intro n w i hn h
    rcases hasWord_of_decodeTableWord hn h with hword | ⟨hwidth, rfl, hfirst⟩
    · exact ⟨hword.wf, .inl ⟨hword.width_eq, hword.encode_eq⟩⟩
    · exact ⟨rfl, .inr ⟨hwidth, rfl, hfirst⟩⟩
  · intro w
    obtain ⟨hsymbol, hcommand⟩ := decodeWord_whole_bytes w
    refine ⟨by rw [decodeTableWord, hsymbol]; rfl, by rw [decodeTableWord, hcommand]; rfl,
      decodeTableWord_byte_eq_section, fun hw => ?_⟩
    cases hdecode : decodeTableWord 8 w with
    | none => rfl
    | some i => exact absurd (lt_two_pow_of_decodeTableWord (by decide) hdecode) (Nat.not_lt.mpr hw)

/-- Settles O2: each word is closed, and the decoder is run on it. -/
theorem specWordsDecode : Obligations.SpecWordsDecode := by
  unfold Obligations.SpecWordsDecode
  decide

end Sys2Proof.Statement
end

section
/-! SUPPORT. The header word under the masks of R83, and with it the statement on the frame classes. -/

namespace Sys2Proof

open Sys2Proof.Statement

/-- The header word of a class whose operands are all zero: the match value of the class (R83). -/
def classWord (af pl pusi : Bool) : Word := encodeFrame af pl pusi ⟨false, false, 0#13, 0#2, 0#4⟩

/-- Header words of two classes differ in the class bits, whatever their operands are. -/
theorem classBits_of_encodeFrame_eq {af pl pusi af' pl' pusi' : Bool} {o o' : TsOperands}
    (h : encodeFrame af pl pusi o = encodeFrame af' pl' pusi' o') : af = af' ∧ pl = pl' ∧ pusi = pusi' := by
  obtain ⟨_, haf, hpl, hpusi, _⟩ := fields_encodeFrame af pl pusi o
  obtain ⟨_, haf', hpl', hpusi', _⟩ := fields_encodeFrame af' pl' pusi' o'
  rw [h] at haf hpl hpusi
  exact ⟨haf.symm.trans haf', hpl.symm.trans hpl', hpusi.symm.trans hpusi'⟩

theorem classBits_of_frameInstr_eq {af pl pusi af' pl' pusi' : Bool} {o o' : TsOperands}
    (h : frameInstr af pl pusi o = frameInstr af' pl' pusi' o') : af = af' ∧ pl = pl' ∧ pusi = pusi' := by
  have hword := (frameInstr_hasWord af pl pusi o).encode_eq
  rw [h, (frameInstr_hasWord af' pl' pusi' o').encode_eq] at hword
  exact classBits_of_encodeFrame_eq (BitVec.eq_of_toNat_eq hword.symm)

theorem frameInstr_ne_tsBad (af pl pusi : Bool) (o : TsOperands) (sync : Byte) (x : BitVec 24) :
    frameInstr af pl pusi o ≠ .tsBad sync x := by
  cases af <;> cases pl <;> cases pusi <;> exact Instr.noConfusion

/-- A mask that keeps the upper byte leaves the sync field. -/
theorem extractLsb'_and_of_upper {m : Word} (hm : m.extractLsb' 24 8 = BitVec.allOnes 8) (h : Word) :
    (h &&& m).extractLsb' 24 8 = h.extractLsb' 24 8 := by
  rw [BitVec.extractLsb'_and, hm, BitVec.and_allOnes]

/-- With the sync byte, the mask keeps the sync byte and the class bits and clears every operand. -/
theorem and_classMask {h : Word} (hsync : h.extractLsb' 24 8 = Config.sync) :
    h &&& 0xFF400030#32 = classWord (h.getLsbD 5) (h.getLsbD 4) (h.getLsbD 22) := by
  have hmasked := (extractLsb'_and_of_upper (m := 0xFF400030#32) (by decide) h).trans hsync
  rw [← encodeFrame_fields _ hmasked]
  simp [tsOperandsOf, BitVec.extractLsb'_and, classWord]

/-- A header word has the match value of a class exactly when it decodes to that class (R83). -/
theorem and_classMask_eq_iff (h : Word) (af pl pusi : Bool) :
    h &&& 0xFF400030#32 = classWord af pl pusi ↔ decodeFrame h = frameInstr af pl pusi (tsOperandsOf h) := by
  by_cases hsync : h.extractLsb' 24 8 = Config.sync
  · rw [and_classMask hsync, decodeFrame_of_sync hsync]
    constructor
    · intro heq
      obtain ⟨haf, hpl, hpusi⟩ := classBits_of_encodeFrame_eq heq
      rw [haf, hpl, hpusi]
    · intro heq
      obtain ⟨haf, hpl, hpusi⟩ := classBits_of_frameInstr_eq heq
      rw [haf, hpl, hpusi]
  · rw [decodeFrame_of_ne_sync hsync]
    constructor
    · intro heq
      obtain ⟨hclass, _⟩ := fields_encodeFrame af pl pusi ⟨false, false, 0#13, 0#2, 0#4⟩
      have hfirst := congrArg (BitVec.extractLsb' 24 8) heq
      rw [extractLsb'_and_of_upper (by decide), classWord, hclass] at hfirst
      exact absurd hfirst hsync
    · intro heq
      exact absurd heq.symm (frameInstr_ne_tsBad af pl pusi _ _ _)

/-- The upper byte of a header word, the rest cleared, is compared with the sync byte (R83). -/
theorem and_syncMask_eq_iff (h : Word) :
    h &&& 0xFF000000#32 = 0x47000000#32 ↔ h.extractLsb' 24 8 = Config.sync := by
  have hkeep := extractLsb'_and_of_upper (m := 0xFF000000#32) (by decide) h
  constructor
  · intro heq
    rw [← hkeep, heq]
    decide
  · intro hsync
    have hmasked := hkeep.trans hsync
    have hword : h &&& 0xFF000000#32 = classWord false false false := by
      rw [← encodeFrame_fields _ hmasked]
      simp [tsOperandsOf, BitVec.extractLsb'_and, classWord]
    rw [hword]
    decide

theorem decodeFrame_eq_tsBad_iff (h : Word) :
    decodeFrame h = .tsBad (h.extractLsb' 24 8) (h.extractLsb' 0 24) ↔ h.extractLsb' 24 8 ≠ Config.sync := by
  refine ⟨fun heq hsync => ?_, decodeFrame_of_ne_sync⟩
  rw [decodeFrame_of_sync hsync] at heq
  exact frameInstr_ne_tsBad _ _ _ _ _ _ heq

end Sys2Proof

namespace Sys2Proof.Statement

open Sys2Proof.Machine

/-- Settles O5: each match value is the header word of its class with zero operands. -/
theorem frameClassByMask : Obligations.FrameClassByMask := by
  unfold Obligations.FrameClassByMask
  intro h
  refine ⟨?n, ?ns, ?p, ?ps, ?a, ?as, ?ap, ?aps, ?bad⟩
  case n => exact and_classMask_eq_iff h false false false
  case ns => exact and_classMask_eq_iff h false false true
  case p => exact and_classMask_eq_iff h false true false
  case ps => exact and_classMask_eq_iff h false true true
  case a => exact and_classMask_eq_iff h true false false
  case as => exact and_classMask_eq_iff h true false true
  case ap => exact and_classMask_eq_iff h true true false
  case aps => exact and_classMask_eq_iff h true true true
  case bad => rw [decodeFrame_eq_tsBad_iff, Ne, and_syncMask_eq_iff]

end Sys2Proof.Statement
end

section
/-! SUPPORT. The bits of an assembled timestamp, and with it the statement on the layout of the PTS field. -/

namespace Sys2Proof.Machine

/-- The mask of b0 keeps its bits 3 to 1 (R233). -/
theorem getLsbD_and_0x0E (b : Byte) (j : Nat) :
    (b &&& 0x0E#8).getLsbD j = (b.getLsbD j && decide (1 ≤ j ∧ j < 4)) := by
  by_cases hj : j < 8
  · rw [BitVec.getLsbD_and]
    congr 1
    interval_cases j <;> rfl
  · rw [BitVec.getLsbD_of_ge _ j (by omega), BitVec.getLsbD_of_ge b j (by omega), Bool.false_and]

/-- The mask of b2 keeps its bits 7 to 1 (R233). -/
theorem getLsbD_and_0xFE (b : Byte) (j : Nat) : (b &&& 0xFE#8).getLsbD j = (b.getLsbD j && decide (1 ≤ j)) := by
  by_cases hj : j < 8
  · rw [BitVec.getLsbD_and]
    congr 1
    interval_cases j <;> rfl
  · rw [BitVec.getLsbD_of_ge _ j (by omega), BitVec.getLsbD_of_ge b j (by omega), Bool.false_and]

end Sys2Proof.Machine

namespace Sys2Proof.Statement

open Sys2Proof.Machine

/-- Settles O31: at each of the 33 bits both sides are the same bit of the same byte, the others being shifted or masked
away. -/
theorem ptsFieldLayout : Obligations.PtsFieldLayout := by
  unfold Obligations.PtsFieldLayout
  intro b0 b1 b2 b3 b4
  apply BitVec.eq_of_getLsbD_eq
  intro i hi
  simp only [ptsOf, BitVec.getLsbD_or, BitVec.getLsbD_shiftLeft, BitVec.getLsbD_setWidth, BitVec.getLsbD_ushiftRight,
    getLsbD_and_0x0E, getLsbD_and_0xFE, BitVec.getLsbD_append, BitVec.getLsbD_extractLsb']
  interval_cases i <;> simp

end Sys2Proof.Statement
end

section
/-! SUPPORT. The section operation that a turn of the drain runs, and with it the statement on the drain's turns. -/

namespace Sys2Proof.Machine

open Sys2Proof.Statement

/-! ## The front of a section buffer (R86) -/

/-- W3 shows the first byte of the buffer as its table ID. -/
theorem sectionWord_tableId (buf : List Byte) : (sectionWord buf).extractLsb' 16 8 = byteAt buf 0 := by
  have := (byteAt buf 0).isLt
  have := (byteAt buf 1).isLt
  have := (byteAt buf 2).isLt
  exact extractLsb'_of_toNat (by rw [toNat_sectionWord]; omega)

theorem decodeSection_eq_secStuff_iff (buf : List Byte) :
    decodeSection (sectionWord buf) = .secStuff ↔ byteAt buf 0 = Config.stuff := by
  rw [← sectionWord_tableId]
  refine ⟨fun hdecode => ?_, decodeSection_of_stuff⟩
  by_contra hstuff
  rw [decodeSection_of_ne_stuff hstuff] at hdecode
  cases hdecode

/-- A front that decodes to SEC.UNIT is no stuffing marker and declares the operand's length. -/
theorem front_of_decodeSection {buf : List Byte} {tableId : Byte} {x : BitVec 4} {len : BitVec 12}
    (hdecode : decodeSection (sectionWord buf) = .secUnit tableId x len) :
    byteAt buf 0 ≠ Config.stuff ∧ sectionLength buf = len := by
  rw [← sectionWord_tableId]
  by_cases hstuff : (sectionWord buf).extractLsb' 16 8 = Config.stuff
  · rw [decodeSection_of_stuff hstuff] at hdecode
    cases hdecode
  · rw [decodeSection_of_ne_stuff hstuff] at hdecode
    cases hdecode
    exact ⟨hstuff, rfl⟩

/-! ## A turn of the drain (R198, R199) -/

theorem drain_of_stuff {p : Pid} {c : Chan} (hbuf : c.buf.length ≠ 0) (hstuff : byteAt c.buf 0 = Config.stuff) :
    drain p c = (secStuff c, []) := by
  rw [drain_eq, if_neg hbuf, if_pos hstuff]

theorem drain_of_section {p : Pid} {c : Chan} (hstuff : byteAt c.buf 0 ≠ Config.stuff)
    (hwhole : wholeLength (sectionLength c.buf) ≤ c.buf.length) :
    drain p c = ((drain p (secUnit p (sectionLength c.buf) c).1).1,
      (secUnit p (sectionLength c.buf) c).2 :: (drain p (secUnit p (sectionLength c.buf) c).1).2) := by
  have hpos := three_le_wholeLength (sectionLength c.buf)
  conv_lhs => rw [drain_eq, if_neg (by omega), if_neg hstuff, if_neg (by simp only [Config.secHdrMin]; omega),
    if_neg (by omega)]

/-! ## The section operations where a turn of the drain selects them (R92) -/

section

variable {s : State} {p : Pid} {buf : List Byte} (hrun : s.run = .run) (hpid : framePid s.fb = p)
  (hmode : s.modeOf p = .sec) (hchan : s.chan p = ⟨.started, buf⟩)

include hpid hmode hchan in
theorem secSelected_of_accumulating : secSelected s = true := by
  simp [secSelected, hpid, hmode, hchan]

include hrun hpid hmode hchan

theorem exec_secStuff_of_accumulating :
    exec .secStuff s = .next (s.commitChan p (.ok (secStuff ⟨.started, buf⟩, []))) := by
  have hsel := secSelected_of_accumulating hpid hmode hchan
  show execSecStuff s = _
  rw [execSecStuff, State.whenRunning, if_pos hrun, if_pos hsel, hpid, hchan]

theorem exec_secUnit_of_accumulating (tableId : Byte) (x : BitVec 4) {len : BitVec 12}
    (hwhole : wholeLength len ≤ buf.length) :
    exec (.secUnit tableId x len) s =
      .next (s.commitChan p (.ok ((secUnit p len ⟨.started, buf⟩).1, [(secUnit p len ⟨.started, buf⟩).2]))) := by
  have hsel := secSelected_of_accumulating hpid hmode hchan
  show execSecUnit tableId x len s = _
  rw [execSecUnit, State.whenRunning, if_pos hrun, hpid, hchan, hsel, if_pos (by simpa using hwhole)]

end

end Sys2Proof.Machine

namespace Sys2Proof.Statement

open Sys2Proof.Machine

/-- Settles O27: the front that decodes to an operation is the one on which the drain takes that turn. -/
theorem drainTurnIsSectionOperation : Obligations.DrainTurnIsSectionOperation := by
  unfold Obligations.DrainTurnIsSectionOperation
  intro s p buf hrun hpid hmode hwf hchan
  have hsame (c : Chan) (es : List Event) : (s.commitChan p (.ok (c, es))).chan p = c :=
    State.chan_setChan_same s p c hwf
  constructor
  · intro hbuf hdecode
    have hturn := drain_of_stuff (p := p) (c := ⟨.started, buf⟩) hbuf ((decodeSection_eq_secStuff_iff buf).mp hdecode)
    exact ⟨_, exec_secStuff_of_accumulating hrun hpid.symm hmode hchan, by rw [hsame, hturn], List.append_nil s.ev⟩
  · intro tableId x len hdecode hwhole
    obtain ⟨hstuff, rfl⟩ := front_of_decodeSection hdecode
    have hturn := drain_of_section (p := p) (c := ⟨.started, buf⟩) hstuff hwhole
    exact ⟨_, _, exec_secUnit_of_accumulating hrun hpid.symm hmode hchan tableId x hwhole, rfl, by rw [hsame, hturn]⟩

end Sys2Proof.Statement
end

section
/-! SUPPORT. The step of each kind of placed word, and with it the statement on placed words. -/

namespace Sys2Proof.Machine

open Sys2Proof.Statement

/-! ## A symbol or a command is presented itself (R90, R91) -/

/-- A placed symbol or command is what the step runs, on the state in which it was placed. -/
theorem step_placed_portStep {n w : Nat} {i : Instr} (hn : n ∈ [9, 16, 41, 48]) (h : decodeTableWord n w = some i)
    (s : State) : step (s.withFetchWord n w) = exec i s := by
  have hsymbol (h : decodeTableWord 9 w = some i) :
      step { s with pending := .input (BitVec.ofNat 9 w) :: s.pending } = exec i s := by
    obtain ⟨x, rfl⟩ := exists_toNat_of_decodeTableWord (by decide) h
    obtain rfl := Option.some.inj ((decodeTableWord_symbol x).symm.trans h)
    rw [BitVec.ofNat_toNat, BitVec.setWidth_eq]
    exact step_of_fetch_operation (State.fetch_input s x s.pending)
  have hcommand (h : decodeTableWord 41 w = some i) :
      step { s with pending := .command (BitVec.ofNat 41 w) :: s.pending } = exec i s := by
    obtain ⟨x, rfl⟩ := exists_toNat_of_decodeTableWord (by decide) h
    rw [BitVec.ofNat_toNat, BitVec.setWidth_eq]
    exact step_of_fetch_operation (State.fetch_command_ok (decodeTableWord_command.mp h) s s.pending)
  obtain ⟨hbytes, hbytes'⟩ := decodeWord_whole_bytes w
  simp only [List.mem_cons, List.not_mem_nil, or_false] at hn
  rcases hn with rfl | rfl | rfl | rfl
  · exact hsymbol h
  · exact hsymbol (by rwa [decodeTableWord, hbytes] at h)
  · exact hcommand h
  · exact hcommand (by rwa [decodeTableWord, hbytes'] at h)

/-! ## A header word is in a frame that is being completed (R160) -/

/-- The header word of the frame whose first four bytes are those of `x`, read after its last byte has been stored. -/
theorem headerWord_placed (x : Word) (b : Byte) :
    headerWord ((Memory.ofBytes 0 (wordBytes x)).write 187 b) = x := by
  have hread (j : Nat) (hj : j < 4) :
      ((Memory.ofBytes 0 (wordBytes x)).write 187 b).read j = (wordBytes x).getD j Memory.unlisted :=
    (Memory.read_write_ne _ _ (by omega)).trans
      (Memory.read_ofBytes (wordBytes x) 0 j (by simpa [wordBytes]) (by omega))
  apply BitVec.eq_of_toNat_eq
  rw [toNat_headerWord, hread 0 (by decide), hread 1 (by decide), hread 2 (by decide), hread 3 (by decide)]
  simp only [wordBytes, List.getD_cons_zero, List.getD_cons_succ, toNat_field]
  have := x.isLt
  omega

/-- The last byte of a placed frame runs the class of the header word. -/
theorem step_placeFrame (s : State) (x : Word) : ∃ u : State, headerWord u.fb = x ∧ u.run = .run ∧ u.byteCnt = 0 ∧
    step (s.placeFrame (Memory.ofBytes 0 (wordBytes x)) 0#8) = exec (decodeFrame x) u := by
  let t := (s.placeFrame (Memory.ofBytes 0 (wordBytes x)) 0#8).consume
  have hword : headerWord (t.storeByte 0#8).fb = x := headerWord_placed x 0#8
  have hfetch : (s.placeFrame (Memory.ofBytes 0 (wordBytes x)) 0#8).fetch = .operation (.inByte 0#8) :=
    congrArg Fetched.operation (decodeSymbol_encodeSymbol false 0#8)
  refine ⟨t.storeByte 0#8, hword, rfl, show (187 : Fin 188) + 1 = 0 by decide, ?_⟩
  rw [step_of_fetch_operation hfetch,
    exec_inByte_of_last 0#8 (s := t) rfl (show ¬ (187 : Fin 188).val < 187 by decide), frameStep_eq_exec, hword]

/-! ## A section or PES word is the front of a whole unit (R198, R231) -/

/-- On a buffer that is exactly one section, or the stuffing marker alone, the section operation is the whole drain. -/
theorem exec_decodeSection_of_unit {s : State} {p : Pid} {unit : List Byte} (hrun : s.run = .run)
    (hpid : framePid s.fb = p) (hmode : s.modeOf p = .sec) (hchan : s.chan p = ⟨.started, unit⟩)
    (hlength : unit.length =
      if decodeSection (sectionWord unit) = .secStuff then 1 else wholeLength (sectionLength unit)) :
    exec (decodeSection (sectionWord unit)) s = .next (s.commitChan p (.ok (drain p ⟨.started, unit⟩))) := by
  by_cases hstuff : byteAt unit 0 = Config.stuff
  · have hdecode := (decodeSection_eq_secStuff_iff unit).mpr hstuff
    rw [if_pos hdecode] at hlength
    rw [hdecode, exec_secStuff_of_accumulating hrun hpid hmode hchan,
      drain_of_stuff (by simp only [hlength]; decide) hstuff]
  · rw [if_neg (mt (decodeSection_eq_secStuff_iff unit).mp hstuff)] at hlength
    have hrest : (secUnit p (sectionLength unit) ⟨.started, unit⟩).1 = ⟨.started, []⟩ := by
      rw [secUnit, ← hlength, List.drop_length]
    have hturn := drain_of_section (p := p) (c := ⟨.started, unit⟩) hstuff hlength.ge
    simp only [hrest, show drain p ⟨.started, []⟩ = (⟨.started, []⟩, []) from rfl] at hturn
    rw [decodeSection_of_ne_stuff (by rwa [sectionWord_tableId]), ← sectionLength,
      exec_secUnit_of_accumulating hrun hpid hmode hchan _ _ hlength.ge, hrest, hturn]

/-- On a Started buffer that holds its whole header, the header operation is the decode attempt (R92, R231). -/
theorem exec_decodePes_of_started {s : State} {p : Pid} {buf : List Byte} (hrun : s.run = .run)
    (hpid : framePid s.fb = p) (hmode : s.modeOf p = .pes) (hchan : s.chan p = ⟨.started, buf⟩)
    (hwhole : pesHeaderLength (byteAt buf 8) ≤ buf.length) :
    exec (decodePes (prefixWord buf)) s = .next (s.commitChan p (tryDecode p ⟨.started, buf⟩)) := by
  have hsel : pesSelected (pesPrefixOf (prefixWord buf)) s = true := by
    simp [pesSelected, hpid, hmode, hchan, prefix_headerDataLen, hwhole]
  have hprefix : ¬ buf.length < Config.pesPrefixLen := by
    simp only [pesHeaderLength] at hwhole
    omega
  rw [decodePes, prefix_bit, tryDecode, if_neg hprefix, if_neg (Nat.not_lt.mpr hwhole)]
  cases (byteAt buf 7).getLsbD 7
  · show execPesHdrNopts (pesPrefixOf (prefixWord buf)) s = _
    rw [execPesHdrNopts, State.whenRunning, if_pos hrun, if_pos hsel, hpid, hchan]
    rfl
  · show execPesHdrPts (pesPrefixOf (prefixWord buf)) s = _
    rw [execPesHdrPts, State.whenRunning, if_pos hrun, if_pos hsel, hpid, hchan]
    rfl

/-- A header whose flagged timestamp is there raises no fault (R235). -/
theorem tryDecode_isOk {p : Pid} {c : Chan} (h : (byteAt c.buf 7).getLsbD 7 = true → 14 ≤ c.buf.length) :
    ∃ ce, tryDecode p c = .ok ce := by
  rcases tryDecode_cases p c with ⟨hok, _⟩ | ⟨_, _, hshort, hflag, _⟩ | ⟨_, _, _, hok⟩
  · exact ⟨_, hok⟩
  · exact absurd (h hflag) (Nat.not_le.mpr hshort)
  · exact ⟨_, hok⟩

theorem one_le_length_sectionUnit (x : BitVec 24) : 1 ≤ (sectionUnit x).length := by
  have hpos := three_le_wholeLength (sectionLength (sectionUnit x))
  rw [(sectionUnit_front x).2]
  split <;> omega

/-- A placed section word is run on its unit, and the frame step counts the frame after it (R198). -/
theorem step_placeSection (s : State) (x : BitVec 24) :
    ∃ u v unit, UnitPlaced .sec unit s u ∧ decodeSection (sectionWord unit) = decodeSection x ∧
      unit.length = (if decodeSection x = .secStuff then 1 else (sectionLength unit).toNat + 3) ∧
      exec (decodeSection x) u = .next v ∧ step (s.placeUnit .sec (sectionUnit x)) = .next v.countFrame := by
  obtain ⟨hfront, hlength⟩ := sectionUnit_front x
  obtain ⟨u, hrun, hpid, hmode, hchan, hpkt, hstep⟩ :=
    step_placeUnit s .sec (sectionUnit x) Mode.noConfusion (one_le_length_sectionUnit x)
  have hexec := exec_decodeSection_of_unit hrun hpid hmode hchan (by rw [hfront]; exact hlength)
  rw [hfront] at hexec
  exact ⟨u, _, sectionUnit x, ⟨hrun, hpid, hmode, hchan, hpkt⟩, hfront, hlength, hexec, hstep _ _ rfl⟩

/-- A placed PES word is run on its unit, and the frame step counts the frame after it (R231). -/
theorem step_placePes (s : State) (x : BitVec 72) :
    ∃ u v unit, UnitPlaced .pes unit s u ∧ prefixWord unit = x ∧
      9 + (byteAt unit 8).toNat ≤ unit.length ∧ ((byteAt unit 7).getLsbD 7 = true → 14 ≤ unit.length) ∧
      exec (decodePes x) u = .next v ∧ step (s.placeUnit .pes (pesUnit x)) = .next v.countFrame := by
  obtain ⟨hfront, hwhole, hpts⟩ := pesUnit_front x
  have hpos : 1 ≤ (pesUnit x).length := le_trans (by simp only [pesHeaderLength, Config.pesPrefixLen]; omega) hwhole
  obtain ⟨u, hrun, hpid, hmode, hchan, hpkt, hstep⟩ := step_placeUnit s .pes (pesUnit x) Mode.noConfusion hpos
  obtain ⟨⟨c, es⟩, hok⟩ := tryDecode_isOk (p := 0#13) (c := ⟨.started, pesUnit x⟩) hpts
  have hexec := exec_decodePes_of_started hrun hpid hmode hchan hwhole
  rw [hfront, hok] at hexec
  exact ⟨u, _, pesUnit x, ⟨hrun, hpid, hmode, hchan, hpkt⟩, hfront, hwhole, hpts, hexec, hstep c es hok⟩

end Sys2Proof.Machine

namespace Sys2Proof.Statement

open Sys2Proof.Machine

/-- Settles O6, one conjunct for each place that a word is put in. -/
theorem placedWordRuns : Obligations.PlacedWordRuns := by
  unfold Obligations.PlacedWordRuns
  intro s w i
  refine ⟨?portStep, ?frame, ?sectionUnit, ?pesUnit⟩
  case portStep =>
    intro n hn h
    exact step_placed_portStep hn h s
  case frame =>
    intro h
    obtain ⟨x, rfl⟩ := exists_toNat_of_decodeTableWord (by decide) h
    obtain rfl := Option.some.inj ((decodeTableWord_frame x).symm.trans h)
    simp only [State.withFetchWord, State.placeWord, BitVec.ofNat_toNat, BitVec.setWidth_eq]
    exact step_placeFrame s x
  case sectionUnit =>
    intro n hn h
    simp only [List.mem_cons, List.not_mem_nil, or_false] at hn
    rcases hn with rfl | rfl
    · obtain ⟨x, rfl⟩ := exists_toNat_of_decodeTableWord (by decide) h
      obtain rfl := Option.some.inj ((decodeTableWord_byte x).symm.trans h)
      simp only [State.withFetchWord, State.placeWord, BitVec.ofNat_toNat, BitVec.setWidth_eq]
      exact step_placeSection s (x ++ 0#16)
    · obtain ⟨x, rfl⟩ := exists_toNat_of_decodeTableWord (by decide) h
      obtain rfl := Option.some.inj ((decodeTableWord_section x).symm.trans h)
      simp only [State.withFetchWord, State.placeWord, BitVec.ofNat_toNat, BitVec.setWidth_eq]
      exact step_placeSection s x
  case pesUnit =>
    intro h
    obtain ⟨x, rfl⟩ := exists_toNat_of_decodeTableWord (by decide) h
    obtain rfl := Option.some.inj ((decodeTableWord_pes x).symm.trans h)
    simp only [State.withFetchWord, State.placeWord, BitVec.ofNat_toNat, BitVec.setWidth_eq]
    obtain ⟨u, v, unit, hplaced, hfront, hwhole, hpts, hexec, hstep⟩ := step_placePes s x
    exact ⟨u, v, unit, hplaced, hfront, by rw [hfront], hwhole, hpts, hexec, hstep⟩

end Sys2Proof.Statement
end

section
/-! SUPPORT. The table fold as the serial form bit by bit, the fold of the register's own bytes, and what each kind of
operation leaves of crc; with them the statements on the CRC unit. -/

namespace Sys2Proof.Machine

open Sys2Proof.Statement

/-! ## The serial form (R122) -/

/-- The low `k` bits of `b` as the top bits of a register. -/
def topBits (b : Byte) (k : Nat) : Word := b.setWidth 32 <<< (32 - k)

theorem topBits_zero (b : Byte) : topBits b 0 = 0#32 := BitVec.shiftLeft_eq_zero (by decide)

theorem topBits_eight (b : Byte) : topBits b 8 = b ++ 0#24 := by
  apply BitVec.eq_of_toNat_eq
  have := b.isLt
  simp only [topBits, BitVec.toNat_shiftLeft, BitVec.toNat_setWidth, Nat.shiftLeft_eq, toNat_cat, BitVec.toNat_ofNat]
  omega

theorem topBits_succ_shiftLeft (b : Byte) {k : Nat} (hk : k < 32) : topBits b (k + 1) <<< 1 = topBits b k := by
  rw [topBits, ← BitVec.shiftLeft_add, topBits]
  congr 1
  omega

theorem getLsbD_topBits_succ (b : Byte) {k : Nat} (hk : k < 32) : (topBits b (k + 1)).getLsbD 31 = b.getLsbD k := by
  rw [topBits, BitVec.getLsbD_shiftLeft, BitVec.getLsbD_setWidth, show 31 - (32 - (k + 1)) = k by omega]
  simp [hk]

/-- A turn of the shift on a register with the bits ahead of it xored in is a serial turn on the register, the bits
after the first still ahead. -/
theorem crcShift_xor_topBits (c : Word) (b : Byte) {k : Nat} (hk : k < 32) :
    crcShift (c ^^^ topBits b (k + 1)) =
      (if (c.getLsbD 31).xor (b.getLsbD k) then (c <<< 1) ^^^ 0x04C11DB7#32 else c <<< 1) ^^^ topBits b k := by
  rw [crcShift, BitVec.getLsbD_xor, getLsbD_topBits_succ b hk, BitVec.shiftLeft_xor_distrib,
    topBits_succ_shiftLeft b hk]
  split
  · ac_rfl
  · rfl

/-- The serial form takes in one bit a turn where the table form xors all of them in first. -/
theorem crcSerial_eq_crcShifts (b : Byte) (k : Nat) (hk : k ≤ 32) (c : Word) :
    crcSerial b k c = crcShifts k (c ^^^ topBits b k) := by
  induction k generalizing c with
  | zero => rw [topBits_zero, BitVec.xor_zero, crcSerial, crcShifts]
  | succ k ih => rw [crcSerial, ih (by omega), crcShifts, crcShift_xor_topBits c b hk]

/-! ## The register folded into itself (R127) -/

/-- The top byte of the register cancels itself, and the fold only shifts. -/
theorem crcFold_own_top_byte (c : Word) : crcFold c (c.extractLsb' 24 8) = c <<< 8 := by
  have htab : crcTab 0#8 = 0#32 := by decide
  rw [crcFold, BitVec.xor_self, htab, BitVec.zero_xor]

/-- After `n` bits have been shifted out, the byte that was `n` bits below the top byte is the top byte. -/
theorem top_byte_shiftLeft (c : Word) {n : Nat} (hn : n ≤ 24) :
    (c <<< n).extractLsb' 24 8 = c.extractLsb' (24 - n) 8 := by
  apply BitVec.eq_of_getLsbD_eq
  intro i hi
  simp only [BitVec.getLsbD_extractLsb', BitVec.getLsbD_shiftLeft, hi, decide_true, Bool.true_and,
    show 24 + i < 32 by omega, show ¬ 24 + i < n by omega, decide_false, Bool.not_false]
  congr 1
  omega

/-- Folding in the byte that follows the `n` bits already shifted out shifts out its bits too. -/
theorem crcFold_shiftLeft_own_byte (c : Word) {n : Nat} (hn : n ≤ 24) :
    crcFold (c <<< n) (c.extractLsb' (24 - n) 8) = c <<< (n + 8) := by
  rw [← top_byte_shiftLeft c hn, crcFold_own_top_byte, ← BitVec.shiftLeft_add]

theorem foldl_crcFold_wordBytes (c : Word) : (wordBytes c).foldl crcFold c = 0#32 := by
  calc (wordBytes c).foldl crcFold c
      = crcFold (crcFold (crcFold (crcFold c (c.extractLsb' 24 8)) (c.extractLsb' 16 8)) (c.extractLsb' 8 8))
          (c.extractLsb' 0 8) := rfl
    _ = c <<< 32 := by
      rw [crcFold_own_top_byte, crcFold_shiftLeft_own_byte c (n := 8) (by decide),
        crcFold_shiftLeft_own_byte c (n := 16) (by decide), crcFold_shiftLeft_own_byte c (n := 24) (by decide)]
    _ = 0#32 := BitVec.shiftLeft_eq_zero (by decide)

/-! ## What leaves crc alone (R129) -/

@[simp] theorem State.commitChan_crc (s : State) (p : Pid) (r : ChanResult) : (s.commitChan p r).crc = s.crc := by
  cases r <;> rfl

@[simp] theorem packetStep_crc (af pl pusi : Bool) (o : TsOperands) (s : State) :
    (packetStep af pl pusi o s).crc = s.crc := by
  obtain ⟨_, _, _, _, _, _, _, hsame⟩ := packetStep_same af pl pusi o s
  rw [hsame]

/-- A stream operation whose effect leaves crc alone leaves it alone where it is discarded too. -/
theorem crc_of_whenRunning {s u t : State} (hu : u.crc = s.crc) (h : s.whenRunning u = .next t) : t.crc = s.crc := by
  rcases whenRunning_eq_next h with ⟨_, rfl⟩ | ⟨_, rfl⟩
  · exact hu
  · rfl

/-- A decode that is selected under a condition and acts on a channel leaves crc alone. -/
theorem crc_of_commitChan_if {c : Prop} [Decidable c] {s t : State} {p : Pid} {r : ChanResult}
    (h : s.whenRunning (if c then s.commitChan p r else s) = .next t) : t.crc = s.crc := by
  refine crc_of_whenRunning ?_ h
  split
  · exact State.commitChan_crc s p r
  · rfl

theorem crc_of_frameInstr {af pl pusi : Bool} {o : TsOperands} {s t : State}
    (h : exec (frameInstr af pl pusi o) s = .next t) : t.crc = s.crc := by
  rw [exec_frameInstr] at h
  exact crc_of_whenRunning (packetStep_crc af pl pusi o s) h

theorem crc_of_inByte {b : Byte} {s t : State} (h : exec (.inByte b) s = .next t) : t.crc = s.crc := by
  rcases inByte_cases b s with ⟨_, e⟩ | ⟨_, _, e⟩ | ⟨hrun, _, _, e⟩ <;> rw [e] at h
  · cases h
    rfl
  · cases h
    rfl
  · rcases frameStep_cases (s.storeByte b) hrun with ⟨_, e'⟩ | ⟨_, e'⟩ <;> rw [e'] at h <;> cases h
    · rfl
    · exact packetStep_crc ..

/-- An operation that is neither a CRC write nor a soft reset leaves crc alone; a soft reset sets it to the seed. -/
theorem crc_of_exec {i : Instr} {s t : State} (h : exec i s = .next t) :
    t.crc = s.crc ∨ (∃ d, i = .wrCrcInit d) ∨ (∃ d, i = .wrCrcData d) ∨
      (isSoftReset i = true ∧ t.crc = 0xFFFFFFFF#32) := by
  cases i with
  | wrCrcInit d => exact .inr (.inl ⟨d, rfl⟩)
  | wrCrcData d => exact .inr (.inr (.inl ⟨d, rfl⟩))
  | wrCtrl d =>
    have ht : (if d.getLsbD 0 then s.resetAll else s) = t := Host.Outcome.next.inj h
    split at ht <;> subst ht
    · next hsrst => exact .inr (.inr (.inr ⟨hsrst, rfl⟩))
    · exact .inl rfl
  | inByte b => exact .inl (crc_of_inByte h)
  | inEos x => exact .inl (crc_of_whenRunning (u := { s.emit _ with run := .done }) rfl h)
  | tsN o => exact .inl (crc_of_frameInstr (af := false) (pl := false) (pusi := false) h)
  | tsNS o => exact .inl (crc_of_frameInstr (af := false) (pl := false) (pusi := true) h)
  | tsP o => exact .inl (crc_of_frameInstr (af := false) (pl := true) (pusi := false) h)
  | tsPS o => exact .inl (crc_of_frameInstr (af := false) (pl := true) (pusi := true) h)
  | tsA o => exact .inl (crc_of_frameInstr (af := true) (pl := false) (pusi := false) h)
  | tsAS o => exact .inl (crc_of_frameInstr (af := true) (pl := false) (pusi := true) h)
  | tsAP o => exact .inl (crc_of_frameInstr (af := true) (pl := true) (pusi := false) h)
  | tsAPS o => exact .inl (crc_of_frameInstr (af := true) (pl := true) (pusi := true) h)
  | tsBad sync x => exact .inl (crc_of_whenRunning (State.raiseFault_crc s .framingError 0#13) h)
  | secUnit tableId x len => exact .inl (crc_of_commitChan_if h)
  | secStuff => exact .inl (crc_of_commitChan_if h)
  | pesHdrPts pre => exact .inl (crc_of_commitChan_if h)
  | pesHdrNopts pre => exact .inl (crc_of_commitChan_if h)
  | wrChCmd d =>
    have ht : (if d.getLsbD 0 then s.resetChan s.chSel else s) = t := Host.Outcome.next.inj h
    split at ht <;> subst ht <;> exact .inl rfl
  | rdStatus | rdFrameCnt | rdFaultInfo | rdFaultPid | wrChSel | rdChSel | wrChMode | rdChMode | rdChState |
      rdCrcValue =>
    cases h
    exact .inl rfl

end Sys2Proof.Machine

namespace Sys2Proof.Statement

open Sys2Proof.Machine

/-- Settles O34: both forms are eight turns of the shift on the register with the byte xored into its top bits. -/
theorem foldIsBitSerial : Obligations.FoldIsBitSerial := by
  unfold Obligations.FoldIsBitSerial
  intro c b
  refine ⟨rfl, ?_⟩
  rw [crcFold_eq_shifts, crcSerial_eq_crcShifts b 8 (by decide), topBits_eight]

/-- Settles O35: the CRC goes on from that of `m`, whose own four bytes shift it out. -/
theorem crcZeroResidue : Obligations.CrcZeroResidue := by
  unfold Obligations.CrcZeroResidue
  refine ⟨fun m => ?_, by decide +kernel⟩
  rw [crc32_append, foldl_crcFold_wordBytes]

/-- Settles O33: each of the three meanings is its equation, for every run state and datum. -/
theorem crcCommandsResult : Obligations.CrcCommandsResult := by
  unfold Obligations.CrcCommandsResult
  exact fun s d => ⟨rfl, rfl, rfl⟩

/-- Settles O36, over the operations for who changes crc, and by the whole effect of the three commands for what they
change. -/
theorem crcUnitIndependent : Obligations.CrcUnitIndependent := by
  unfold Obligations.CrcUnitIndependent
  intro i s t h
  refine ⟨crc_of_exec h, ?_⟩
  rintro (⟨d, rfl⟩ | ⟨d, rfl⟩ | ⟨d, rfl⟩) <;> obtain ⟨hinit, hdata, hread⟩ := crcCommandsResult s d
  · rw [hinit] at h
    cases h
    rfl
  · rw [hdata] at h
    cases h
    rfl
  · rw [hread] at h
    cases h
    rfl

end Sys2Proof.Statement
end

section
/-! SUPPORT. FB and byte_cnt after a stored byte, and with them the statements on the two IN symbols. -/

namespace Sys2Proof.Machine

/-! ## A stored byte (R25, R141) -/

theorem State.storeByte_read_same (s : State) (b : Byte) (h : s.fb.wf = true) :
    (s.storeByte b).fb.read s.byteCnt.val = b := Memory.read_write_same _ _ _ h

theorem State.storeByte_read_ne (s : State) (b : Byte) {a : Nat} (h : a ≠ s.byteCnt.val) :
    (s.storeByte b).fb.read a = s.fb.read a := Memory.read_write_ne _ _ h

/-- The 188th byte is stored with byte_cnt back at 0 (R141). -/
theorem State.storeByte_of_last (s : State) (b : Byte) (h : s.byteCnt.val = 187) :
    s.storeByte b = { s with fb := (s.storeByte b).fb, byteCnt := 0 } := by
  have hzero : s.byteCnt + 1 = 0 := by
    rw [show s.byteCnt = Fin.last 187 from Fin.ext h, Fin.last_add_one]
  rw [← hzero]
  rfl

end Sys2Proof.Machine

namespace Sys2Proof.Statement

open Sys2Proof.Machine

/-- Settles O7: inside a frame IN.BYTE is the store, and 187 is not reached, so byte_cnt does not wrap. -/
theorem byteInsideFrameStored : Obligations.ByteInsideFrameStored := by
  unfold Obligations.ByteInsideFrameStored
  intro s b hrun hlt
  have hnext : (s.byteCnt + 1).val = s.byteCnt.val + 1 := Fin.val_add_one_of_lt (i := s.byteCnt) hlt
  exact ⟨(s.storeByte b).fb, exec_inByte_of_lt b hrun hlt, hnext, s.storeByte_read_same b,
    fun _ => s.storeByte_read_ne b⟩

/-- Settles O8: the store wraps byte_cnt, and the frame step is the execution of the decoded header word. -/
theorem lastByteRunsFrameClass : Obligations.LastByteRunsFrameClass := by
  unfold Obligations.LastByteRunsFrameClass
  intro s b hrun hlast
  have hstored := s.storeByte_of_last b hlast
  refine ⟨(s.storeByte b).fb, hstored, ?written, ?kept, ?executed⟩
  case written =>
    rw [← hlast]
    exact s.storeByte_read_same b
  case kept =>
    intro a ha
    exact s.storeByte_read_ne b (hlast ▸ ha)
  case executed =>
    rw [exec_inByte_of_last b hrun hlast.not_lt, frameStep_eq_exec, ← hstored]

/-- Settles O9, by the two symbols that a word can be. -/
theorem inputDiscardedOutsideRun : Obligations.InputDiscardedOutsideRun := by
  unfold Obligations.InputDiscardedOutsideRun
  intro s w hrun
  rcases decodeSymbol_cases w with ⟨b, hw⟩ | ⟨x, hw⟩ <;> rw [hw]
  · exact exec_inByte_of_not_run b hrun
  · exact exec_inEos_of_not_run x hrun

/-- Settles O10, by the run state. -/
theorem endOfStreamResult : Obligations.EndOfStreamResult := by
  unfold Obligations.EndOfStreamResult
  exact fun s x => ⟨exec_inEos_of_run x, exec_inEos_of_not_run x⟩

end Sys2Proof.Statement
end

section
/-! SUPPORT. The packet step by what its adaptation field and its channel stage give, as a frame done or a frame faulted,
and with it the statements on the `PKT` event and on the faults that a frame's class and header decide. -/

namespace Sys2Proof.Machine

open Sys2Proof.Statement

/-! ## A frame class in RUN (R160, R178) -/

theorem exec_frameInstr_of_run (af pl pusi : Bool) (o : TsOperands) {s : State} (hr : s.run = .run) :
    exec (frameInstr af pl pusi o) s = .next (packetStep af pl pusi o s) :=
  (exec_frameInstr af pl pusi o s).trans (if_pos hr)

theorem exec_tsBad_of_run (sync : Byte) (x : BitVec 24) {s : State} (hr : s.run = .run) :
    exec (.tsBad sync x) s = .next (s.raiseFault .framingError 0#13) := if_pos hr

/-! ## The body of a frame (R162 to R164) -/

theorem frameBody_of_fits {af : Bool} (pl : Bool) {fb : Memory} (h : payloadOffset af fb ≤ Config.frameLen) :
    frameBody af pl fb = some
      { afPresent := af
        afLen     := if af then fb.read 4 else 0#8
        af        := if af then fb.readBytes 5 (fb.read 4).toNat else []
        payload   := if pl then fb.readBytes (payloadOffset af fb) (Config.frameLen - payloadOffset af fb) else [] } :=
  if_neg h.not_gt

theorem frameBody_of_overrun (pl : Bool) {fb : Memory} (h : (fb.read 4).toNat > 183) : frameBody true pl fb = none :=
  if_pos (show 5 + (fb.read 4).toNat > 188 by omega)

/-- A field that fits leaves the frame a body, empty of payload in a class without one. -/
theorem exists_frameBody {af : Bool} (pl : Bool) {fb : Memory} (h : af = true → (fb.read 4).toNat ≤ 183) :
    ∃ body, frameBody af pl fb = some body ∧ (pl = false → body.payload = []) := by
  rcases frameBody_cases af pl fb with ⟨_, haf, hover⟩ | ⟨body, hbody, _, _, _, _, _, hpayload⟩
  · exact absurd (h haf) hover.not_ge
  · exact ⟨body, hbody, hpayload⟩

/-! ## The packet step, by what its parts give (R160) -/

section
variable {af pl pusi : Bool} {o : TsOperands} {s : State} {body : FrameBody}

theorem packetStep_of_none (hbody : frameBody af pl s.fb = none) :
    packetStep af pl pusi o s = s.raiseFault .adaptationOverrun o.pid := by
  rw [packetStep, hbody]

theorem packetStep_of_error (hbody : frameBody af pl s.fb = some body) {code : Cause}
    (hstage : channelStage (s.modeOf o.pid) o.pid pusi body.payload (s.chan o.pid) = .error code) :
    packetStep af pl pusi o s = (s.emit [.pkt (packetOf af pl pusi o body s)]).raiseFault code o.pid := by
  simp only [packetStep, hbody, hstage]
  rfl

theorem packetStep_of_ok (hbody : frameBody af pl s.fb = some body) {c : Chan} {es : List Event}
    (hstage : channelStage (s.modeOf o.pid) o.pid pusi body.payload (s.chan o.pid) = .ok (c, es)) :
    packetStep af pl pusi o s =
      (((s.emit [.pkt (packetOf af pl pusi o body s)]).setChan o.pid c).emit es).countFrame := by
  simp only [packetStep, hbody, hstage]
  rfl

/-- A frame whose adaptation field fits reports its packet first, whatever its channel stage does then. -/
theorem packetStep_ev (hbody : frameBody af pl s.fb = some body) :
    ∃ es, (packetStep af pl pusi o s).ev = s.ev ++ .pkt (packetOf af pl pusi o body s) :: es := by
  cases hstage : channelStage (s.modeOf o.pid) o.pid pusi body.payload (s.chan o.pid) with
  | error code =>
    exact ⟨[.fault code s.frameCnt o.pid], by rw [packetStep_of_error hbody hstage]; simp⟩
  | ok ce => exact ⟨ce.2, by rw [packetStep_of_ok hbody hstage]; simp⟩

end

/-! ## The header fields of a packet (R81, R165) -/

/-- The last byte of the header word is FB[3]. -/
theorem getLsbD_headerWord (fb : Memory) {i : Nat} (hi : i < 8) : (headerWord fb).getLsbD i = (fb.read 3).getLsbD i :=
  BitVec.getLsbD_append.trans (if_pos hi)

/-- The header word of a class with afc joined from its two bits, as a `PKT` event holds it. -/
theorem encodeFrame_eq_joined_afc (af pl pusi : Bool) (o : TsOperands) :
    encodeFrame af pl pusi o =
      0x47#8 ++ BitVec.ofBool o.tei ++ BitVec.ofBool pusi ++ BitVec.ofBool o.prio ++ o.pid ++ o.tsc ++
        (BitVec.ofBool af ++ BitVec.ofBool pl) ++ o.cc := by
  apply BitVec.eq_of_toNat_eq
  rw [toNat_encodeFrame]
  simp only [toNat_cat, BitVec.toNat_ofBool, BitVec.toNat_ofNat]
  omega

theorem take_four_raw (af pl pusi : Bool) (o : TsOperands) (body : FrameBody) (s : State) :
    (packetOf af pl pusi o body s).raw.take 4 = [s.fb.read 0, s.fb.read 1, s.fb.read 2, s.fb.read 3] := rfl

end Sys2Proof.Machine

namespace Sys2Proof.Statement

open Sys2Proof.Machine

/-! ## A frame that is done or that faulted -/

/-- Trap entry after the events `es` is a faulted frame, of any PID, as it touches no channel (R338). -/
theorem raiseFault_frameFaulted (p q : Pid) (es : List Event) (code : Cause) (s : State) :
    FrameFaulted p es code q s ((s.emit es).raiseFault code q) :=
  ⟨rfl, rfl, rfl, rfl, rfl, rfl, rfl, sameOutsideChannel_refl p s⟩

theorem raiseFault_frameFaulted_nil (p q : Pid) (code : Cause) (s : State) :
    FrameFaulted p [] code q s (s.raiseFault code q) := by
  have hemit : s.emit [] = s := by simp [State.emit]
  simpa only [hemit] using raiseFault_frameFaulted p q [] code s

section
variable {af pl pusi : Bool} {o : TsOperands} {s : State} {body : FrameBody}

/-- The channel stage of a frame faults: its `PKT` event is out and nothing else has changed (R160, R338). -/
theorem packetStep_frameFaulted (hbody : frameBody af pl s.fb = some body) {code : Cause}
    (hstage : channelStage (s.modeOf o.pid) o.pid pusi body.payload (s.chan o.pid) = .error code) :
    FrameFaulted o.pid [.pkt (packetOf af pl pusi o body s)] code o.pid s (packetStep af pl pusi o s) := by
  rw [packetStep_of_error hbody hstage]
  exact raiseFault_frameFaulted _ _ _ _ _

/-- The channel stage of a frame gives a record and events: they follow the `PKT` event (R160, R167). -/
theorem packetStep_frameDone (hwf : Table.wf Chan.idle s.ch = true) (hbody : frameBody af pl s.fb = some body)
    {c : Chan} {es : List Event}
    (hstage : channelStage (s.modeOf o.pid) o.pid pusi body.payload (s.chan o.pid) = .ok (c, es)) :
    FrameDone o.pid (.pkt (packetOf af pl pusi o body s) :: es) c s (packetStep af pl pusi o s) := by
  have hsame := packetStep_sameOutsideChannel af pl pusi o s
  rw [packetStep_of_ok hbody hstage] at hsame ⊢
  exact ⟨by simp, rfl, State.chan_setChan_same s o.pid c hwf, rfl, rfl, rfl, rfl, hsame⟩

end

/-- Settles O11: the channel stage of an OFF channel gives the channel back and no event, and a range of FB is read
byte by byte. -/
theorem offChannelFrameReported : Obligations.OffChannelFrameReported := by
  unfold Obligations.OffChannelFrameReported
  intro af pl pusi o s off hrun hoff hwf heq hle
  obtain rfl : off = payloadOffset af s.fb := heq
  have hbody := frameBody_of_fits pl hle
  have hdone := packetStep_frameDone (pusi := pusi) (o := o) hwf hbody (by rw [hoff]; rfl)
  simp only [packetOf, Memory.readBytes_eq_map, Nat.zero_add] at hdone
  exact ⟨_, exec_frameInstr_of_run af pl pusi o hrun, hdone⟩

/-- Settles O12: with FB[4] > 183 the frame has no body, and the packet step is the trap entry. -/
theorem adaptationOverrunTraps : Obligations.AdaptationOverrunTraps := by
  unfold Obligations.AdaptationOverrunTraps
  intro pl pusi o s hrun hover
  refine ⟨_, exec_frameInstr_of_run true pl pusi o hrun, ?_⟩
  rw [packetStep_of_none (frameBody_of_overrun pl hover)]
  exact raiseFault_frameFaulted_nil _ _ _ _

/-- Settles O13: TS.BAD in RUN is the trap entry. -/
theorem badSyncTraps : Obligations.BadSyncTraps := by
  unfold Obligations.BadSyncTraps
  exact fun sync x p s hrun => ⟨_, exec_tsBad_of_run sync x hrun, raiseFault_frameFaulted_nil p _ _ _⟩

/-- Settles O15: a unit start with an empty payload has no pointer field. -/
theorem unitStartWithoutPayloadTraps : Obligations.UnitStartWithoutPayloadTraps := by
  unfold Obligations.UnitStartWithoutPayloadTraps
  intro af o s hrun hsec hfits
  obtain ⟨body, hbody, hpayload⟩ := exists_frameBody false hfits
  have hstage : channelStage (s.modeOf o.pid) o.pid true body.payload (s.chan o.pid) = .error .pointerOverrun := by
    rw [hsec, hpayload rfl]
    rfl
  exact ⟨_, _, exec_frameInstr_of_run af false true o hrun, packetStep_frameFaulted hbody hstage⟩

/-- Settles O21: the operands of a frame with the sync byte encode to its header word, which is its first four bytes. -/
theorem packetHeaderReserializes : Obligations.PacketHeaderReserializes := by
  unfold Obligations.PacketHeaderReserializes
  intro s hrun hfirst hfits
  have hsync : (headerWord s.fb).extractLsb' 24 8 = Config.sync := (headerWord_sync s.fb).trans hfirst
  rw [← getLsbD_headerWord s.fb (by omega)] at hfits
  obtain ⟨body, hbody, _⟩ := exists_frameBody ((headerWord s.fb).getLsbD 4) hfits
  obtain ⟨es, hev⟩ := packetStep_ev (pusi := (headerWord s.fb).getLsbD 22) (o := tsOperandsOf (headerWord s.fb)) hbody
  refine ⟨_, _, es, ?executed, hev, take_four_raw _ _ _ _ _ _, ?reserialized⟩
  case executed =>
    rw [decodeFrame_of_sync hsync]
    exact exec_frameInstr_of_run _ _ _ _ hrun
  case reserialized =>
    have hword := (encodeFrame_eq_joined_afc _ _ _ _).symm.trans (encodeFrame_fields _ hsync)
    exact (wordBytes_headerWord s.fb).symm.trans (congrArg wordBytes hword.symm)

end Sys2Proof.Statement
end

section
/-! SUPPORT. A submission to the section reassembler by the kind of packet it is, and with it the statements on the
frames of a SEC channel, on the two section operations and on what a drain leaves. -/

namespace Sys2Proof.Machine

open Sys2Proof.Statement

/-! ## A submission, by the kind of packet (R193 to R196) -/

section
variable (p : Pid) {payload : List Byte} (c : Chan)

/-- A unit start without a pointer target raises PointerOverrun (R194). -/
theorem secSubmit_of_overrun (h : payload.length = 0 ∨ (byteAt payload 0).toNat + 1 > payload.length) :
    secSubmit p true payload c = .error .pointerOverrun := by
  have hover : (byteAt payload 0).toNat + 1 > payload.length := by omega
  simp [secSubmit, hover]

/-- A unit start with its pointer target inside the payload loads it from there, whatever the channel holds (R193). -/
theorem secSubmit_of_pointer (h : (byteAt payload 0).toNat + 1 ≤ payload.length) :
    secSubmit p true payload c = .ok (drain p ⟨.started, payload.drop ((byteAt payload 0).toNat + 1)⟩) := by
  have hnonempty : payload.length ≠ 0 := by omega
  rw [secSubmit, if_pos rfl, if_neg hnonempty, if_neg h.not_gt]

/-- A continuation is appended while Accumulating and ignored otherwise (R195, R196). -/
theorem secSubmit_continuation (payload : List Byte) :
    secSubmit p false payload c =
      .ok (if c.st = .started then drain p ⟨.started, c.buf ++ payload⟩ else (c, [])) := by
  by_cases hst : c.st = .started <;> simp [secSubmit, hst]

end

theorem State.emit_nil (s : State) : s.emit [] = s := by simp [State.emit]

end Sys2Proof.Machine

namespace Sys2Proof.Statement

open Sys2Proof.Machine

/-- Settles O14: the channel stage of the frame faults, after the `PKT` event. -/
theorem pointerOverrunTraps : Obligations.PointerOverrunTraps := by
  unfold Obligations.PointerOverrunTraps
  intro af pl o s body hrun hsec hbody hover
  have hstage : channelStage (s.modeOf o.pid) o.pid true body.payload (s.chan o.pid) = .error .pointerOverrun := by
    rw [hsec]
    exact secSubmit_of_overrun o.pid _ hover
  exact ⟨_, exec_frameInstr_of_run af pl true o hrun, packetStep_frameFaulted hbody hstage⟩

/-- Settles O16: the channel stage of the frame is the drain of the payload from the pointer target on. -/
theorem sectionUnitStartLoads : Obligations.SectionUnitStartLoads := by
  unfold Obligations.SectionUnitStartLoads
  intro af pl o s body hrun hsec hwf hbody _ hpointer
  refine ⟨_, _, exec_frameInstr_of_run af pl true o hrun, rfl, packetStep_frameDone hwf hbody ?_⟩
  rw [hsec]
  exact secSubmit_of_pointer o.pid _ hpointer

/-- Settles O17: the channel stage of the frame is the drain of the appended buffer, or nothing. -/
theorem sectionContinuationAppends : Obligations.SectionContinuationAppends := by
  unfold Obligations.SectionContinuationAppends
  intro af pl o s body hrun hsec hwf hbody
  refine ⟨_, _, exec_frameInstr_of_run af pl false o hrun, rfl, packetStep_frameDone hwf hbody ?_⟩
  rw [hsec]
  exact secSubmit_continuation o.pid _ _

/-- Settles O24: a selected operation commits its turn of the drain, and SEC.STUFF emits nothing. -/
theorem sectionOperationsResult : Obligations.SectionOperationsResult := by
  unfold Obligations.SectionOperationsResult
  rintro s p ⟨st, buf⟩ hrun hpid hmode hchan rfl
  constructor
  · intro tableId x len hwhole
    exact exec_secUnit_of_accumulating hrun hpid.symm hmode hchan tableId x hwhole
  · rw [exec_secStuff_of_accumulating hrun hpid.symm hmode hchan]
    exact congrArg Host.Outcome.next (State.emit_nil _)

/-- Settles O25: the end of the drain by induction along its loop, the bound by what a waiting buffer may hold. -/
theorem drainLeavesNoSection : Obligations.DrainLeavesNoSection := by
  unfold Obligations.DrainLeavesNoSection
  intro p buf
  have hend := drain_waiting p ⟨.started, buf⟩
  refine ⟨hend, ?_⟩
  rcases hend with hidle | ⟨_, hwaiting⟩
  · simp [hidle]
  · exact secWaiting_length hwaiting

end Sys2Proof.Statement
end

section
/-! SUPPORT. A section delivered in pieces: what a drain makes of a part of it, of all of it and of the stuffing after
it, and with them the statement on split invariance. -/

namespace Sys2Proof.Machine

open Sys2Proof.Statement

theorem drain_of_waiting {p : Pid} {c : Chan} (h : secWaiting c.buf) : drain p c = (c, []) := by
  rcases h with hempty | ⟨hstuff, hshort⟩
  · rw [drain_eq, if_pos hempty]
  · rw [drain_eq, if_neg hstuff]
    rcases hshort with hhead | hbody
    · simp only [if_pos hhead, ite_self]
    · simp only [if_pos hbody, ite_self]

/-- Stuffing empties an Accumulating channel: nothing of it is kept, and one byte of it ends the reassembly (R199). -/
theorem drain_of_stuffing (p : Pid) {stuffing : List Byte} (h : ∀ b ∈ stuffing, b = Config.stuff) :
    drain p ⟨.started, stuffing⟩ = (if stuffing = [] then ⟨.started, []⟩ else Chan.idle, []) := by
  cases stuffing with
  | nil => exact drain_of_waiting (.inl rfl)
  | cons b rest => exact drain_of_stuff (Nat.succ_ne_zero _) (h b List.mem_cons_self)

/-- A unit start with pointer field 0 is, in any state, a continuation of an empty Accumulating channel (R193). -/
theorem secSubmit_pointer_zero (p : Pid) (c : Chan) (first : List Byte) :
    secSubmit p true (0x00#8 :: first) c = secSubmit p false first ⟨.started, []⟩ := by
  rw [secSubmit_of_pointer p c (by simp [byteAt]), secSubmit_continuation]
  rfl

theorem secFeed_continuation {p : Pid} {c c' c'' : Chan} {k : List Byte} {ks : List (List Byte)} {es es' : List Event}
    (hsubmit : secSubmit p false k c = .ok (c', es))
    (hrest : secFeed p c' (ks.map fun k => (false, k)) = .ok (c'', es')) :
    secFeed p c ((k :: ks).map fun k => (false, k)) = .ok (c'', es ++ es') := by
  simp only [List.map_cons, secFeed, hsubmit, hrest]

/-- Stuffing on a channel that holds nothing, Accumulating or not, leaves such a channel and emits nothing. -/
theorem secFeed_stuffing (p : Pid) {chunks : List (List Byte)} (hstuffing : ∀ b ∈ chunks.flatten, b = Config.stuff)
    {c : Chan} (hc : c = ⟨.started, []⟩ ∨ c = Chan.idle) :
    ∃ c', secFeed p c (chunks.map fun k => (false, k)) = .ok (c', []) := by
  induction chunks generalizing c with
  | nil => exact ⟨c, rfl⟩
  | cons k ks ih =>
    rw [List.flatten_cons, List.forall_mem_append] at hstuffing
    obtain ⟨hk, hks⟩ := hstuffing
    have hsubmit : ∃ c', secSubmit p false k c = .ok (c', []) ∧ (c' = ⟨.started, []⟩ ∨ c' = Chan.idle) := by
      rw [secSubmit_continuation]
      rcases hc with rfl | rfl
      · exact ⟨_, congrArg Except.ok (drain_of_stuffing p hk), ite_eq_or_eq _ _ _⟩
      · exact ⟨_, rfl, .inr rfl⟩
    obtain ⟨c', hsubmit, hc'⟩ := hsubmit
    obtain ⟨c'', hrest⟩ := ih hks hc'
    exact ⟨c'', (secFeed_continuation hsubmit hrest :)⟩

/-! ## A section `sec` of its declared length (R203) -/

section
variable (p : Pid) {sec : List Byte} (hfront : byteAt sec 0 ≠ Config.stuff)
  (hlength : sec.length = wholeLength (sectionLength sec))
include hfront hlength

theorem secWaiting_of_prefix {b : List Byte} (hprefix : b <+: sec) (hlt : b.length < sec.length) : secWaiting b := by
  obtain ⟨rest, rfl⟩ := hprefix
  by_cases hempty : b.length = 0
  · exact .inl hempty
  · rw [byteAt_append_left b rest 0 (by omega)] at hfront
    refine .inr ⟨hfront, ?_⟩
    by_cases hhead : b.length < Config.secHdrMin
    · exact .inl hhead
    · rw [sectionLength_append_left b rest (Nat.not_lt.mp hhead)] at hlength
      exact .inr (hlength ▸ hlt)

/-- A piece that does not complete the section is kept. -/
theorem secSubmit_of_prefix {b k : List Byte} (hprefix : b ++ k <+: sec) (hlt : (b ++ k).length < sec.length) :
    secSubmit p false k ⟨.started, b⟩ = .ok (⟨.started, b ++ k⟩, []) := by
  rw [secSubmit_continuation]
  exact congrArg Except.ok (drain_of_waiting (secWaiting_of_prefix hfront hlength hprefix hlt))

/-- The drain of a buffer that begins with the section emits it and goes on with the rest. -/
theorem drain_section_append (rest : List Byte) :
    drain p ⟨.started, sec ++ rest⟩ =
      ((drain p ⟨.started, rest⟩).1, .sectionDone p sec :: (drain p ⟨.started, rest⟩).2) := by
  have hthree := three_le_wholeLength (sectionLength sec)
  have hsame : sectionLength (sec ++ rest) = sectionLength sec := sectionLength_append_left sec rest (by omega)
  have hnotStuff : byteAt (sec ++ rest) 0 ≠ Config.stuff := by rwa [byteAt_append_left sec rest 0 (by omega)]
  rw [drain_of_section hnotStuff (by simp [hsame, hlength])]
  simp [secUnit, hsame, ← hlength]

/-- The piece that completes the section emits it, and of the stuffing after it nothing is kept. -/
theorem secSubmit_of_completed {b k stuffing : List Byte} (hstuffing : ∀ x ∈ stuffing, x = Config.stuff)
    (hbuf : b ++ k = sec ++ stuffing) :
    ∃ c', secSubmit p false k ⟨.started, b⟩ = .ok (c', [.sectionDone p sec]) ∧
      (c' = ⟨.started, []⟩ ∨ c' = Chan.idle) := by
  refine ⟨_, ?_, ite_eq_or_eq (stuffing = []) _ _⟩
  rw [secSubmit_continuation]
  simp only [if_true, hbuf, drain_section_append p hfront hlength, drain_of_stuffing p hstuffing]

/-- Pieces that do not complete the section are kept, and nothing is emitted. -/
theorem secFeed_of_prefix (chunks : List (List Byte)) {b : List Byte} (hprefix : b ++ chunks.flatten <+: sec)
    (hlt : (b ++ chunks.flatten).length < sec.length) :
    secFeed p ⟨.started, b⟩ (chunks.map fun k => (false, k)) = .ok (⟨.started, b ++ chunks.flatten⟩, []) := by
  induction chunks generalizing b with
  | nil => simp [secFeed]
  | cons k ks ih =>
    rw [List.flatten_cons, ← List.append_assoc] at hprefix hlt ⊢
    have hkept : b ++ k <+: sec := (List.prefix_append _ _).trans hprefix
    have hsubmit := secSubmit_of_prefix p hfront hlength hkept (by simp only [List.length_append] at hlt ⊢; omega)
    exact (secFeed_continuation hsubmit (ih hprefix hlt) :)

/-- Pieces that complete the section and go on with stuffing emit it once. -/
theorem secFeed_of_completed (chunks : List (List Byte)) {b stuffing : List Byte}
    (hstuffing : ∀ x ∈ stuffing, x = Config.stuff) (hlt : b.length < sec.length)
    (hsplit : b ++ chunks.flatten = sec ++ stuffing) :
    ∃ c', secFeed p ⟨.started, b⟩ (chunks.map fun k => (false, k)) = .ok (c', [.sectionDone p sec]) := by
  induction chunks generalizing b with
  | nil =>
    have hlen := congrArg List.length hsplit
    simp only [List.flatten_nil, List.append_nil, List.length_append] at hlen
    omega
  | cons k ks ih =>
    rw [List.flatten_cons, ← List.append_assoc] at hsplit
    by_cases hmore : (b ++ k).length < sec.length
    · have hkept : b ++ k <+: sec :=
        List.prefix_of_prefix_length_le ⟨_, hsplit⟩ (List.prefix_append sec stuffing) hmore.le
      obtain ⟨c', hrest⟩ := ih hmore hsplit
      exact ⟨c', (secFeed_continuation (secSubmit_of_prefix p hfront hlength hkept hmore) hrest :)⟩
    · obtain ⟨tail, hbuf⟩ : sec <+: b ++ k :=
        List.prefix_of_prefix_length_le ⟨_, rfl⟩ ⟨_, hsplit⟩ (Nat.not_lt.mp hmore)
      rw [← hbuf, List.append_assoc, List.append_cancel_left_eq] at hsplit
      rw [← hsplit, List.forall_mem_append] at hstuffing
      obtain ⟨htail, hks⟩ := hstuffing
      obtain ⟨c', hsubmit, hc'⟩ := secSubmit_of_completed p hfront hlength htail hbuf.symm
      obtain ⟨c'', hrest⟩ := secFeed_stuffing p hks hc'
      exact ⟨c'', (secFeed_continuation hsubmit hrest :)⟩

end

end Sys2Proof.Machine

namespace Sys2Proof.Statement

open Sys2Proof.Machine

/-- Settles O28: the unit start is the first continuation of an empty channel, and the rest is by induction on the
pieces. -/
theorem sectionSplitInvariance : Obligations.SectionSplitInvariance := by
  unfold Obligations.SectionSplitInvariance
  intro p c sec first chunks hlength hfront _ _
  have hfeed : secFeed p c ((true, 0x00#8 :: first) :: chunks.map fun k => (false, k)) =
      secFeed p ⟨.started, []⟩ ((first :: chunks).map fun k => (false, k)) := by
    simp only [List.map_cons, secFeed, secSubmit_pointer_zero]
  rw [hfeed]
  constructor
  · intro stuffing hstuffing hsplit
    have hpos : ([] : List Byte).length < sec.length := by rw [hlength, List.length_nil]; omega
    exact secFeed_of_completed p hfront hlength (first :: chunks) hstuffing hpos hsplit
  · exact secFeed_of_prefix p hfront hlength (first :: chunks) (b := [])

end Sys2Proof.Statement
end

section
/-! SUPPORT. What a legal channel record may hold, by its mode, and with it the statement on the buffer bounds. -/

namespace Sys2Proof.Machine

theorem pesWaiting_length {b : List Byte} (h : pesWaiting b) : b.length ≤ 263 := by
  have hbyte := (byteAt b 8).isLt
  simp only [pesWaiting, pesHeaderLength, Config.pesPrefixLen] at h
  omega

theorem Chan.Legal.eq_idle {c : Chan} (h : c.Legal .off) : c = Chan.idle := by
  obtain ⟨st, buf⟩ := c
  cases st with
  | notStarted => exact congrArg (Chan.mk .notStarted) h
  | started => exact h.elim
  | headerParsed => exact h.elim

theorem Chan.Legal.sec_length {c : Chan} (h : c.Legal .sec) : c.buf.length ≤ 4097 := by
  obtain ⟨st, buf⟩ := c
  cases st with
  | notStarted => exact (congrArg List.length h).trans_le (by simp)
  | started => exact secWaiting_length h
  | headerParsed => exact h.elim

theorem Chan.Legal.pes_length {c : Chan} (h : c.Legal .pes) : c.buf.length ≤ 263 := by
  obtain ⟨st, buf⟩ := c
  cases st with
  | notStarted => exact (congrArg List.length h).trans_le (by simp)
  | started => exact pesWaiting_length h
  | headerParsed => exact (congrArg List.length h).trans_le (by simp)

end Sys2Proof.Machine

namespace Sys2Proof.Statement

open Sys2Proof.Machine

/-- Settles O55: the record is legal for its mode, and a payload adds at most 184 bytes. -/
theorem bufferBounds : Obligations.BufferBounds := by
  unfold Obligations.BufferBounds
  intro s p payload hinv hpayload
  have hlegal := hinv.chan_legal p
  simp only [List.length_append]
  refine ⟨fun hsec => ?_, fun hpes => ?_, fun hoff => ?_⟩
  · rw [hsec] at hlegal
    have hbuf := hlegal.sec_length
    omega
  · rw [hpes] at hlegal
    have hbuf := hlegal.pes_length
    omega
  · rw [hoff] at hlegal
    exact hlegal.eq_idle

end Sys2Proof.Statement
end

section
/-! SUPPORT. A submission to the PES reassembler by the kind of packet it is, the header operations where they are
selected, and with them the statements on the frames of a PES channel and on a header decode. -/

namespace Sys2Proof.Machine

/-! ## A delivery (R228, R231) -/

theorem pesDelivery_eq (p : Pid) (data : List Byte) :
    pesDelivery p data = if data = [] then [] else [.pesData p data] := by
  cases data <;> rfl

/-! ## A submission, by the kind of packet (R222) -/

section
variable (p : Pid) (payload : List Byte) {c : Chan}

theorem pesSubmit_of_headerParsed (pusi : Bool) (h : c.st = .headerParsed) :
    pesSubmit p pusi payload c = .ok (c, pesDelivery p payload) := if_pos h

theorem pesSubmit_unitStart (h : c.st ≠ .headerParsed) :
    pesSubmit p true payload c = tryDecode p ⟨.started, payload⟩ := if_neg h

theorem pesSubmit_continuation (h : c.st = .started) :
    pesSubmit p false payload c = tryDecode p ⟨.started, c.buf ++ payload⟩ := by simp [pesSubmit, h]

theorem pesSubmit_of_notStarted (h : c.st = .notStarted) : pesSubmit p false payload c = .ok (c, []) := by
  simp [pesSubmit, h]

end

/-! ## A decode attempt that waits (R230) -/

theorem tryDecode_of_waiting (p : Pid) {c : Chan} (h : pesWaiting c.buf) : tryDecode p c = .ok (c, []) := by
  rw [tryDecode]
  rcases h with hprefix | hheader
  · rw [if_pos hprefix]
  · rw [if_pos hheader, ite_self]

/-! ## The header operations where the decode attempt selects them (R92, R231) -/

section
variable {s : State} {p : Pid} {c : Chan} {h : PesPrefix} (hrun : s.run = .run) (hpid : framePid s.fb = p)
  (hmode : s.modeOf p = .pes) (hchan : s.chan p = c) (hstarted : c.st = .started)
  (hwhole : pesHeaderLength h.headerDataLen ≤ c.buf.length)

include hpid hmode hchan hstarted hwhole in
theorem pesSelected_of_started : pesSelected h s = true := by
  simp [pesSelected, hpid, hmode, hchan, hstarted, hwhole]

include hrun hpid hmode hchan hstarted hwhole

theorem exec_pesHdrPts_of_started : exec (.pesHdrPts h) s = .next (s.commitChan p (pesHdrPts p h c)) := by
  have hsel := pesSelected_of_started hpid hmode hchan hstarted hwhole
  show execPesHdrPts h s = _
  rw [execPesHdrPts, State.whenRunning, if_pos hrun, if_pos hsel, hpid, hchan]

theorem exec_pesHdrNopts_of_started : exec (.pesHdrNopts h) s = .next (s.commitChan p (pesHdrNopts p h c)) := by
  have hsel := pesSelected_of_started hpid hmode hchan hstarted hwhole
  show execPesHdrNopts h s = _
  rw [execPesHdrNopts, State.whenRunning, if_pos hrun, if_pos hsel, hpid, hchan]

end

theorem pesHdrPts_of_short (p : Pid) (h : PesPrefix) {c : Chan} (hshort : c.buf.length < 14) :
    pesHdrPts p h c = .error .ptsOverrun := if_pos hshort

theorem pesHdrPts_of_long (p : Pid) (h : PesPrefix) {c : Chan} (hlong : 14 ≤ c.buf.length) :
    pesHdrPts p h c = .ok (pesHeaderDone p h true (bufferPts c.buf) c) := if_neg hlong.not_gt

end Sys2Proof.Machine

namespace Sys2Proof.Statement

open Sys2Proof.Machine

/-- Settles O18: the channel stage of the frame is the delivery of its payload. -/
theorem parsedPesChannelPassesThrough : Obligations.ParsedPesChannelPassesThrough := by
  unfold Obligations.ParsedPesChannelPassesThrough
  intro af pl pusi o s body hrun hpes hwf hbody hparsed
  refine ⟨_, exec_frameInstr_of_run af pl pusi o hrun, packetStep_frameDone hwf hbody ?_⟩
  rw [hpes, ← pesDelivery_eq]
  exact pesSubmit_of_headerParsed o.pid _ pusi hparsed

/-- Settles O19: the channel stage of the frame gives the channel back and no event. -/
theorem unstartedPesChannelIgnores : Obligations.UnstartedPesChannelIgnores := by
  unfold Obligations.UnstartedPesChannelIgnores
  intro af pl o s body hrun hpes hwf hbody hnotStarted
  refine ⟨_, exec_frameInstr_of_run af pl false o hrun, packetStep_frameDone hwf hbody ?_⟩
  rw [hpes]
  exact pesSubmit_of_notStarted o.pid _ hnotStarted

/-- Settles O20: the channel stage of the frame is the decode attempt on the loaded or appended buffer. -/
theorem pesBufferLoadedThenDecoded : Obligations.PesBufferLoadedThenDecoded := by
  unfold Obligations.PesBufferLoadedThenDecoded
  intro af pl pusi o s body buf hrun hpes hwf hbody hbuf
  have hstage : channelStage (s.modeOf o.pid) o.pid pusi body.payload (s.chan o.pid) =
      tryDecode o.pid ⟨.started, buf⟩ := by
    rw [hpes]
    rcases hbuf with ⟨rfl, hst, rfl⟩ | ⟨rfl, hst, rfl⟩
    · exact pesSubmit_unitStart o.pid _ hst
    · exact pesSubmit_continuation o.pid _ hst
  refine ⟨_, exec_frameInstr_of_run af pl pusi o hrun, ?decoded, ?faulted⟩
  case decoded => exact fun c es hok => packetStep_frameDone hwf hbody (hstage.trans hok)
  case faulted =>
    intro code herror
    obtain rfl := tryDecode_error herror
    exact ⟨rfl, packetStep_frameFaulted hbody (hstage.trans herror)⟩

/-- Settles O30: a buffer that is not waiting holds the whole header, which its front decodes to. -/
theorem decodeAttemptIsHeaderOperation : Obligations.DecodeAttemptIsHeaderOperation := by
  unfold Obligations.DecodeAttemptIsHeaderOperation
  intro s p buf hrun hpid hmode hchan
  exact ⟨fun hwaiting => tryDecode_of_waiting p hwaiting,
    fun _ hwhole => exec_decodePes_of_started hrun hpid.symm hmode hchan hwhole⟩

/-- Settles O29: a selected operation commits its decode, by whether the timestamp bytes are there. -/
theorem pesHeaderOperationsResult : Obligations.PesHeaderOperationsResult := by
  unfold Obligations.PesHeaderOperationsResult
  intro s p c h hrun hpid hmode hchan hstarted hwhole
  simp only [← pesDelivery_eq]
  have hpts := exec_pesHdrPts_of_started hrun hpid.symm hmode hchan hstarted hwhole
  refine ⟨fun hlong => ?_, fun hshort => ?_, exec_pesHdrNopts_of_started hrun hpid.symm hmode hchan hstarted hwhole⟩
  · rw [hpts, pesHdrPts_of_long p h hlong]
    rfl
  · rw [hpts, pesHdrPts_of_short p h hshort]
    rfl

end Sys2Proof.Statement
end

section
/-! SUPPORT. A PES channel over many packets: before its header is parsed it holds the payloads of the unit that the last
unit start began, and after that it delivers every payload; with it the statement on one header per arming. -/

namespace Sys2Proof.Statement

open Sys2Proof.Machine

/-! ## The events of a delivery -/

/-- Deliveries to the data callback of PID `p` and nothing else (R51). -/
def OnlyPesData (p : Pid) (es : List Event) : Prop := ∀ e ∈ es, ∃ d, e = .pesData p d ∧ d ≠ []

theorem OnlyPesData.append {p : Pid} {es es' : List Event} (h : OnlyPesData p es) (h' : OnlyPesData p es') :
    OnlyPesData p (es ++ es') := List.forall_mem_append.mpr ⟨h, h'⟩

theorem pesDelivery_onlyPesData (p : Pid) (data : List Byte) : OnlyPesData p (pesDelivery p data) := by
  rw [pesDelivery_eq]
  split
  · exact List.forall_mem_nil _
  · exact List.forall_mem_singleton.mpr ⟨data, rfl, ‹_›⟩

theorem dataBytes_append (es es' : List Event) : dataBytes (es ++ es') = dataBytes es ++ dataBytes es' := by
  induction es with
  | nil => rfl
  | cons e es ih => cases e <;> simp [dataBytes, ih]

theorem dataBytes_pesDelivery (p : Pid) (data : List Byte) : dataBytes (pesDelivery p data) = data := by
  cases data <;> simp [pesDelivery, dataBytes]

/-! ## One packet of a feed (R221) -/

/-- A feed that raises no fault is its first packet and then the feed of the others. -/
theorem pesFeed_cons_ok {p : Pid} {c c'' : Chan} {f : Bool × List Byte} {rest : List (Bool × List Byte)}
    {es'' : List Event} (h : pesFeed p c (f :: rest) = .ok (c'', es'')) :
    ∃ c' es es', pesSubmit p f.1 f.2 c = .ok (c', es) ∧ pesFeed p c' rest = .ok (c'', es') ∧ es'' = es ++ es' := by
  rw [pesFeed] at h
  cases hsubmit : pesSubmit p f.1 f.2 c with
  | error code => simp [hsubmit] at h
  | ok ce =>
    cases hrest : pesFeed p ce.1 rest with
    | error code => simp [hsubmit, hrest] at h
    | ok ce' =>
      simp only [hsubmit, hrest, Except.ok.injEq, Prod.mk.injEq] at h
      obtain ⟨rfl, rfl⟩ := h
      exact ⟨ce.1, ce.2, ce'.2, rfl, hrest, rfl⟩

/-! ## After the header (R228) -/

/-- In HeaderParsed the events are the payloads in order, and the channel stays. -/
theorem pesFeed_of_headerParsed {p : Pid} {frames : List (Bool × List Byte)} {c c' : Chan} {es : List Event}
    (hparsed : c.st = .headerParsed) (h : pesFeed p c frames = .ok (c', es)) :
    c' = c ∧ OnlyPesData p es ∧ dataBytes es = (frames.map Prod.snd).flatten := by
  induction frames generalizing es with
  | nil =>
    cases h
    exact ⟨rfl, List.forall_mem_nil _, rfl⟩
  | cons f rest ih =>
    obtain ⟨c₁, es₁, es₂, hsubmit, hrest, rfl⟩ := pesFeed_cons_ok h
    rw [pesSubmit_of_headerParsed p f.2 f.1 hparsed] at hsubmit
    cases hsubmit
    obtain ⟨rfl, honly, hbytes⟩ := ih hrest
    refine ⟨rfl, (pesDelivery_onlyPesData p f.2).append honly, ?_⟩
    rw [dataBytes_append, dataBytes_pesDelivery, hbytes, List.map_cons, List.flatten_cons]

/-! ## The events of a parsed header (R231) -/

/-- The events are the header at the front of `buf`, and then the rest of `buf` and the bytes `later` as data. -/
def HeaderThenData (p : Pid) (buf later : List Byte) (es : List Event) : Prop :=
  ∃ (hdr : PesHeader) (data : List Event), es = .pesHdr hdr :: data ∧ OnlyPesData p data ∧ hdr.pid = p ∧
    hdr.headerDataLen = byteAt buf 8 ∧ dataBytes data = buf.drop (pesHeaderLength hdr.headerDataLen) ++ later

theorem HeaderThenData.append {p : Pid} {buf : List Byte} {es data : List Event} (h : HeaderThenData p buf [] es)
    (hdata : OnlyPesData p data) : HeaderThenData p buf (dataBytes data) (es ++ data) := by
  obtain ⟨hdr, first, rfl, honly, hpid, hlen, hbytes⟩ := h
  refine ⟨hdr, first ++ data, rfl, honly.append hdata, hpid, hlen, ?_⟩
  rw [dataBytes_append, hbytes, List.append_nil]

/-- A decode attempt that raises no fault waits, or parses the header. -/
theorem tryDecode_waits_or_parses {p : Pid} {c c' : Chan} {es : List Event} (h : tryDecode p c = .ok (c', es)) :
    (c' = c ∧ es = []) ∨ (c' = ⟨.headerParsed, []⟩ ∧ HeaderThenData p c.buf [] es) := by
  rcases tryDecode_cases p c with ⟨hwait, _⟩ | ⟨_, _, _, _, hfault⟩ | ⟨_, _, _, hdone⟩
  · rw [hwait] at h
    cases h
    exact .inl ⟨rfl, rfl⟩
  · rw [hfault] at h
    cases h
  · rw [hdone] at h
    cases h
    refine .inr ⟨rfl, _, _, rfl, pesDelivery_onlyPesData _ _, rfl, prefix_headerDataLen c.buf, ?_⟩
    rw [dataBytes_pesDelivery, List.append_nil]

/-! ## Before the header (R223, R225, R226) -/

/-- The packets end with a unit start and its continuations, whose payloads joined are `buf`. -/
def EndsWithUnit (packets : List (Bool × List Byte)) (buf : List Byte) : Prop :=
  ∃ before start conts, packets = before ++ (true, start) :: conts ∧ (∀ f ∈ conts, f.1 = false) ∧
    buf = start ++ (conts.map Prod.snd).flatten

theorem endsWithUnit_start (past : List (Bool × List Byte)) (payload : List Byte) :
    EndsWithUnit (past ++ [(true, payload)]) payload :=
  ⟨past, payload, [], rfl, List.forall_mem_nil _, (List.append_nil payload).symm⟩

theorem EndsWithUnit.continuation {past : List (Bool × List Byte)} {buf : List Byte} (h : EndsWithUnit past buf)
    (payload : List Byte) : EndsWithUnit (past ++ [(false, payload)]) (buf ++ payload) := by
  obtain ⟨before, start, conts, rfl, hconts, rfl⟩ := h
  refine ⟨before, start, conts ++ [(false, payload)], by simp, ?_, by simp⟩
  exact List.forall_mem_append.mpr ⟨hconts, List.forall_mem_singleton.mpr rfl⟩

/-- What a channel is after the packets `past` since its reset, while its header is not parsed. -/
def Armed (past : List (Bool × List Byte)) (c : Chan) : Prop :=
  c.st = .notStarted ∨ (c.st = .started ∧ EndsWithUnit past c.buf)

theorem Armed.not_headerParsed {past : List (Bool × List Byte)} {c : Chan} (h : Armed past c) :
    c.st ≠ .headerParsed := by
  rcases h with hst | ⟨hst, _⟩ <;> simp [hst]

/-- A packet on an armed channel is ignored, or is a decode attempt on the payloads of the unit that it ends. -/
theorem Armed.pesSubmit_cases {past : List (Bool × List Byte)} {c : Chan} (h : Armed past c) (p : Pid)
    (f : Bool × List Byte) :
    (pesSubmit p f.1 f.2 c = .ok (c, []) ∧ Armed (past ++ [f]) c) ∨
    ∃ buf, EndsWithUnit (past ++ [f]) buf ∧ pesSubmit p f.1 f.2 c = tryDecode p ⟨.started, buf⟩ := by
  obtain ⟨pusi, payload⟩ := f
  cases pusi with
  | true => exact .inr ⟨payload, endsWithUnit_start past payload, pesSubmit_unitStart p payload h.not_headerParsed⟩
  | false =>
    rcases h with hst | ⟨hst, hunit⟩
    · exact .inl ⟨pesSubmit_of_notStarted p payload hst, .inl hst⟩
    · exact .inr ⟨_, hunit.continuation payload, pesSubmit_continuation p payload hst⟩

/-- A packet that raises no fault leaves an armed channel armed and emits nothing, or parses the header. -/
theorem Armed.pesSubmit_ok {past : List (Bool × List Byte)} {c c' : Chan} (h : Armed past c) {p : Pid}
    {f : Bool × List Byte} {es : List Event} (hsubmit : pesSubmit p f.1 f.2 c = .ok (c', es)) :
    (es = [] ∧ Armed (past ++ [f]) c') ∨
    (c' = ⟨.headerParsed, []⟩ ∧ ∃ buf, EndsWithUnit (past ++ [f]) buf ∧ HeaderThenData p buf [] es) := by
  rcases h.pesSubmit_cases p f with ⟨hignored, harmed⟩ | ⟨buf, hunit, hdecode⟩
  · rw [hignored] at hsubmit
    cases hsubmit
    exact .inl ⟨rfl, harmed⟩
  · rw [hdecode] at hsubmit
    rcases tryDecode_waits_or_parses hsubmit with ⟨rfl, rfl⟩ | ⟨hc, hheader⟩
    · exact .inl ⟨rfl, .inr ⟨rfl, hunit⟩⟩
    · exact .inr ⟨hc, buf, hunit, hheader⟩

/-- A feed from an armed channel keeps it armed and emits nothing, or parses the header of a unit that ends with one of
the packets, and delivers all later payloads (R237). -/
theorem Armed.pesFeed_ok {past frames : List (Bool × List Byte)} {c c' : Chan} (h : Armed past c) {p : Pid}
    {es : List Event} (hfeed : pesFeed p c frames = .ok (c', es)) :
    (es = [] ∧ Armed (past ++ frames) c') ∨
    (c' = ⟨.headerParsed, []⟩ ∧ ∃ upTo later buf, past ++ frames = upTo ++ later ∧ EndsWithUnit upTo buf ∧
      HeaderThenData p buf (later.map Prod.snd).flatten es) := by
  induction frames generalizing past c es with
  | nil =>
    cases hfeed
    exact .inl ⟨rfl, by rwa [List.append_nil]⟩
  | cons f rest ih =>
    obtain ⟨c₁, es₁, es₂, hsubmit, hrest, rfl⟩ := pesFeed_cons_ok hfeed
    rw [List.append_cons]
    rcases h.pesSubmit_ok hsubmit with ⟨rfl, harmed⟩ | ⟨rfl, buf, hunit, hheader⟩
    · exact ih harmed hrest
    · obtain ⟨rfl, honly, hbytes⟩ := pesFeed_of_headerParsed rfl hrest
      exact .inr ⟨rfl, past ++ [f], rest, buf, rfl, hunit, hbytes ▸ hheader.append honly⟩

/-- Settles O32: right after its reset a channel is armed, and a feed keeps it so or parses one header. -/
theorem pesHeaderOncePerArming : Obligations.PesHeaderOncePerArming := by
  unfold Obligations.PesHeaderOncePerArming
  intro p frames c es hfeed
  have harmed : Armed [] Chan.idle := .inl rfl
  rcases harmed.pesFeed_ok hfeed with ⟨hnone, hstill⟩ | ⟨hparsed, upTo, later, buf, hframes, hunit, hheader⟩
  · exact .inl ⟨hnone, hstill.not_headerParsed⟩
  · obtain ⟨before, start, conts, rfl, hconts, hbuf⟩ := hunit
    obtain ⟨hdr, data, hes, honly, hpid, hlen, hbytes⟩ := hheader
    exact .inr ⟨hparsed, hdr, data, before, conts, later, start, buf, hes, honly, hpid, hframes, hconts, hbuf, hlen,
      hbytes⟩

end Sys2Proof.Statement
end

section
/-! SUPPORT. What a host command depends on and what it leaves alone, the numbers that the registers show, and with them
the statements on the host commands. -/

namespace Sys2Proof.Machine

open Sys2Proof.Statement

/-! ## Commands as a class (R91, R260) -/

/-- A host command has a register access, and no other instruction has its width. -/
theorem access_of_isCommand {i : Instr} (h : isCommand i = true) : ∃ rw a d, i.access = some (rw, a, d) := by
  cases i with
  | wrCtrl | rdStatus | rdFrameCnt | rdFaultInfo | rdFaultPid | wrChSel | rdChSel | wrChMode | rdChMode | wrChCmd |
      rdChState | wrCrcInit | wrCrcData | rdCrcValue => exact ⟨_, _, _, rfl⟩
  | _ => exact Bool.noConfusion h

theorem HostEffect.pending_eq {s t : State} (h : HostEffect s t) : t.pending = s.pending := by rw [h.same]

/-- A host command resets every element or has no more than a host effect (R260, R262). -/
theorem exec_of_isCommand {i : Instr} (h : isCommand i = true) (s : State) :
    (isSoftReset i = true ∧ exec i s = .next s.resetAll) ∨
      (isSoftReset i = false ∧ ∃ t, exec i s = .next t ∧ HostEffect s t) := by
  obtain ⟨_, _, _, haccess⟩ := access_of_isCommand h
  rcases exec_command (decodeCommand_of_access haccess) s with ⟨d, rfl, hsrst, he⟩ | ⟨hctrl, _, _, heffect⟩
  · exact .inl ⟨hsrst, he⟩
  · refine .inr ⟨?_, heffect⟩
    cases i with
    | wrCtrl d => exact hctrl d rfl
    | _ => rfl

/-! ## Writes -/

theorem exec_wrCtrl_of_srst {d : Word} (h : d.getLsbD 0 = true) (s : State) :
    exec (.wrCtrl d) s = .next s.resetAll := congrArg Host.Outcome.next (if_pos h)

theorem exec_wrCtrl_of_not_srst {d : Word} (h : d.getLsbD 0 = false) (s : State) : exec (.wrCtrl d) s = .next s :=
  congrArg Host.Outcome.next (if_neg (Bool.eq_false_iff.mp h))

theorem exec_wrChCmd_of_rst {d : Word} (h : d.getLsbD 0 = true) (s : State) :
    exec (.wrChCmd d) s = .next (s.resetChan s.chSel) := congrArg Host.Outcome.next (if_pos h)

theorem exec_wrChCmd_of_not_rst {d : Word} (h : d.getLsbD 0 = false) (s : State) : exec (.wrChCmd d) s = .next s :=
  congrArg Host.Outcome.next (if_neg (Bool.eq_false_iff.mp h))

theorem State.chan_resetChan_same (s : State) (p : Pid) (h : Table.wf Chan.idle s.ch = true) :
    (s.resetChan p).chan p = Chan.idle := s.chan_setChan_same p Chan.idle h

theorem State.chan_resetChan_ne (s : State) {p q : Pid} (h : q ≠ p) : (s.resetChan p).chan q = s.chan q :=
  s.chan_setChan_ne Chan.idle h

@[simp] theorem State.resetChan_modeOf (s : State) (p q : Pid) : (s.resetChan p).modeOf q = s.modeOf q := rfl

/-- The mode that a datum stores, by its number: 3 as OFF (R39, R268). -/
theorem Mode.ofBits_field (d : Word) : Mode.ofBits (d.extractLsb' 0 2) =
    if d.toNat % 4 = 1 then .sec else if d.toNat % 4 = 2 then .pes else .off := by
  have hnum : (d.extractLsb' 0 2).toNat = d.toNat % 4 := by simp
  simp only [Mode.ofBits, BitVec.toNat_eq, hnum, BitVec.toNat_ofNat, Nat.reducePow, Nat.reduceMod]

/-! ## The numbers of the register words (R34, R41) -/

theorem State.toNat_statusWord (s : State) : s.statusWord.toNat =
    s.byteCnt.val * 2 ^ 8 + (faultBits s.faultCode).toNat * 2 ^ 4 + s.run.bits.toNat := by
  unfold State.statusWord
  repeat rw [toNat_cat]
  simp only [BitVec.toNat_ofNat]
  have hcount := s.byteCnt.isLt
  omega

theorem Chan.toNat_stateWord {c : Chan} (h : c.buf.length < 2 ^ 13) :
    c.stateWord.toNat = c.buf.length * 2 ^ 16 + c.st.bits.toNat := by
  unfold Chan.stateWord
  repeat rw [toNat_cat]
  simp only [BitVec.toNat_ofNat]
  omega

/-! ## The frame buffer and byte_cnt, which only `STATUS` shows (R260, R263) -/

/-- A command other than a reset and RD.STATUS has the same effect whatever FB and byte_cnt are. -/
theorem exec_command_replace {i : Instr} (hcommand : isCommand i = true) (hreset : isSoftReset i = false)
    (hstatus : ∀ d, i ≠ .rdStatus d) {s t : State} (h : exec i s = .next t) (m : Memory) (n : Fin 188) :
    exec i { s with fb := m, byteCnt := n } = .next { t with fb := m, byteCnt := n } := by
  cases i with
  | rdStatus d => exact absurd rfl (hstatus d)
  | wrCtrl d =>
    rw [exec_wrCtrl_of_not_srst hreset] at h ⊢
    cases h
    rfl
  | wrChCmd d =>
    cases hrst : d.getLsbD 0
    · rw [exec_wrChCmd_of_not_rst hrst] at h ⊢
      cases h
      rfl
    · rw [exec_wrChCmd_of_rst hrst] at h ⊢
      cases h
      rfl
  | rdFrameCnt | rdFaultInfo | rdFaultPid | wrChSel | rdChSel | wrChMode | rdChMode | rdChState | wrCrcInit |
      wrCrcData | rdCrcValue =>
    cases h
    rfl
  | _ => exact Bool.noConfusion hcommand

/-- Such a command goes through a stored byte. -/
theorem exec_command_storeByte {i : Instr} (hcommand : isCommand i = true) (hreset : isSoftReset i = false)
    (hstatus : ∀ d, i ≠ .rdStatus d) {s t : State} (h : exec i s = .next t) (hfb : t.fb = s.fb)
    (hcount : t.byteCnt = s.byteCnt) (b : Byte) : exec i (s.storeByte b) = .next (t.storeByte b) := by
  have hstored : t.storeByte b = { t with fb := (s.storeByte b).fb, byteCnt := (s.storeByte b).byteCnt } := by
    rw [State.storeByte, hfb, hcount, State.storeByte]
  rw [hstored]
  exact exec_command_replace hcommand hreset hstatus h _ _

end Sys2Proof.Machine

namespace Sys2Proof.Statement

open Sys2Proof.Machine

theorem execBoth_of_next {i : Instr} {s t : State} (h : exec i s = .next t) (j : Instr) :
    execBoth i j s = exec j t := by
  rw [execBoth, h]

/-- Settles O40: both commands write the entry of the selected PID in canonical tables. -/
theorem channelWritesResult : Obligations.ChannelWritesResult := by
  unfold Obligations.ChannelWritesResult
  intro s d hmode hch
  refine ⟨?mode, ?command, fun hrst => exec_wrChCmd_of_not_rst hrst s⟩
  case mode =>
    refine ⟨_, rfl, rfl, ?stored, State.chan_resetChan_same _ _ hch,
      fun q hq => ⟨State.modeOf_setMode_ne s _ hq, State.chan_resetChan_ne _ hq⟩⟩
    rw [State.resetChan_modeOf, State.modeOf_setMode_same _ _ _ hmode, Mode.ofBits_field]
  case command =>
    intro hrst
    exact ⟨_, exec_wrChCmd_of_rst hrst s, rfl, s.chan_resetChan_same _ hch, fun q => s.chan_resetChan_ne⟩

/-- Settles O41: a reset keeps EV and the ports, and a host effect touches nothing of the stream side. -/
theorem commandsLeaveTheStreamSide : Obligations.CommandsLeaveTheStreamSide := by
  unfold Obligations.CommandsLeaveTheStreamSide
  intro i s hcommand
  rcases exec_of_isCommand hcommand s with ⟨hreset, he⟩ | ⟨_, t, he, heffect⟩
  · refine ⟨_, he, rfl, rfl, fun hnot => ?_⟩
    rw [hreset] at hnot
    cases hnot
  · obtain ⟨hrun, hcode, hframe, hpid, hframeCnt, hbyteCnt, hfb, hev⟩ := heffect.stream_eq
    exact ⟨t, he, hev, heffect.pending_eq, fun _ => ⟨hrun, hcode, hframe, hpid, hframeCnt, hbyteCnt, hfb⟩⟩

/-- Settles O42: the command keeps the run state, so the byte is stored in both orders or discarded in both, and the
command reads nothing that the store writes. -/
theorem commandCommutesWithByteInsideFrame : Obligations.CommandCommutesWithByteInsideFrame := by
  unfold Obligations.CommandCommutesWithByteInsideFrame
  intro i b s hcommand hreset hstatus hinside
  obtain ⟨t, he, _, _, hkept⟩ := commandsLeaveTheStreamSide i s hcommand
  obtain ⟨hrun, _, _, _, _, hcount, hfb⟩ := hkept hreset
  rw [execBoth_of_next he]
  by_cases hs : s.run = .run
  · have hstored := exec_command_storeByte hcommand hreset hstatus he hfb hcount b
    rw [exec_inByte_of_lt b (hrun.trans hs) (hcount ▸ hinside), execBoth_of_next (exec_inByte_of_lt b hs hinside),
      hstored]
  · rw [exec_inByte_of_not_run b (hrun ▸ hs), execBoth_of_next (exec_inByte_of_not_run b hs), he]

/-- Settles O37: each read returns its word, and the two words with several fields are read as numbers. -/
theorem readCommandsResult : Obligations.ReadCommandsResult := by
  unfold Obligations.ReadCommandsResult
  intro s d
  refine ⟨⟨s.statusWord, rfl, s.toNat_statusWord⟩, rfl, rfl, rfl, rfl, rfl,
    ⟨(s.chan s.chSel).stateWord, rfl, Chan.toNat_stateWord⟩, ?runStates, ?causes, ?modes, ?chanStates⟩
  case runStates => exact ⟨rfl, rfl, rfl⟩
  case causes => exact ⟨rfl, rfl, rfl, rfl, rfl⟩
  case modes => exact ⟨rfl, rfl, rfl⟩
  case chanStates => exact ⟨rfl, rfl, rfl⟩

/-- Settles O38: with SRST the state is `resetAll`, whose tables give their defaults for every PID. -/
theorem controlWriteResult : Obligations.ControlWriteResult := by
  unfold Obligations.ControlWriteResult
  intro s d
  refine ⟨fun hsrst => ⟨_, exec_wrCtrl_of_srst hsrst s, ?_⟩, fun hsrst => exec_wrCtrl_of_not_srst hsrst s⟩
  exact ⟨rfl, rfl, rfl, rfl, rfl, rfl, rfl, rfl, s.resetAll_modeOf, s.resetAll_chan, rfl, rfl, rfl⟩

/-- Settles O39: the field data[12:0] is the datum modulo 2^13. -/
theorem channelSelectResult : Obligations.ChannelSelectResult := by
  unfold Obligations.ChannelSelectResult
  intro s d
  have hfield : d.extractLsb' 0 13 = BitVec.ofNat 13 (d.toNat % 2 ^ 13) := by
    apply BitVec.eq_of_toNat_eq
    rw [toNat_field, BitVec.toNat_ofNat, Nat.pow_zero, Nat.div_one, Nat.mod_mod]
  rw [← hfield]
  rfl

end Sys2Proof.Statement
end

section
/-! SUPPORT. The statement on trap entry. -/

namespace Sys2Proof.Statement

/-- Settles O45: the record that `State.raiseFault` writes is the one stated, field by field, with `frame_cnt` read
before the entry. -/
theorem trapEntryResult : Obligations.TrapEntryResult := by
  unfold Obligations.TrapEntryResult
  intro s code p
  rfl

end Sys2Proof.Statement
end

section
/-! SUPPORT. The statements on the totality of a step and on the two resets. -/

namespace Sys2Proof.Machine

/-- A frame step in RUN answers a next state, with a bad sync byte as with a good one (R160, R178, R338). -/
theorem frameStep_total {s : State} (hrun : s.run = .run) : ∃ t, frameStep s = .next t := by
  rcases frameStep_cases s hrun with ⟨_, hbad⟩ | ⟨_, hpacket⟩
  · exact ⟨_, hbad⟩
  · exact ⟨_, hpacket⟩

end Sys2Proof.Machine

namespace Sys2Proof.Statement

open Sys2Proof.Machine

/-- Settles O49: each way that a step can go answers a next state; only the 188th byte of a frame leaves the answer to
the frame step. -/
theorem everyStepCompletes : Obligations.EveryStepCompletes := by
  unfold Obligations.EveryStepCompletes
  intro s
  rcases step_effect s with ⟨_, hidle⟩ | ⟨_, hreset⟩ | ⟨_, _, t, hhost, _⟩ | ⟨_, hdiscarded⟩ | ⟨_, _, _, _, hstored⟩ |
    ⟨_, _, _, hended⟩ | ⟨b, _, hrun, _, _, hframe⟩
  · exact ⟨_, hidle⟩
  · exact ⟨_, hreset⟩
  · exact ⟨t, hhost⟩
  · exact ⟨_, hdiscarded⟩
  · exact ⟨_, hstored⟩
  · exact ⟨_, hended⟩
  · rw [hframe]
    exact frameStep_total (s := s.consume.storeByte b) hrun

/-- Settles O50: the write decodes to `WR.CTRL`, which with bit 0 set is `resetAll`, as the reset input is; the state left
after taking the port step does not depend on which of the two it was. -/
theorem resetInputIsSoftReset : Obligations.ResetInputIsSoftReset := by
  unfold Obligations.ResetInputIsSoftReset
  intro s rest d hsrst
  have hdecode : decodeCommand (encodeCommand true 0x00#8 d) = .ok (.wrCtrl d) := decodeCommand_of_access rfl
  have hpin := step_of_fetch_reset (State.fetch_resetPin s rest)
  have hwrite := step_of_fetch_operation (State.fetch_command_ok hdecode s rest)
  rw [hpin, hwrite, exec_wrCtrl_of_srst hsrst]
  rfl

end Sys2Proof.Statement
end
